-- ==== Sys2Proof/Word.lean ====
section
/-! DEFINITION. The word types of the machine. -/

namespace Sys2Proof

/-- One byte, the addressable unit of memory (R60). -/
abbrev Byte := BitVec 8

/-- A 64-bit machine word: a general register, a linear address, a control register (R21, R22, R31). -/
abbrev Word := BitVec 64

/-- The storage of one whole vector register, `zmm` (R26). -/
abbrev Vec512 := BitVec 512

end Sys2Proof
end

