-- ==== Sys2Proof/Config.lean ====
section
/-! DEFINITION. The configuration record `cfg` (R6): what an implementation or its platform fixes. Every parameter is
plain data held in the state, so that a claim about every state is a claim about every configuration (log entry 1). -/

namespace Sys2Proof

/-- The CPUID feature flags that gate the rows (R2). -/
inductive Feature where
  | mmx | sse2 | avx | avx2 | avx512f | avx512bw | avx512vl
  deriving DecidableEq, Repr

/-- `cfg.feat` (R6): which of the feature flags of R2 the processor reports. -/
structure Features where
  mmx : Bool
  sse2 : Bool
  avx : Bool
  avx2 : Bool
  avx512f : Bool
  avx512bw : Bool
  avx512vl : Bool
  deriving DecidableEq, Repr

/-- The three values `cfg.MAXVL` may have (R6). -/
inductive VecLen where
  | v128 | v256 | v512
  deriving DecidableEq, Repr

/-- The two values `cfg.KW` may have (R6). -/
inductive MaskWidth where
  | k16 | k64
  deriving DecidableEq, Repr

/-- One page's answer to an access (R66: "present and readable at the current privilege level"). The source gives no
page-table format, so a page is held as the answers it gives (log entry 5). -/
structure Page where
  /-- The page is present. -/
  present : Bool
  /-- Data reads are allowed at privilege levels 0 to 2. -/
  supRead : Bool
  /-- Data reads are allowed at privilege level 3. -/
  userRead : Bool
  /-- Instruction fetches are allowed at privilege levels 0 to 2. -/
  supExec : Bool
  /-- Instruction fetches are allowed at privilege level 3. -/
  userExec : Bool
  /-- The bits of a page-fault error code other than bits 0, 1, 2 and 4 ("other bits as the paging mode defines", R220). -/
  codeRest : BitVec 32
  deriving DecidableEq, Repr

/-- A page that every access may use. -/
def Page.unrestricted : Page where
  present := true
  supRead := true
  userRead := true
  supExec := true
  userExec := true
  codeRest := 0#32

/-- The paging half of `cfg.Translate` (R66) as data: the listed pages, by page number, and what every other page is. -/
structure PageMap where
  entries : List (Nat × Page)
  other : Page
  /-- The paging mode reports an instruction fetch in bit 4 of the error code (R75, R220). -/
  reportsFetch : Bool
  deriving DecidableEq, Repr

/-- The configuration record of R6, with the parameters of `cfg.Translate` that R33, R66 and R71 leave to the platform. -/
structure Config where
  feat : Features
  maxvl : VecLen
  kw : MaskWidth
  has64 : Bool
  /-- `cfg.partial_fetch_m128` (R69). -/
  partialFetch : Bool
  /-- The number of bits of a canonical linear address (R33, R66). -/
  linearBits : Nat
  pages : PageMap
  /-- Linear address ranges (first byte, size) whose reads the platform declares side-effecting (R71). -/
  sideEffecting : List (Nat × Nat)
  deriving DecidableEq, Repr

/-- The configuration of `Machine.State.reset`: every feature present, nothing restricted (DESIGN CHOICE, unsafe: log entry 1). -/
def Config.allFeatures : Config where
  feat := ⟨true, true, true, true, true, true, true⟩
  maxvl := .v512
  kw := .k64
  has64 := true
  partialFetch := false
  linearBits := 48
  pages := ⟨[], Page.unrestricted, true⟩
  sideEffecting := []

end Sys2Proof
end

