-- ==== Sys2Proof/Syntax.lean ====
section
/-! DEFINITION. The instructions: one constructor per row of the opcode table (R91), over the grammar of R90. A term holds every
field of the encoding, with the fields stored inverted already complemented, so that nothing of an encoding is lost; register
numbers, segments and addresses are formed from the fields in Machine/Operands.lean. -/

namespace Sys2Proof

/-- The operating modes (R32). -/
inductive Mode where
  | real | v86 | prot16 | prot32 | long64
  deriving DecidableEq, Repr

/-- The address size of an instruction (R108). -/
inductive AddrSize where
  | a16 | a32 | a64
  deriving DecidableEq, Repr

/-- The segment registers, in their numbering 0 to 5 (R32). -/
inductive Seg where
  | es | cs | ss | ds | fs | gs
  deriving DecidableEq, Repr

/-- A legacy prefix (R97 step 1). -/
inductive Prefix where
  | lock | repne | rep
  | seg (r : Seg)
  | opSize
  | addrSize
  deriving DecidableEq, Repr

/-- The REX prefix `0100 W R X B` (R100). -/
structure Rex where
  w : Bool
  r : Bool
  x : Bool
  b : Bool
  deriving DecidableEq, Repr

/-- A displacement of address size 32 or 64 (R104). -/
inductive Disp where
  | none
  | d8 (v : BitVec 8)
  | d32 (v : BitVec 32)
  deriving DecidableEq, Repr

/-- A displacement of address size 16 (R107). -/
inductive Disp16 where
  | none
  | d8 (v : BitVec 8)
  | d16 (v : BitVec 16)
  deriving DecidableEq, Repr

/-- How a memory operand is addressed: the cells of the tables of R104, R105 and R107. Register fields are the 3-bit fields;
the extension bits stand in the instruction's head. -/
inductive Mem where
  /-- `reg(Bx::rm)` and a displacement; `rm` is not 100, and not 101 without a displacement. -/
  | base (rm : BitVec 3) (disp : Disp)
  /-- A SIB byte with a base register; `base` is not 101 without a displacement. -/
  | sib (scale : BitVec 2) (index base : BitVec 3) (disp : Disp)
  /-- A SIB byte with `mod = 00` and `base = 101`: no base register, disp32. -/
  | sibNoBase (scale : BitVec 2) (index : BitVec 3) (disp : BitVec 32)
  /-- `mod = 00, rm = 101` in 64-bit mode: RIP-relative (R106). -/
  | ripRel (disp : BitVec 32)
  /-- `mod = 00, rm = 101` in the other modes: disp32 alone. -/
  | abs32 (disp : BitVec 32)
  /-- A row of R107; `rm` is not 110 without a displacement. -/
  | base16 (rm : BitVec 3) (disp : Disp16)
  /-- `mod = 00, rm = 110` of R107: disp16 alone. -/
  | abs16 (disp : BitVec 16)
  deriving DecidableEq, Repr

/-- The operand of ModRM.r/m: a register field (`mod = 3`) or a memory operand (R103). -/
inductive Rm where
  | reg (rm : BitVec 3)
  | mem (m : Mem)
  deriving DecidableEq, Repr

/-- The three alternatives of an EVEX second source with broadcast (R117). -/
inductive RmBcst where
  | reg (rm : BitVec 3)
  | mem (m : Mem)
  | bcst (m : Mem)
  deriving DecidableEq, Repr

/-- The bytes of a legacy form before its opcode: prefixes in order, then REX if any (R90). -/
structure LegacyHead where
  prefixes : List Prefix
  rex : Option Rex
  deriving DecidableEq, Repr

/-- The two spellings of a VEX prefix (R110), each with the fields it stores; the bits are the complements of the stored ones. -/
inductive VexSpelling where
  | two (r : Bool)
  | three (r x b w : Bool)
  deriving DecidableEq, Repr

/-- The prefixes and the VEX fields an instruction chooses (R110); L, pp and mmmmm are fixed by the row (R112). -/
structure VexHead where
  prefixes : List Prefix
  spelling : VexSpelling
  vvvv : BitVec 4
  deriving DecidableEq, Repr

/-- The writemask of an EVEX form: fields z and aaa (R113, R181). -/
inductive Mask where
  /-- `aaa = 000`: every element is written. -/
  | none
  /-- `z = 0`, `aaa = k`. -/
  | merging (k : BitVec 3)
  /-- `z = 1`, `aaa = k`. -/
  | zeroing (k : BitVec 3)
  deriving DecidableEq, Repr

/-- The prefixes and the EVEX fields an instruction chooses (R113); L'L, pp, mmm and a fixed W are the row's (R116), and b
is the choice of second source. The bits are the complements of the stored ones. -/
structure EvexHead where
  prefixes : List Prefix
  r : Bool
  x : Bool
  b : Bool
  r' : Bool
  vvvv : BitVec 4
  v' : Bool
  mask : Mask
  deriving DecidableEq, Repr

/-- The 27 forms in the order of the opcode table (R91). `reg` is ModRM.reg, `rm` the operand of ModRM.r/m; `w` is the ignored
W bit of a WIG row of the EVEX class. -/
inductive Instr where
  | punpckhbwMm (h : LegacyHead) (reg : BitVec 3) (rm : Rm)
  | punpckhbwXmm (h : LegacyHead) (reg : BitVec 3) (rm : Rm)
  | punpckhwdMm (h : LegacyHead) (reg : BitVec 3) (rm : Rm)
  | punpckhwdXmm (h : LegacyHead) (reg : BitVec 3) (rm : Rm)
  | punpckhdqMm (h : LegacyHead) (reg : BitVec 3) (rm : Rm)
  | punpckhdqXmm (h : LegacyHead) (reg : BitVec 3) (rm : Rm)
  | punpckhqdqXmm (h : LegacyHead) (reg : BitVec 3) (rm : Rm)
  | vpunpckhbwVex128 (h : VexHead) (reg : BitVec 3) (rm : Rm)
  | vpunpckhwdVex128 (h : VexHead) (reg : BitVec 3) (rm : Rm)
  | vpunpckhdqVex128 (h : VexHead) (reg : BitVec 3) (rm : Rm)
  | vpunpckhqdqVex128 (h : VexHead) (reg : BitVec 3) (rm : Rm)
  | vpunpckhbwVex256 (h : VexHead) (reg : BitVec 3) (rm : Rm)
  | vpunpckhwdVex256 (h : VexHead) (reg : BitVec 3) (rm : Rm)
  | vpunpckhdqVex256 (h : VexHead) (reg : BitVec 3) (rm : Rm)
  | vpunpckhqdqVex256 (h : VexHead) (reg : BitVec 3) (rm : Rm)
  | vpunpckhbwEvex128 (h : EvexHead) (w : Bool) (reg : BitVec 3) (rm : Rm)
  | vpunpckhwdEvex128 (h : EvexHead) (w : Bool) (reg : BitVec 3) (rm : Rm)
  | vpunpckhdqEvex128 (h : EvexHead) (reg : BitVec 3) (rm : RmBcst)
  | vpunpckhqdqEvex128 (h : EvexHead) (reg : BitVec 3) (rm : RmBcst)
  | vpunpckhbwEvex256 (h : EvexHead) (w : Bool) (reg : BitVec 3) (rm : Rm)
  | vpunpckhwdEvex256 (h : EvexHead) (w : Bool) (reg : BitVec 3) (rm : Rm)
  | vpunpckhdqEvex256 (h : EvexHead) (reg : BitVec 3) (rm : RmBcst)
  | vpunpckhqdqEvex256 (h : EvexHead) (reg : BitVec 3) (rm : RmBcst)
  | vpunpckhbwEvex512 (h : EvexHead) (w : Bool) (reg : BitVec 3) (rm : Rm)
  | vpunpckhwdEvex512 (h : EvexHead) (w : Bool) (reg : BitVec 3) (rm : Rm)
  | vpunpckhdqEvex512 (h : EvexHead) (reg : BitVec 3) (rm : RmBcst)
  | vpunpckhqdqEvex512 (h : EvexHead) (reg : BitVec 3) (rm : RmBcst)
  deriving DecidableEq, Repr

end Sys2Proof
end

