-- ==== Sys2Proof/Decode.lean ====
section
/-! DEFINITION. The decoder (R97), total on any bytes and rejecting by name, the instruction length (R96), and the encoder. -/

namespace Sys2Proof

/-! ### Names of rejection -/

/-- Why an encoding is `#UD` (R119, R211). Each is the same exception with the same outcome (R222). -/
inductive UdCause where
  /-- A LOCK prefix (R99). -/
  | lock
  /-- `0F 6D` with no 66 prefix (R98). -/
  | mmxQuadword
  /-- A VEX or EVEX prefix preceded by 66, F2, F3 or REX (R111, R115). -/
  | prefixBeforeVex
  /-- A VEX or EVEX prefix in `Real` or `V86` (R111, R115, R212). -/
  | vexInRealOrV86
  /-- `P0[3] = 1` or `P1[2] = 0` (R115). -/
  | evexReservedBit
  /-- `L'L = 11` (R116). -/
  | evexLength
  /-- `op = 6A` with `W = 1` or `op = 6D` with `W = 0` (R116). -/
  | evexW
  /-- `z = 1` with `aaa = 000` (R116). -/
  | zeroingWithoutMask
  /-- `b = 1` on a byte or word form (R116). -/
  | broadcastOfByteOrWord
  /-- `b = 1` with a register source (R116). -/
  | broadcastOfRegister
  deriving DecidableEq, Repr

/-- Why the spec gives an encoding no meaning (R119). -/
inductive RefuseCause where
  /-- The bytes are not one of the 27 forms (R97, D1). -/
  | notInScope
  /-- F2 or F3 with a legacy form: reserved (R98, D11). -/
  | repOnLegacy
  /-- A REX prefix followed by a legacy prefix (R97, D11). -/
  | rexNotLast
  /-- A VEX or EVEX form outside 64-bit mode whose bits would name a register above 7 (R111, R115, D12). -/
  | registerAboveSeven
  deriving DecidableEq, Repr

/-- What the decoder answers: the instruction and the bytes after it, or that the bytes ran out, or a rejection. -/
inductive DecodeResult where
  | ok (i : Instr) (rest : List Byte)
  | more
  | ud (c : UdCause)
  | refuse (c : RefuseCause)
  deriving DecidableEq, Repr

/-! ### Bytes and fields -/

/-- `v[i]` (R7). -/
def bitAt {n : Nat} (v : BitVec n) (i : Nat) : Bool := v.getLsbD i

/-- The value whose bits, most significant first, are listed. -/
def packBits (n : Nat) : List Bool → BitVec n
  | [] => 0#n
  | b :: bs => (if b then 1#n <<< bs.length else 0#n) ||| packBits n bs

/-- The byte of the fields `mod`, `reg` and `rm` (R103), or of `scale`, `index` and `base` (R105). -/
def byte233 (hi : BitVec 2) (mid lo : BitVec 3) : Byte := hi ++ mid ++ lo

/-- Bits 7:6, the field `mod` of R103 and `scale` of R105. -/
def hiField (b : Byte) : BitVec 2 := b.extractLsb' 6 2

/-- Bits 5:3, the field `reg` of R103 and `index` of R105. -/
def midField (b : Byte) : BitVec 3 := b.extractLsb' 3 3

/-- Bits 2:0, the field `rm` of R103 and `base` of R105. -/
def loField (b : Byte) : BitVec 3 := b.extractLsb' 0 3

/-- A 16-bit field from its bytes, lowest address first (R60). -/
def le16 (b0 b1 : Byte) : BitVec 16 := b1 ++ b0

/-- A 32-bit field from its bytes, lowest address first (R60). -/
def le32 (b0 b1 b2 b3 : Byte) : BitVec 32 := b3 ++ b2 ++ b1 ++ b0

/-- The bytes of a 16-bit field, lowest address first (R60). -/
def bytes16 (v : BitVec 16) : List Byte := [v.extractLsb' 0 8, v.extractLsb' 8 8]

/-- The bytes of a 32-bit field, lowest address first (R60). -/
def bytes32 (v : BitVec 32) : List Byte :=
  [v.extractLsb' 0 8, v.extractLsb' 8 8, v.extractLsb' 16 8, v.extractLsb' 24 8]

/-! ### Prefixes -/

/-- The legacy prefix a byte is (R97 step 1). -/
def prefixOf (b : Byte) : Option Prefix :=
  if b = 0xF0#8 then some .lock
  else if b = 0xF2#8 then some .repne
  else if b = 0xF3#8 then some .rep
  else if b = 0x2E#8 then some (.seg .cs)
  else if b = 0x36#8 then some (.seg .ss)
  else if b = 0x3E#8 then some (.seg .ds)
  else if b = 0x26#8 then some (.seg .es)
  else if b = 0x64#8 then some (.seg .fs)
  else if b = 0x65#8 then some (.seg .gs)
  else if b = 0x66#8 then some .opSize
  else if b = 0x67#8 then some .addrSize
  else none

/-- The byte of a legacy prefix (R97 step 1). -/
def Prefix.byte : Prefix → Byte
  | .lock => 0xF0#8
  | .repne => 0xF2#8
  | .rep => 0xF3#8
  | .seg .cs => 0x2E#8
  | .seg .ss => 0x36#8
  | .seg .ds => 0x3E#8
  | .seg .es => 0x26#8
  | .seg .fs => 0x64#8
  | .seg .gs => 0x65#8
  | .opSize => 0x66#8
  | .addrSize => 0x67#8

/-- The prefix scan (R97 step 1): the prefixes in order and the bytes after them. -/
def scanPrefixes : List Byte → List Prefix × List Byte
  | [] => ([], [])
  | b :: bs =>
    match prefixOf b with
    | some p => (p :: (scanPrefixes bs).1, (scanPrefixes bs).2)
    | none => ([], b :: bs)

/-- A prefix other than LOCK, F2 and F3, which no instruction carries (R99, R98, R111, R115). -/
def Prefix.plain : Prefix → Bool
  | .lock | .repne | .rep => false
  | .seg _ | .opSize | .addrSize => true

/-- F2 or F3 is among the prefixes (R97). -/
def hasRep (ps : List Prefix) : Bool := ps.contains .rep || ps.contains .repne

/-- The address size of an instruction (R108): the mode's default (R32), switched by a 67 prefix. -/
def addressSize (m : Mode) (ps : List Prefix) : AddrSize :=
  match m, ps.contains .addrSize with
  | .long64, false => .a64
  | .long64, true => .a32
  | .prot32, false => .a32
  | .prot32, true => .a16
  | .real, false | .v86, false | .prot16, false => .a16
  | .real, true | .v86, true | .prot16, true => .a32

/-- A byte `40` to `4F` (R97 step 2). -/
def isRex (b : Byte) : Bool := b.extractLsb' 4 4 == 0x4#4

/-- The fields of a REX byte (R100). -/
def rexOf (b : Byte) : Rex := ⟨bitAt b 3, bitAt b 2, bitAt b 1, bitAt b 0⟩

/-- The REX byte of its fields (R100). -/
def Rex.byte (x : Rex) : Byte := packBits 8 [false, true, false, false, x.w, x.r, x.x, x.b]

/-! ### ModRM, SIB and displacement (R103 to R107) -/

/-- An 8-bit displacement off the front of the bytes. -/
def takeD8 : List Byte → Option (BitVec 8 × List Byte)
  | b :: bs => some (b, bs)
  | [] => none

/-- A 16-bit displacement off the front of the bytes. -/
def takeD16 : List Byte → Option (BitVec 16 × List Byte)
  | b0 :: b1 :: bs => some (le16 b0 b1, bs)
  | _ => none

/-- A 32-bit displacement off the front of the bytes. -/
def takeD32 : List Byte → Option (BitVec 32 × List Byte)
  | b0 :: b1 :: b2 :: b3 :: bs => some (le32 b0 b1 b2 b3, bs)
  | _ => none

/-- The displacement that `mod` asks for, address size 32 or 64 (R104). -/
def takeDisp (mod : BitVec 2) (bs : List Byte) : Option (Disp × List Byte) :=
  if mod = 0#2 then some (.none, bs)
  else if mod = 1#2 then (takeD8 bs).map fun (d, r) => (.d8 d, r)
  else (takeD32 bs).map fun (d, r) => (.d32 d, r)

/-- The displacement that `mod` asks for, address size 16 (R107). -/
def takeDisp16 (mod : BitVec 2) (bs : List Byte) : Option (Disp16 × List Byte) :=
  if mod = 0#2 then some (.none, bs)
  else if mod = 1#2 then (takeD8 bs).map fun (d, r) => (.d8 d, r)
  else (takeD16 bs).map fun (d, r) => (.d16 d, r)

/-- The memory operand of address size 16 (R107). -/
def takeMem16 (mod : BitVec 2) (rm : BitVec 3) (bs : List Byte) : Option (Mem × List Byte) :=
  if mod = 0#2 ∧ rm = 6#3 then (takeD16 bs).map fun (d, r) => (.abs16 d, r)
  else (takeDisp16 mod bs).map fun (d, r) => (.base16 rm d, r)

/-- The SIB byte and what follows it (R105). -/
def takeSib (mod : BitVec 2) : List Byte → Option (Mem × List Byte)
  | [] => none
  | sib :: bs =>
    if mod = 0#2 ∧ loField sib = 5#3 then
      (takeD32 bs).map fun (d, r) => (.sibNoBase (hiField sib) (midField sib) d, r)
    else
      (takeDisp mod bs).map fun (d, r) => (.sib (hiField sib) (midField sib) (loField sib) d, r)

/-- The memory operand of address size 32 or 64 (R104 to R106). -/
def takeMem32 (long64 : Bool) (mod : BitVec 2) (rm : BitVec 3) (bs : List Byte) : Option (Mem × List Byte) :=
  if rm = 4#3 then takeSib mod bs
  else if mod = 0#2 ∧ rm = 5#3 then
    (takeD32 bs).map fun (d, r) => (if long64 then .ripRel d else .abs32 d, r)
  else (takeDisp mod bs).map fun (d, r) => (.base rm d, r)

/-- ModRM and what belongs to it: the field `reg`, the operand of `r/m`, and the bytes after (R103). -/
def takeModRM (m : Mode) (ps : List Prefix) : List Byte → Option (BitVec 3 × Rm × List Byte)
  | [] => none
  | b :: bs =>
    if hiField b = 3#2 then some (midField b, .reg (loField b), bs)
    else if addressSize m ps = .a16 then
      (takeMem16 (hiField b) (loField b) bs).map fun (x, r) => (midField b, .mem x, r)
    else
      (takeMem32 (m = .long64) (hiField b) (loField b) bs).map fun (x, r) => (midField b, .mem x, r)

/-! ### The opcode byte -/

/-- The four mnemonic stems (R94). -/
inductive Stem where
  | bw | wd | dq | qdq
  deriving DecidableEq, Repr

/-- The stem of an opcode byte (R94). -/
def stemOf (b : Byte) : Option Stem :=
  if b = 0x68#8 then some .bw
  else if b = 0x69#8 then some .wd
  else if b = 0x6A#8 then some .dq
  else if b = 0x6D#8 then some .qdq
  else none

/-- The opcode byte of a stem (R94). -/
def Stem.byte : Stem → Byte
  | .bw => 0x68#8
  | .wd => 0x69#8
  | .dq => 0x6A#8
  | .qdq => 0x6D#8

/-- The row of a legacy 128-bit form (R91 rows 2, 4, 6, 7). -/
def legacyXmm (st : Stem) (h : LegacyHead) (reg : BitVec 3) (rm : Rm) : Instr :=
  match st with
  | .bw => .punpckhbwXmm h reg rm
  | .wd => .punpckhwdXmm h reg rm
  | .dq => .punpckhdqXmm h reg rm
  | .qdq => .punpckhqdqXmm h reg rm

/-- The row of an MMX form (R91 rows 1, 3, 5); `6D` has none. -/
def legacyMm (st : Stem) (h : LegacyHead) (reg : BitVec 3) (rm : Rm) : Option Instr :=
  match st with
  | .bw => some (.punpckhbwMm h reg rm)
  | .wd => some (.punpckhwdMm h reg rm)
  | .dq => some (.punpckhdqMm h reg rm)
  | .qdq => none

/-- The row of a VEX form (R91 rows 8 to 15), by the bit L. -/
def vexRow (st : Stem) (l : Bool) (h : VexHead) (reg : BitVec 3) (rm : Rm) : Instr :=
  match st, l with
  | .bw, false => .vpunpckhbwVex128 h reg rm
  | .wd, false => .vpunpckhwdVex128 h reg rm
  | .dq, false => .vpunpckhdqVex128 h reg rm
  | .qdq, false => .vpunpckhqdqVex128 h reg rm
  | .bw, true => .vpunpckhbwVex256 h reg rm
  | .wd, true => .vpunpckhwdVex256 h reg rm
  | .dq, true => .vpunpckhdqVex256 h reg rm
  | .qdq, true => .vpunpckhqdqVex256 h reg rm

/-- The byte or word row of an EVEX form (R91 rows 16, 17, 20, 21, 24, 25); `words` chooses `69`. -/
def evexRowC (words : Bool) (vl : VecLen) (h : EvexHead) (w : Bool) (reg : BitVec 3) (rm : Rm) : Instr :=
  match words, vl with
  | false, .v128 => .vpunpckhbwEvex128 h w reg rm
  | true, .v128 => .vpunpckhwdEvex128 h w reg rm
  | false, .v256 => .vpunpckhbwEvex256 h w reg rm
  | true, .v256 => .vpunpckhwdEvex256 h w reg rm
  | false, .v512 => .vpunpckhbwEvex512 h w reg rm
  | true, .v512 => .vpunpckhwdEvex512 h w reg rm

/-- The doubleword or quadword row of an EVEX form (R91 rows 18, 19, 22, 23, 26, 27); `quads` chooses `6D`. -/
def evexRowD (quads : Bool) (vl : VecLen) (h : EvexHead) (reg : BitVec 3) (rm : RmBcst) : Instr :=
  match quads, vl with
  | false, .v128 => .vpunpckhdqEvex128 h reg rm
  | true, .v128 => .vpunpckhqdqEvex128 h reg rm
  | false, .v256 => .vpunpckhdqEvex256 h reg rm
  | true, .v256 => .vpunpckhqdqEvex256 h reg rm
  | false, .v512 => .vpunpckhdqEvex512 h reg rm
  | true, .v512 => .vpunpckhqdqEvex512 h reg rm

/-! ### The three classes -/

/-- The legacy class after `0F` (R97 steps 4 to 6, R98). `0F 6D` without 66 is `#UD`, as R98, R119 and R211 say; R97 step 4 lists it
under "not in scope" (the model's choice between them, DEDUCED: log entry 23). -/
def decodeLegacy (m : Mode) (ps : List Prefix) (rex : Option Rex) : List Byte → DecodeResult
  | [] => .more
  | op :: bs =>
    match stemOf op with
    | none => .refuse .notInScope
    | some st =>
      match takeModRM m ps bs with
      | none => .more
      | some (reg, rm, rest) =>
        if ps.contains .lock then .ud .lock
        else if hasRep ps then .refuse .repOnLegacy
        else if ps.contains .opSize then .ok (legacyXmm st ⟨ps, rex⟩ reg rm) rest
        else match legacyMm st ⟨ps, rex⟩ reg rm with
          | some i => .ok i rest
          | none => .ud .mmxQuadword

/-- A prefix that may not stand before VEX or EVEX, if any (R111, R115, R99). -/
def beforeVex (ps : List Prefix) (rex : Option Rex) : Option UdCause :=
  if ps.contains .lock then some .lock
  else if hasRep ps || ps.contains .opSize || rex.isSome then some .prefixBeforeVex
  else none

/-- The mode `Real` or `V86`, in which VEX and EVEX are `#UD` (R212). -/
def Mode.realOrV86 : Mode → Bool
  | .real | .v86 => true
  | .prot16 | .prot32 | .long64 => false

/-- The VEX bits B, X, R as the registers and addresses use them (R110). -/
def VexSpelling.b : VexSpelling → Bool
  | .two _ => false
  | .three _ _ b _ => b

/-- The VEX class after the payload bytes (R97 steps 4 to 6, R110 to R112): `l`, `pp` and `mmmmm` are its other fields. -/
def decodeVexBody (m : Mode) (ps : List Prefix) (rex : Option Rex) (sp : VexSpelling) (vvvv : BitVec 4)
    (l : Bool) (pp : BitVec 2) (mmmmm : BitVec 5) : List Byte → DecodeResult
  | [] => .more
  | op :: bs =>
    match stemOf op with
    | none => .refuse .notInScope
    | some st =>
      if pp ≠ 1#2 ∨ mmmmm ≠ 1#5 then .refuse .notInScope
      else match takeModRM m ps bs with
      | none => .more
      | some (reg, rm, rest) =>
        match beforeVex ps rex with
        | some c => .ud c
        | none =>
          if m.realOrV86 then .ud .vexInRealOrV86
          else if m ≠ .long64 ∧ (sp.b = true ∨ bitAt vvvv 3 = true) then .refuse .registerAboveSeven
          else .ok (vexRow st l ⟨ps, sp, vvvv⟩ reg rm) rest

/-- In 64-bit mode `C4`, `C5` and `62` always begin a VEX or EVEX prefix, elsewhere only when bits 7:6 of the next byte
are 11 (R111, R115; for `Real` and `V86` DEDUCED, log entry 7). -/
def vexRecognised (m : Mode) (next : Byte) : Bool := m = .long64 || hiField next == 3#2

/-- `C5 v1` (R110). -/
def decodeVex2 (m : Mode) (ps : List Prefix) (rex : Option Rex) : List Byte → DecodeResult
  | [] => .more
  | v1 :: bs =>
    if vexRecognised m v1 then
      decodeVexBody m ps rex (.two (!bitAt v1 7)) (~~~ v1.extractLsb' 3 4) (bitAt v1 2) (v1.extractLsb' 0 2) 1#5 bs
    else .refuse .notInScope

/-- `C4 v1 v2` (R110). -/
def decodeVex3 (m : Mode) (ps : List Prefix) (rex : Option Rex) : List Byte → DecodeResult
  | [] => .more
  | v1 :: bs =>
    if vexRecognised m v1 then
      match bs with
      | [] => .more
      | v2 :: bs =>
        decodeVexBody m ps rex (.three (!bitAt v1 7) (!bitAt v1 6) (!bitAt v1 5) (bitAt v2 7))
          (~~~ v2.extractLsb' 3 4) (bitAt v2 2) (v2.extractLsb' 0 2) (v1.extractLsb' 0 5) bs
    else .refuse .notInScope

/-- The vector length of the field L'L (R116). -/
def vecLenOf (ll : BitVec 2) : Option VecLen :=
  if ll = 0#2 then some .v128
  else if ll = 1#2 then some .v256
  else if ll = 2#2 then some .v512
  else none

/-- The field L'L of a vector length (R116). -/
def VecLen.field : VecLen → BitVec 2
  | .v128 => 0#2
  | .v256 => 1#2
  | .v512 => 2#2

/-- The writemask of the fields z and aaa (R113); none where `z = 1` and `aaa = 000` (R116). -/
def maskOf (z : Bool) (aaa : BitVec 3) : Option Mask :=
  if aaa = 0#3 then (if z then none else some .none)
  else some (if z then .zeroing aaa else .merging aaa)

/-- The field z of a writemask (R113). -/
def Mask.z : Mask → Bool
  | .none | .merging _ => false
  | .zeroing _ => true

/-- The field aaa of a writemask (R113). -/
def Mask.aaa : Mask → BitVec 3
  | .none => 0#3
  | .merging k => k
  | .zeroing k => k

/-- The second source of a row with broadcast, by the bit b (R117); none where `b = 1` and the source is a register (R116). -/
def bcstOf (b : Bool) : Rm → Option RmBcst
  | .reg rm => if b then none else some (.reg rm)
  | .mem x => some (if b then .bcst x else .mem x)

/-- The row of an EVEX form, or the reason its encoding is `#UD` (R116). -/
def evexRow (st : Stem) (vl : VecLen) (h : EvexHead) (w b : Bool) (reg : BitVec 3) (rm : Rm) : Except UdCause Instr :=
  match st with
  | .bw | .wd => if b then .error .broadcastOfByteOrWord else .ok (evexRowC (st = .wd) vl h w reg rm)
  | .dq | .qdq =>
    if w ≠ (st = .qdq : Bool) then .error .evexW
    else match bcstOf b rm with
      | none => .error .broadcastOfRegister
      | some src => .ok (evexRowD (st = .qdq) vl h reg src)

/-- Outside 64-bit mode, the bits B, R', v3 and V' of which the spec does not say what they do (R115, D12). -/
def EvexHead.aboveSeven (h : EvexHead) : Bool := h.b || h.r' || bitAt h.vvvv 3 || h.v'

/-- The EVEX class after `62 P0 P1 P2 op` and ModRM (R97 step 6, R115, R116): the rejections, then the row. -/
def finishEvex (m : Mode) (ps : List Prefix) (rex : Option Rex) (p0 p1 p2 : Byte) (st : Stem) (reg : BitVec 3)
    (rm : Rm) (rest : List Byte) : DecodeResult :=
  match beforeVex ps rex with
  | some c => .ud c
  | none =>
    if m.realOrV86 then .ud .vexInRealOrV86
    else if bitAt p0 3 = true ∨ bitAt p1 2 = false then .ud .evexReservedBit
    else match vecLenOf (p2.extractLsb' 5 2), maskOf (bitAt p2 7) (p2.extractLsb' 0 3) with
    | none, _ => .ud .evexLength
    | some _, none => .ud .zeroingWithoutMask
    | some vl, some mask =>
      let h : EvexHead := ⟨ps, !bitAt p0 7, !bitAt p0 6, !bitAt p0 5, !bitAt p0 4, ~~~ p1.extractLsb' 3 4, !bitAt p2 3, mask⟩
      match evexRow st vl h (bitAt p1 7) (bitAt p2 4) reg rm with
      | .error c => .ud c
      | .ok i => if m ≠ .long64 ∧ h.aboveSeven = true then .refuse .registerAboveSeven else .ok i rest

/-- `62 P0 P1 P2` (R113, R115). -/
def decodeEvex (m : Mode) (ps : List Prefix) (rex : Option Rex) : List Byte → DecodeResult
  | [] => .more
  | p0 :: bs =>
    if vexRecognised m p0 then
      match bs with
      | p1 :: p2 :: op :: bs =>
        match stemOf op with
        | none => .refuse .notInScope
        | some st =>
          if p1.extractLsb' 0 2 ≠ 1#2 ∨ p0.extractLsb' 0 3 ≠ 1#3 then .refuse .notInScope
          else match takeModRM m ps bs with
          | none => .more
          | some (reg, rm, rest) => finishEvex m ps rex p0 p1 p2 st reg rm rest
      | _ => .more
    else .refuse .notInScope

/-- The class of an instruction (R97 step 3). -/
def decodeClass (m : Mode) (ps : List Prefix) (rex : Option Rex) : List Byte → DecodeResult
  | [] => .more
  | b :: bs =>
    if b = 0x0F#8 then decodeLegacy m ps rex bs
    else if b = 0xC5#8 then decodeVex2 m ps rex bs
    else if b = 0xC4#8 then decodeVex3 m ps rex bs
    else if b = 0x62#8 then decodeEvex m ps rex bs
    else .refuse .notInScope

/-- The REX prefix, in 64-bit mode only, and the class after it (R97 steps 2 and 3). A legacy prefix after REX is refused (D11) as
soon as it is read, before faults on later bytes, the length limit and `#UD` for LOCK (DESIGN CHOICE: log entry 27). -/
def decodeRex (m : Mode) (ps : List Prefix) : List Byte → DecodeResult
  | [] => .more
  | b :: bs =>
    if m = .long64 ∧ isRex b = true then
      match bs with
      | [] => .more
      | c :: _ => if (prefixOf c).isSome then .refuse .rexNotLast else decodeClass m ps (some (rexOf b)) bs
    else decodeClass m ps none (b :: bs)

/-- The decoder (R97): the instruction at the front of the bytes, in the mode given. -/
def decode (m : Mode) (bs : List Byte) : DecodeResult :=
  decodeRex m (scanPrefixes bs).1 (scanPrefixes bs).2

/-! ### Lengths (R96) -/

/-- The bytes of a displacement. -/
def Disp.length : Disp → Nat
  | .none => 0
  | .d8 _ => 1
  | .d32 _ => 4

/-- The bytes of a displacement of address size 16. -/
def Disp16.length : Disp16 → Nat
  | .none => 0
  | .d8 _ => 1
  | .d16 _ => 2

/-- The bytes after ModRM of a memory operand. -/
def Mem.length : Mem → Nat
  | .base _ d => d.length
  | .sib _ _ _ d => 1 + d.length
  | .sibNoBase _ _ _ => 5
  | .ripRel _ => 4
  | .abs32 _ => 4
  | .base16 _ d => d.length
  | .abs16 _ => 2

/-- The bytes of ModRM and what belongs to it. -/
def Rm.length : Rm → Nat
  | .reg _ => 1
  | .mem x => 1 + x.length

/-- The bytes of ModRM and what belongs to it. -/
def RmBcst.length : RmBcst → Nat
  | .reg _ => 1
  | .mem x => 1 + x.length
  | .bcst x => 1 + x.length

/-- The bytes of a legacy form up to and with its opcode. -/
def LegacyHead.length (h : LegacyHead) : Nat := h.prefixes.length + (if h.rex.isSome then 1 else 0) + 2

/-- The bytes of a VEX form up to and with its opcode. -/
def VexHead.length (h : VexHead) : Nat :=
  h.prefixes.length + (match h.spelling with | .two _ => 2 | .three .. => 3) + 1

/-- The bytes of an EVEX form up to and with its opcode. -/
def EvexHead.length (h : EvexHead) : Nat := h.prefixes.length + 5

/-- The length of an instruction (R96). -/
def Instr.length : Instr → Nat
  | .punpckhbwMm h _ rm => h.length + rm.length
  | .punpckhbwXmm h _ rm => h.length + rm.length
  | .punpckhwdMm h _ rm => h.length + rm.length
  | .punpckhwdXmm h _ rm => h.length + rm.length
  | .punpckhdqMm h _ rm => h.length + rm.length
  | .punpckhdqXmm h _ rm => h.length + rm.length
  | .punpckhqdqXmm h _ rm => h.length + rm.length
  | .vpunpckhbwVex128 h _ rm => h.length + rm.length
  | .vpunpckhwdVex128 h _ rm => h.length + rm.length
  | .vpunpckhdqVex128 h _ rm => h.length + rm.length
  | .vpunpckhqdqVex128 h _ rm => h.length + rm.length
  | .vpunpckhbwVex256 h _ rm => h.length + rm.length
  | .vpunpckhwdVex256 h _ rm => h.length + rm.length
  | .vpunpckhdqVex256 h _ rm => h.length + rm.length
  | .vpunpckhqdqVex256 h _ rm => h.length + rm.length
  | .vpunpckhbwEvex128 h _ _ rm => h.length + rm.length
  | .vpunpckhwdEvex128 h _ _ rm => h.length + rm.length
  | .vpunpckhdqEvex128 h _ rm => h.length + rm.length
  | .vpunpckhqdqEvex128 h _ rm => h.length + rm.length
  | .vpunpckhbwEvex256 h _ _ rm => h.length + rm.length
  | .vpunpckhwdEvex256 h _ _ rm => h.length + rm.length
  | .vpunpckhdqEvex256 h _ rm => h.length + rm.length
  | .vpunpckhqdqEvex256 h _ rm => h.length + rm.length
  | .vpunpckhbwEvex512 h _ _ rm => h.length + rm.length
  | .vpunpckhwdEvex512 h _ _ rm => h.length + rm.length
  | .vpunpckhdqEvex512 h _ rm => h.length + rm.length
  | .vpunpckhqdqEvex512 h _ rm => h.length + rm.length

/-! ### The encoder -/

/-- The field `mod` of a displacement (R104). -/
def Disp.mod : Disp → BitVec 2
  | .none => 0#2
  | .d8 _ => 1#2
  | .d32 _ => 2#2

/-- The bytes of a displacement (R60, R104). -/
def Disp.bytes : Disp → List Byte
  | .none => []
  | .d8 v => [v]
  | .d32 v => bytes32 v

/-- The field `mod` of a displacement of address size 16 (R107). -/
def Disp16.mod : Disp16 → BitVec 2
  | .none => 0#2
  | .d8 _ => 1#2
  | .d16 _ => 2#2

/-- The bytes of a displacement of address size 16 (R60, R107). -/
def Disp16.bytes : Disp16 → List Byte
  | .none => []
  | .d8 v => [v]
  | .d16 v => bytes16 v

/-- ModRM, SIB and displacement of a memory operand (R103 to R107). -/
def encodeMem (reg : BitVec 3) : Mem → List Byte
  | .base rm d => byte233 d.mod reg rm :: d.bytes
  | .sib scale index base d => byte233 d.mod reg 4#3 :: byte233 scale index base :: d.bytes
  | .sibNoBase scale index d => byte233 0#2 reg 4#3 :: byte233 scale index 5#3 :: bytes32 d
  | .ripRel d => byte233 0#2 reg 5#3 :: bytes32 d
  | .abs32 d => byte233 0#2 reg 5#3 :: bytes32 d
  | .base16 rm d => byte233 d.mod reg rm :: d.bytes
  | .abs16 d => byte233 0#2 reg 6#3 :: bytes16 d

/-- ModRM and what belongs to it (R103). -/
def encodeRm (reg : BitVec 3) : Rm → List Byte
  | .reg rm => [byte233 3#2 reg rm]
  | .mem x => encodeMem reg x

/-- ModRM and what belongs to it, of a row with broadcast (R117). -/
def encodeRmBcst (reg : BitVec 3) : RmBcst → List Byte
  | .reg rm => [byte233 3#2 reg rm]
  | .mem x => encodeMem reg x
  | .bcst x => encodeMem reg x

/-- The prefixes of an instruction, in order (R90). -/
def encodePrefixes (ps : List Prefix) : List Byte := ps.map Prefix.byte

/-- A legacy form (R90): prefixes, REX, `0F op`, ModRM and the rest. -/
def encodeLegacy (st : Stem) (h : LegacyHead) (reg : BitVec 3) (rm : Rm) : List Byte :=
  encodePrefixes h.prefixes ++ (h.rex.elim [] fun x => [x.byte]) ++ 0x0F#8 :: st.byte :: encodeRm reg rm

/-- The bits of a field, most significant first. -/
def bits2 (v : BitVec 2) : List Bool := [bitAt v 1, bitAt v 0]

/-- The bits of a field, most significant first. -/
def bits3 (v : BitVec 3) : List Bool := [bitAt v 2, bitAt v 1, bitAt v 0]

/-- The bits of a field, most significant first. -/
def bits4 (v : BitVec 4) : List Bool := [bitAt v 3, bitAt v 2, bitAt v 1, bitAt v 0]

/-- The VEX prefix of an instruction with length bit `l`, `pp = 01` and `mmmmm = 00001` (R110, R112). -/
def encodeVexPrefix (l : Bool) (h : VexHead) : List Byte :=
  match h.spelling with
  | .two r => [0xC5#8, packBits 8 ([!r] ++ bits4 (~~~ h.vvvv) ++ [l, false, true])]
  | .three r x b w =>
    [0xC4#8, packBits 8 [!r, !x, !b, false, false, false, false, true],
      packBits 8 ([w] ++ bits4 (~~~ h.vvvv) ++ [l, false, true])]

/-- A VEX form (R90). -/
def encodeVex (st : Stem) (l : Bool) (h : VexHead) (reg : BitVec 3) (rm : Rm) : List Byte :=
  encodePrefixes h.prefixes ++ encodeVexPrefix l h ++ st.byte :: encodeRm reg rm

/-- The EVEX prefix of an instruction with `pp = 01` and `mmm = 001` (R113, R116). -/
def encodeEvexPrefix (vl : VecLen) (h : EvexHead) (w b : Bool) : List Byte :=
  [0x62#8, packBits 8 [!h.r, !h.x, !h.b, !h.r', false, false, false, true],
    packBits 8 ([w] ++ bits4 (~~~ h.vvvv) ++ [true, false, true]),
    packBits 8 ([h.mask.z] ++ bits2 vl.field ++ [b, !h.v'] ++ bits3 h.mask.aaa)]

/-- An EVEX byte or word form (R90, R116). -/
def encodeEvexC (st : Stem) (vl : VecLen) (h : EvexHead) (w : Bool) (reg : BitVec 3) (rm : Rm) : List Byte :=
  encodePrefixes h.prefixes ++ encodeEvexPrefix vl h w false ++ st.byte :: encodeRm reg rm

/-- The bit b of a second source (R117). -/
def RmBcst.b : RmBcst → Bool
  | .bcst _ => true
  | .reg _ | .mem _ => false

/-- An EVEX doubleword or quadword form (R90, R116). -/
def encodeEvexD (st : Stem) (vl : VecLen) (h : EvexHead) (reg : BitVec 3) (rm : RmBcst) : List Byte :=
  encodePrefixes h.prefixes ++ encodeEvexPrefix vl h (st = .qdq) rm.b ++ st.byte :: encodeRmBcst reg rm

/-- The bytes of an instruction. -/
def encode : Instr → List Byte
  | .punpckhbwMm h reg rm => encodeLegacy .bw h reg rm
  | .punpckhbwXmm h reg rm => encodeLegacy .bw h reg rm
  | .punpckhwdMm h reg rm => encodeLegacy .wd h reg rm
  | .punpckhwdXmm h reg rm => encodeLegacy .wd h reg rm
  | .punpckhdqMm h reg rm => encodeLegacy .dq h reg rm
  | .punpckhdqXmm h reg rm => encodeLegacy .dq h reg rm
  | .punpckhqdqXmm h reg rm => encodeLegacy .qdq h reg rm
  | .vpunpckhbwVex128 h reg rm => encodeVex .bw false h reg rm
  | .vpunpckhwdVex128 h reg rm => encodeVex .wd false h reg rm
  | .vpunpckhdqVex128 h reg rm => encodeVex .dq false h reg rm
  | .vpunpckhqdqVex128 h reg rm => encodeVex .qdq false h reg rm
  | .vpunpckhbwVex256 h reg rm => encodeVex .bw true h reg rm
  | .vpunpckhwdVex256 h reg rm => encodeVex .wd true h reg rm
  | .vpunpckhdqVex256 h reg rm => encodeVex .dq true h reg rm
  | .vpunpckhqdqVex256 h reg rm => encodeVex .qdq true h reg rm
  | .vpunpckhbwEvex128 h w reg rm => encodeEvexC .bw .v128 h w reg rm
  | .vpunpckhwdEvex128 h w reg rm => encodeEvexC .wd .v128 h w reg rm
  | .vpunpckhdqEvex128 h reg rm => encodeEvexD .dq .v128 h reg rm
  | .vpunpckhqdqEvex128 h reg rm => encodeEvexD .qdq .v128 h reg rm
  | .vpunpckhbwEvex256 h w reg rm => encodeEvexC .bw .v256 h w reg rm
  | .vpunpckhwdEvex256 h w reg rm => encodeEvexC .wd .v256 h w reg rm
  | .vpunpckhdqEvex256 h reg rm => encodeEvexD .dq .v256 h reg rm
  | .vpunpckhqdqEvex256 h reg rm => encodeEvexD .qdq .v256 h reg rm
  | .vpunpckhbwEvex512 h w reg rm => encodeEvexC .bw .v512 h w reg rm
  | .vpunpckhwdEvex512 h w reg rm => encodeEvexC .wd .v512 h w reg rm
  | .vpunpckhdqEvex512 h reg rm => encodeEvexD .dq .v512 h reg rm
  | .vpunpckhqdqEvex512 h reg rm => encodeEvexD .qdq .v512 h reg rm

/-! ### The host's table words -/

/-- The `n` bytes of a number, its most significant byte first: the table's numbering ("first byte most significant", R124). -/
def bytesMsbFirst (w : Nat) : Nat → List Byte
  | 0 => []
  | n + 1 => BitVec.ofNat 8 (w / 256 ^ n) :: bytesMsbFirst w n

/-- The longest instruction (R96). -/
def maxLength : Nat := 15

/-- The bytes of a table word of `nbits` bits, then zeros up to the longest instruction (log entry 12). -/
def tableBytes (nbits w : Nat) : List Byte :=
  (bytesMsbFirst w ((nbits + 7) / 8) ++ List.replicate maxLength 0#8).take maxLength

/-- The instruction a decoder answer holds. -/
def DecodeResult.instr : DecodeResult → Option Instr
  | .ok i _ => some i
  | .more | .ud _ | .refuse _ => none

/-- The decoder needs no further byte. -/
def DecodeResult.decided : DecodeResult → Bool
  | .ok _ _ | .ud _ | .refuse _ => true
  | .more => false

/-- The bytes a table word stands for: in the table's numbering, or, where those are none of the 27 forms, with the first byte
least significant (log entry 12). -/
def tableWordBytes (nbits w : Nat) : List Byte :=
  let msb := tableBytes nbits w
  let n := (nbits + 7) / 8
  let lsb := ((bytesMsbFirst w n).reverse ++ List.replicate maxLength 0#8).take maxLength
  match (decode .long64 msb).instr, (decode .long64 lsb).instr with
  | none, some _ => lsb
  | _, _ => msb

/-- The instruction the decoder reads from a table word, in 64-bit mode (log entry 12). -/
def decodeTableWord (nbits w : Nat) : Option Instr :=
  (decode .long64 (tableWordBytes nbits w)).instr

end Sys2Proof
end

