-- ==== Sys2Proof/WellFormed.lean ====
section
/-! DEFINITION. The instructions an encoding can express, mode by mode: each check names the rule it comes from. -/

namespace Sys2Proof

/-- R104: without a displacement `rm = 101` is another form, and `rm = 100` always is (SIB). -/
def Disp.fitsBase (d : Disp) (rm : BitVec 3) : Bool := rm != 4#3 && (d != .none || rm != 5#3)

/-- R104 to R108: the form of a memory operand belongs to the address size, and its fields to the form. -/
def Mem.wf (m : Mode) (ps : List Prefix) : Mem → Bool
  | .base rm d => addressSize m ps != .a16 && d.fitsBase rm
  | .sib _ _ b d => addressSize m ps != .a16 && (d != .none || b != 5#3)
  | .sibNoBase _ _ _ => addressSize m ps != .a16
  | .ripRel _ => m == .long64
  | .abs32 _ => addressSize m ps == .a32 && m != .long64
  | .base16 rm d => addressSize m ps == .a16 && (d != .none || rm != 6#3)
  | .abs16 _ => addressSize m ps == .a16

/-- R103. -/
def Rm.wf (m : Mode) (ps : List Prefix) : Rm → Bool
  | .reg _ => true
  | .mem x => x.wf m ps

/-- R103, R117. -/
def RmBcst.wf (m : Mode) (ps : List Prefix) : RmBcst → Bool
  | .reg _ => true
  | .mem x => x.wf m ps
  | .bcst x => x.wf m ps

/-- R98 to R100: no LOCK, F2 or F3; 66 exactly on the 128-bit forms; REX in 64-bit mode only. -/
def LegacyHead.wf (m : Mode) (with66 : Bool) (h : LegacyHead) : Bool :=
  h.prefixes.all Prefix.plain && h.prefixes.contains .opSize == with66 && (h.rex.isNone || m == .long64)

/-- Outside 64-bit mode the VEX bits R, X, B are 0 (R111, D12). -/
def VexSpelling.lowRegisters : VexSpelling → Bool
  | .two r => !r
  | .three r x b _ => !r && !x && !b

/-- R111, D12: only segment and 67 prefixes; not in `Real` or `V86`; outside 64-bit mode registers 0 to 7 only. -/
def VexHead.wf (m : Mode) (h : VexHead) : Bool :=
  h.prefixes.all Prefix.plain && !h.prefixes.contains .opSize && !m.realOrV86 &&
    (m == .long64 || (h.spelling.lowRegisters && !bitAt h.vvvv 3))

/-- R113, R116: `aaa = 000` means no writemask. -/
def Mask.wf : Mask → Bool
  | .none => true
  | .merging k => k != 0#3
  | .zeroing k => k != 0#3

/-- R115, R116, D12: as VEX, and the writemask register is not 0. -/
def EvexHead.wf (m : Mode) (h : EvexHead) : Bool :=
  h.prefixes.all Prefix.plain && !h.prefixes.contains .opSize && !m.realOrV86 && h.mask.wf &&
    (m == .long64 || (!h.r && !h.x && !h.aboveSeven))

/-- R96: at most 15 bytes. -/
def Instr.fits (i : Instr) : Bool := i.length ≤ maxLength

/-- The fields of an instruction are such as its encoding in the mode `m` can hold. -/
def Instr.fieldsWf (m : Mode) : Instr → Bool
  | .punpckhbwMm h _ rm => h.wf m false && rm.wf m h.prefixes
  | .punpckhbwXmm h _ rm => h.wf m true && rm.wf m h.prefixes
  | .punpckhwdMm h _ rm => h.wf m false && rm.wf m h.prefixes
  | .punpckhwdXmm h _ rm => h.wf m true && rm.wf m h.prefixes
  | .punpckhdqMm h _ rm => h.wf m false && rm.wf m h.prefixes
  | .punpckhdqXmm h _ rm => h.wf m true && rm.wf m h.prefixes
  | .punpckhqdqXmm h _ rm => h.wf m true && rm.wf m h.prefixes
  | .vpunpckhbwVex128 h _ rm => h.wf m && rm.wf m h.prefixes
  | .vpunpckhwdVex128 h _ rm => h.wf m && rm.wf m h.prefixes
  | .vpunpckhdqVex128 h _ rm => h.wf m && rm.wf m h.prefixes
  | .vpunpckhqdqVex128 h _ rm => h.wf m && rm.wf m h.prefixes
  | .vpunpckhbwVex256 h _ rm => h.wf m && rm.wf m h.prefixes
  | .vpunpckhwdVex256 h _ rm => h.wf m && rm.wf m h.prefixes
  | .vpunpckhdqVex256 h _ rm => h.wf m && rm.wf m h.prefixes
  | .vpunpckhqdqVex256 h _ rm => h.wf m && rm.wf m h.prefixes
  | .vpunpckhbwEvex128 h _ _ rm => h.wf m && rm.wf m h.prefixes
  | .vpunpckhwdEvex128 h _ _ rm => h.wf m && rm.wf m h.prefixes
  | .vpunpckhdqEvex128 h _ rm => h.wf m && rm.wf m h.prefixes
  | .vpunpckhqdqEvex128 h _ rm => h.wf m && rm.wf m h.prefixes
  | .vpunpckhbwEvex256 h _ _ rm => h.wf m && rm.wf m h.prefixes
  | .vpunpckhwdEvex256 h _ _ rm => h.wf m && rm.wf m h.prefixes
  | .vpunpckhdqEvex256 h _ rm => h.wf m && rm.wf m h.prefixes
  | .vpunpckhqdqEvex256 h _ rm => h.wf m && rm.wf m h.prefixes
  | .vpunpckhbwEvex512 h _ _ rm => h.wf m && rm.wf m h.prefixes
  | .vpunpckhwdEvex512 h _ _ rm => h.wf m && rm.wf m h.prefixes
  | .vpunpckhdqEvex512 h _ rm => h.wf m && rm.wf m h.prefixes
  | .vpunpckhqdqEvex512 h _ rm => h.wf m && rm.wf m h.prefixes

/-- A well-formed instruction of the mode `m`: the decoder can answer it in that mode. -/
def Instr.wf (m : Mode) (i : Instr) : Bool := i.fieldsWf m && i.fits

/-- The consistency constraints of R6, a premise a claim about a configuration may take. -/
def Config.wf (c : Config) : Bool :=
  (!c.feat.avx2 || c.feat.avx) && (!c.feat.avx512bw || c.feat.avx512f) && (!c.feat.avx512vl || c.feat.avx512f) &&
    (!c.feat.avx512f || c.feat.avx2) && (!c.feat.avx || c.feat.sse2) &&
    c.maxvl == (if c.feat.avx512f then .v512 else if c.feat.avx then .v256 else .v128) &&
    c.kw == (if c.feat.avx512bw then .k64 else .k16)

end Sys2Proof
end

