-- ==== Sys2Proof/Machine/State.lean ====
section
/-! DEFINITION. The state of the machine: every piece of state 10_state.md and 70_reset_and_hazards.md name, as plain data, with
the reasons a step can stop and the state after reset (R260). -/

namespace Sys2Proof.Machine

/-- A segment register with its hidden descriptor (R32, R260). The spec fixes no format; these are the fields its rules read or
R260 gives (log entry 16). -/
structure SegReg where
  selector : BitVec 16
  base : Word
  limit : BitVec 32
  /-- Present. -/
  present : Bool
  /-- Not loaded with a null selector (R66: "non-null"). -/
  nonNull : Bool
  readable : Bool
  writable : Bool
  accessed : Bool
  /-- The bit L of a code segment (R32). -/
  l : Bool
  /-- The bit D of a code segment (R32). -/
  d : Bool
  deriving DecidableEq, Repr

/-- The state. -/
structure State where
  /-- `cfg` (R6): fixed for the machine; no instruction changes it. -/
  cfg : Config
  /-- `GPR[0..15]` (R21). -/
  gpr : Vector Word 16
  /-- `RIP` (R22). -/
  rip : Word
  /-- `RFLAGS` (R25). -/
  rflags : Word
  /-- `ZMM[0..31]` (R26); the bits at and above `cfg.MAXVL` do not exist and are held as 0 (log entry 14). -/
  zmm : Vector Vec512 32
  /-- `K[0..7]` (R28); the bits at and above `cfg.KW` do not exist and are held as 0 (log entry 14). -/
  k : Vector Word 8
  /-- `ST_phys[0..7]`, the 80-bit x87 data registers; `MM[i]` is bits 63:0 of the `i`-th (R29, R30). -/
  st : Vector (BitVec 80) 8
  /-- The x87 tag marks: true is non-empty (R30). -/
  tags : Vector Bool 8
  /-- The x87 status word `FSW`, with `TOP` in bits 13:11 and `ES` in bit 7 (R30). -/
  fsw : BitVec 16
  /-- The x87 control word (R260). -/
  fcw : BitVec 16
  /-- `MXCSR` (R25, R260). -/
  mxcsr : BitVec 32
  /-- `CR0` (R31). -/
  cr0 : Word
  /-- `CR2` (R31). -/
  cr2 : Word
  /-- `CR3` (R260). -/
  cr3 : Word
  /-- `CR4` (R31). -/
  cr4 : Word
  /-- `XCR0` (R31). -/
  xcr0 : Word
  /-- `IA32_EFER` (R31). -/
  efer : Word
  /-- The segment registers ES, CS, SS, DS, FS, GS (R32). -/
  es : SegReg
  cs : SegReg
  ss : SegReg
  ds : SegReg
  fs : SegReg
  gs : SegReg
  /-- The current privilege level `CPL` (R32, R229). -/
  cpl : BitVec 2
  /-- The debug registers (R260). -/
  dr0 : Word
  dr1 : Word
  dr2 : Word
  dr3 : Word
  dr6 : Word
  dr7 : Word
  /-- Memory by linear address (R10, R33): the bytes that differ from what an unlisted address reads as. -/
  mem : List Host.Cell
  deriving DecidableEq, Repr

/-- A fault, the terminal outcome of R226 (D13): the exception of R210, its error code if it has one, and the state the run
ends in, which is the state before the instruction but for `CR2` on a page fault (R225). Delivery of the exception is outside
the spec's scope (R5), so stopping here is safe. -/
inductive Fault where
  /-- `#UD`, vector 6: raised by the decoder (R211) and by every form's entry checks (R212 to R214). Safe. -/
  | ud (final : State)
  /-- `#NM`, vector 7: raised by every form's entry checks (R215). Safe. -/
  | nm (final : State)
  /-- `#SS`, vector 12: raised by a memory source through SS (R217). Safe. -/
  | ss (code : Option (BitVec 32)) (final : State)
  /-- `#GP`, vector 13: raised by a memory source (R218a, b), by the length limit (R218c) and by the fetch (R218d). Safe. -/
  | gp (code : Option (BitVec 32)) (final : State)
  /-- `#PF`, vector 14: raised by a memory source and by the fetch (R220); the address stands in `CR2` of `final`. Safe. -/
  | pf (code : BitVec 32) (final : State)
  /-- `#MF`, vector 16: raised by the MMX forms (R216). Safe. -/
  | mf (final : State)
  /-- `#AC`, vector 17: raised by the memory sources of the MMX forms and by broadcasts (R221). Safe. -/
  | ac (code : Option (BitVec 32)) (final : State)
  deriving DecidableEq, Repr

/-- A refusal, the outcome of R226 where "the spec does not say what the hardware does". All are safe: the model stops. -/
inductive Refusal where
  /-- Raised by an arm of `exec` whose instruction has no meaning yet. Safe. -/
  | notModelled (mnemonic : String)
  /-- Raised by the step: the bytes at RIP are not one of the 27 forms (R97, D1). Safe. -/
  | notInScope
  /-- Raised by the step: F2 or F3 with a legacy form (R98, D11). Safe. -/
  | repOnLegacy
  /-- Raised by the step: a REX prefix followed by a legacy prefix (R97, D11). Safe. -/
  | rexNotLast
  /-- Raised by the step: a VEX or EVEX form outside 64-bit mode naming a register above 7 (R111, R115, D12). Safe. -/
  | registerAboveSeven
  /-- Raised by the MMX forms: an x87 error pending with `CR0.NE = 0` (R216, D20). Safe. -/
  | externalX87Error
  /-- Raised by a memory source in a region the platform declares side-effecting (R71). Safe. -/
  | sideEffectingRegion
  /-- Raised by the step: `RFLAGS.TF = 1` or an armed debug register (R223, R233, D15, D29). Safe. -/
  | outsideModel
  deriving DecidableEq, Repr

/-- The segment registers other than CS at reset (R260). -/
def SegReg.resetData : SegReg where
  selector := 0#16
  base := 0#64
  limit := 0xFFFF#32
  present := true
  nonNull := true
  readable := true
  writable := true
  accessed := true
  l := false
  d := false

/-- CS at reset (R260). -/
def SegReg.resetCode : SegReg where
  selector := 0xF000#16
  base := 0xFFFF0000#64
  limit := 0xFFFF#32
  present := true
  nonNull := true
  readable := true
  writable := false
  accessed := true
  l := false
  d := false

/-- RDX at reset: a signature `000n06xxH` that the processor defines (R260, U18); the value is the model's (log entry 2). -/
def resetSignature : Word := 0x00000600#64

/-- The machine after power-up or RESET (R260, R261). RAX is 0, as R260 gives it where the built-in self-test passed or was not run
(DESIGN CHOICE: log entry 29). -/
def State.reset : State where
  cfg := Config.allFeatures
  gpr := #v[0#64, 0#64, resetSignature, 0#64, 0#64, 0#64, 0#64, 0#64,
    0#64, 0#64, 0#64, 0#64, 0#64, 0#64, 0#64, 0#64]
  rip := 0xFFF0#64
  rflags := 0x2#64
  zmm := Vector.replicate 32 0#512
  k := Vector.replicate 8 0#64
  st := Vector.replicate 8 0#80
  tags := Vector.replicate 8 true
  fsw := 0x0000#16
  fcw := 0x0040#16
  mxcsr := 0x1F80#32
  cr0 := 0x60000010#64
  cr2 := 0#64
  cr3 := 0#64
  cr4 := 0#64
  xcr0 := 1#64
  efer := 0#64
  es := SegReg.resetData
  cs := SegReg.resetCode
  ss := SegReg.resetData
  ds := SegReg.resetData
  fs := SegReg.resetData
  gs := SegReg.resetData
  cpl := 0#2
  dr0 := 0#64
  dr1 := 0#64
  dr2 := 0#64
  dr3 := 0#64
  dr6 := 0xFFFF0FF0#64
  dr7 := 0x00000400#64
  mem := []

end Sys2Proof.Machine
end

