-- ==== Sys2Proof/Machine/Flags.lean ====
section
/-! DEFINITION. The status and control bits the rules read (R25, R30, R31), the operating mode (R32), the features (R2), and the
vector length and opmask width of the configuration (R6). No instruction writes a flag or a control bit (R25, R31). -/

namespace Sys2Proof.Machine

/-! ### RFLAGS -/

/-- `RFLAGS.TF` (R223); the bit number is PRESUMED (log entry 6). -/
def State.tf (s : State) : Bool := bitAt s.rflags 8

/-- `RFLAGS.VM` (R25). -/
def State.vm (s : State) : Bool := bitAt s.rflags 17

/-- `RFLAGS.AC` (R25). -/
def State.acFlag (s : State) : Bool := bitAt s.rflags 18

/-! ### CR0, CR4, XCR0, IA32_EFER (R31) -/

/-- `CR0.PE`. -/
def State.pe (s : State) : Bool := bitAt s.cr0 0

/-- `CR0.EM`. -/
def State.em (s : State) : Bool := bitAt s.cr0 2

/-- `CR0.TS`. -/
def State.ts (s : State) : Bool := bitAt s.cr0 3

/-- `CR0.NE`. -/
def State.ne (s : State) : Bool := bitAt s.cr0 5

/-- `CR0.AM`. -/
def State.am (s : State) : Bool := bitAt s.cr0 18

/-- `CR0.PG` (R260); the bit number is PRESUMED (log entry 6). -/
def State.pg (s : State) : Bool := bitAt s.cr0 31

/-- `CR4.OSFXSR`. -/
def State.osfxsr (s : State) : Bool := bitAt s.cr4 9

/-- `CR4.OSXSAVE`. -/
def State.osxsave (s : State) : Bool := bitAt s.cr4 18

/-- `XCR0[2:1] = 11` (R213). -/
def State.avxEnabled (s : State) : Bool := s.xcr0.extractLsb' 1 2 == 0x3#2

/-- `XCR0[7:5] = 111` (R213). -/
def State.avx512Enabled (s : State) : Bool := s.xcr0.extractLsb' 5 3 == 0x7#3

/-- `IA32_EFER.LMA` (R31), on a processor that has 64-bit mode (R6, R32; log entry 21). -/
def State.lma (s : State) : Bool := s.cfg.has64 && bitAt s.efer 10

/-! ### FSW (R30) -/

/-- `FSW.ES`. -/
def State.es87 (s : State) : Bool := bitAt s.fsw 7

/-- `TOP`. -/
def State.top (s : State) : BitVec 3 := s.fsw.extractLsb' 11 3

/-! ### Debug registers -/

/-- A breakpoint is armed (R233): an enable bit of DR7 is 1; the bit numbers are PRESUMED (log entry 6). -/
def State.armed (s : State) : Bool := s.dr7.extractLsb' 0 8 != 0#8

/-- The state is one the model speaks of: no single step, no armed breakpoint (R223, R233). -/
def State.insideModel (s : State) : Bool := !s.tf && !s.armed

/-! ### Mode and privilege -/

/-- The operating mode (R32). -/
def State.mode (s : State) : Mode :=
  if s.pe = false then .real
  else if s.vm then .v86
  else if s.lma && s.cs.l then .long64
  else if s.cs.d then .prot32
  else .prot16

/-- The current privilege level: 0 in `Real`, 3 in `V86` (R219), the field elsewhere (log entry 11). -/
def State.currentCpl (s : State) : BitVec 2 :=
  match s.mode with
  | .real => 0#2
  | .v86 => 3#2
  | .prot16 | .prot32 | .long64 => s.cpl

/-- `ac_on` (R65). -/
def State.acOn (s : State) : Bool := s.am && s.acFlag && s.currentCpl == 3#2

/-- Paging is on (R66): never in `Real` (R219). -/
def State.pagingOn (s : State) : Bool := s.pg && s.pe

/-! ### Configuration -/

/-- `cfg.feat` (R6). -/
def hasFeature (c : Config) : Feature → Bool
  | .mmx => c.feat.mmx
  | .sse2 => c.feat.sse2
  | .avx => c.feat.avx
  | .avx2 => c.feat.avx2
  | .avx512f => c.feat.avx512f
  | .avx512bw => c.feat.avx512bw
  | .avx512vl => c.feat.avx512vl

/-- The number of bits of a vector length (R6). -/
def vecBits : VecLen → Nat
  | .v128 => 128
  | .v256 => 256
  | .v512 => 512

/-- The number of bits of an opmask register (R6). -/
def maskBits : MaskWidth → Nat
  | .k16 => 16
  | .k64 => 64

end Sys2Proof.Machine
end

