-- ==== Sys2Proof/Machine/Bits.lean ====
section
/-! DEFINITION. Elements of a value (R8), a value built from its elements, and slices (R7). -/

namespace Sys2Proof.Machine

/-- `elem(v, w, i) = v[w*i+w-1 : w*i]` (R8). -/
def elem {n : Nat} (v : BitVec n) (w i : Nat) : BitVec w := v.extractLsb' (w * i) w

/-- The `L`-bit value whose elements `0 .. n-1` of width `w` are `f 0 .. f (n-1)` and whose other bits are 0. -/
def ofElems (L w : Nat) (f : Nat → BitVec w) : Nat → BitVec L
  | 0 => 0#L
  | n + 1 => ofElems L w f n ||| ((f n).setWidth L <<< (w * n))

/-- The low `n` bits of a value, in place. -/
def lowBits {L : Nat} (n : Nat) (v : BitVec L) : BitVec L := (v.setWidth n).setWidth L

end Sys2Proof.Machine
end

