-- ==== Sys2Proof/Machine/Unpack.lean ====
section
/-! DEFINITION. The interleave functions of every form (R140, R141), the writemask (R181) and the broadcast (R182). -/

namespace Sys2Proof.Machine

/-- `IH(w, L, X, Y)`: interleave the high halves of `X` and `Y` by elements of `w` bits (R140). -/
def interleaveHigh (w L : Nat) (x y : BitVec L) : BitVec L :=
  ofElems L w (fun i => if i % 2 = 0 then elem x w (L / w / 2 + i / 2) else elem y w (L / w / 2 + i / 2)) (L / w)

/-- `UNPCKH(w, VL, X, Y)`: `IH` on each 128-bit lane (R141). -/
def unpackHigh (w vl : Nat) (x y : BitVec vl) : BitVec vl :=
  ofElems vl 128 (fun l => interleaveHigh w 128 (elem x 128 l) (elem y 128 l)) (vl / 128)

/-- `Mask(w, VL, T, D)` with the mask bits `k` and the choice of zeroing `z` (R181), for `aaa` other than 0. -/
def applyMask (w vl : Nat) (k : Word) (z : Bool) (t d : BitVec vl) : BitVec vl :=
  ofElems vl w (fun j => if bitAt k j then elem t w j else if z then 0#w else elem d w j) (vl / w)

/-- The vector every one of whose `VL/w` elements is `m` (R182). -/
def broadcast (w vl : Nat) (m : BitVec w) : BitVec vl := ofElems vl w (fun _ => m) (vl / w)

end Sys2Proof.Machine
end

