-- ==== Sys2Proof/Machine/Ops.lean ====
section
/-! DEFINITION. The named operations over memory, registers, exceptions and translation. -/

namespace Sys2Proof.Machine

/-! ### Memory (R10, R33, R60) -/

/-- What an address reads as that memory does not list (DESIGN CHOICE, unsafe: log entry 3). -/
def Memory.unlisted : Byte := 0#8

/-- The byte at a linear address. -/
def Memory.read : List Host.Cell → Nat → Byte
  | [], _ => Memory.unlisted
  | (a, v) :: m, b => if a = b then v else Memory.read m b

/-- Memory with the byte at an address replaced, in canonical form: `MemWrite` of one byte (R10), which no instruction uses. -/
def Memory.write : List Host.Cell → Nat → Byte → List Host.Cell
  | [], b, v => if v = Memory.unlisted then [] else [(b, v)]
  | (a, u) :: m, b, v =>
    if b < a then (if v = Memory.unlisted then (a, u) :: m else (b, v) :: (a, u) :: m)
    else if a = b then (if v = Memory.unlisted then m else (b, v) :: m)
    else (a, u) :: Memory.write m b v

/-- The bytes of a list stored at consecutive addresses. -/
def Memory.writeBytes (m : List Host.Cell) (a : Nat) : List Byte → List Host.Cell
  | [] => m
  | v :: vs => Memory.writeBytes (Memory.write m a v) (a + 1) vs

/-- Every address of the list is above `a`. -/
def Memory.above (a : Nat) (m : List Host.Cell) : Bool := m.all fun c => a < c.1

/-- The canonical form: addresses below `2^64` and strictly rising, and no entry equal to what an unlisted address reads as. -/
def Memory.wf : List Host.Cell → Bool
  | [] => true
  | (a, v) :: m => decide (a < 2 ^ 64) && v != Memory.unlisted && Memory.above a m && Memory.wf m

/-- The linear address `k` bytes after `la`: modulo `2^64` in 64-bit mode and `2^32` elsewhere (R66; log entry 9). -/
def State.linAdd (s : State) (la : Word) (k : Nat) : Word :=
  if s.mode = .long64 then la + BitVec.ofNat 64 k else lowBits 32 (la + BitVec.ofNat 64 k)

/-- The byte at a linear address. -/
def State.byteAt (s : State) (la : Word) : Byte := Memory.read s.mem la.toNat

/-- `MemRead(la, n)` (R10, R60) for `n = L/8`: the value whose bits `8k+7:8k` are the byte at `la+k`. -/
def State.memRead (s : State) (L : Nat) (la : Word) : BitVec L :=
  ofElems L 8 (fun k => s.byteAt (s.linAdd la k)) (L / 8)

/-! ### Registers -/

/-- A general register (R21). -/
def State.readGpr (s : State) (r : BitVec 4) : Word := s.gpr[r.toNat]

/-- `ZMM[r][VL-1:0]` (R26). -/
def State.readVec (s : State) (vl : Nat) (r : BitVec 5) : BitVec vl := s.zmm[r.toNat].setWidth vl

/-- An opmask register: the bits the processor implements (R28). -/
def State.readMask (s : State) (r : BitVec 3) : Word := lowBits (maskBits s.cfg.kw) s.k[r.toNat]

/-- `MM[r]`, bits 63:0 of the x87 register `r` (R29). -/
def State.readMm (s : State) (r : BitVec 3) : Word := s.st[r.toNat].setWidth 64

/-- `ZMM[r] <- zext_MAXVL(v)` (R160, R180): bits from the value's length up to `MAXVL` become 0, and none above is kept. -/
def State.setVec {vl : Nat} (s : State) (r : BitVec 5) (v : BitVec vl) : State :=
  { s with zmm := s.zmm.set r.toNat (lowBits (vecBits s.cfg.maxvl) (v.setWidth 512)) }

/-- `XMM[r] <- v`: bits `MAXVL-1:128` are not written (R144). -/
def State.setXmm (s : State) (r : BitVec 5) (v : BitVec 128) : State :=
  { s with zmm := s.zmm.set r.toNat (s.zmm[r.toNat].extractLsb' 128 384 ++ v) }

/-- `MM[r] <- v` with the x87 side effects of R30: bits 79:64 of the register become ones, `TOP` becomes 0, and every tag mark
becomes non-empty. -/
def State.setMm (s : State) (r : BitVec 3) (v : Word) : State :=
  { s with
    st := s.st.set r.toNat (0xFFFF#16 ++ v)
    fsw := s.fsw &&& 0xC7FF#16
    tags := Vector.replicate 8 true }

/-- `RIP + len`, modulo `2^64` in 64-bit mode and `2^32` elsewhere (R23). -/
def State.nextRip (s : State) (len : Nat) : Word :=
  if s.mode = .long64 then s.rip + BitVec.ofNat 64 len else lowBits 32 (s.rip + BitVec.ofNat 64 len)

/-- `RIP <- RIP + len` (R23). -/
def State.advance (s : State) (len : Nat) : State := { s with rip := s.nextRip len }

/-- A segment register (R32). -/
def State.seg (s : State) : Seg → SegReg
  | .es => s.es
  | .cs => s.cs
  | .ss => s.ss
  | .ds => s.ds
  | .fs => s.fs
  | .gs => s.gs

/-! ### Exceptions (R210, R225, R226) -/

/-- A synchronous exception with what it carries (R210). -/
inductive Exn where
  | ud | nm | ss | gp
  | pf (code : BitVec 32) (address : Word)
  | mf | ac
  deriving DecidableEq, Repr

/-- The error code 0, which `Real` mode does not report (R219). -/
def State.zeroCode (s : State) : Option (BitVec 32) := if s.mode = .real then none else some 0#32

/-- Taking an exception: the run ends in the state before the instruction, with the faulting address in `CR2` on `#PF`
(R225, R226, R266). The spec leaves delivery, and the return from it, out of scope (R5, R227). -/
def raise (x : Exn) (s : State) : Fault :=
  match x with
  | .ud => .ud s
  | .nm => .nm s
  | .ss => .ss s.zeroCode s
  | .gp => .gp s.zeroCode s
  | .pf code a => .pf code { s with cr2 := a }
  | .mf => .mf s
  | .ac => .ac (some 0#32) s

/-- The vector number (R210). -/
def Fault.vector : Fault → Nat
  | .ud _ => 6
  | .nm _ => 7
  | .ss _ _ => 12
  | .gp _ _ => 13
  | .pf _ _ => 14
  | .mf _ => 16
  | .ac _ _ => 17

/-- The error code, if the exception has one (R210, R219). -/
def Fault.code : Fault → Option (BitVec 32)
  | .ud _ => none
  | .nm _ => none
  | .ss c _ => c
  | .gp c _ => c
  | .pf c _ => some c
  | .mf _ => none
  | .ac c _ => c

/-- The state the run ends in (R266). -/
def Fault.final : Fault → State
  | .ud s => s
  | .nm s => s
  | .ss _ s => s
  | .gp _ s => s
  | .pf _ s => s
  | .mf s => s
  | .ac _ s => s

/-- Why an instruction does not complete. -/
inductive Stop where
  | fault (f : Fault)
  | refused (r : Refusal)
  deriving DecidableEq, Repr

/-- The outcome of an instruction that stops. -/
def Stop.outcome : Stop → Host.Outcome State Fault Refusal
  | .fault f => .fault f
  | .refused r => .refused r

/-! ### Entry checks (R212 to R216, in the order of R222) -/

/-- The four groups of forms the checks tell apart (R213). -/
inductive FormClass where
  | mmx | sse | vex | evex
  deriving DecidableEq, Repr

/-- `#UD` by mode (R212). -/
def udByMode (c : FormClass) (s : State) : Bool :=
  match c with
  | .mmx | .sse => false
  | .vex | .evex => s.mode.realOrV86

/-- `#UD` by control-register state (R213). -/
def udByControl (c : FormClass) (s : State) : Bool :=
  match c with
  | .mmx => s.em
  | .sse => s.em || !s.osfxsr
  | .vex => !s.osxsave || !s.avxEnabled
  | .evex => !s.osxsave || !s.avxEnabled || !s.avx512Enabled

/-- `#UD` by feature (R214): one of the row's flags is 0, or, for an EVEX form, `MAXVL` is less than 512 (R27, R180). -/
def udByFeature (c : FormClass) (fs : List Feature) (s : State) : Bool :=
  !(fs.all (hasFeature s.cfg)) || (c == .evex && s.cfg.maxvl != .v512)

/-- The first of `#UD`, `#NM` and, for the MMX forms, `#MF` that applies (R222 steps 2 to 4); an MMX form with an x87 error
pending and `CR0.NE = 0` is refused (R216, D20). -/
def entryStop (c : FormClass) (fs : List Feature) (s : State) : Option Stop :=
  if udByMode c s || udByControl c s || udByFeature c fs s then some (.fault (raise .ud s))
  else if s.ts then some (.fault (raise .nm s))
  else if c == .mmx && s.es87 then
    (if s.ne then some (.fault (raise .mf s)) else some (.refused .externalX87Error))
  else none

/-! ### Translation (R66) -/

/-- The kind of an access (R66, R75). -/
inductive Access where
  | dataRead | fetch
  deriving DecidableEq, Repr

/-- What `cfg.Translate` answers (R66). -/
inductive Xlate where
  | ok (la : Word)
  | ss
  | gp
  | pf (code : BitVec 32) (address la : Word)
  deriving DecidableEq, Repr

/-- The linear address of an offset in a segment (R66). -/
def State.linear (s : State) (r : Seg) (ea : Word) : Word :=
  if s.mode = .long64 then
    match r with
    | .fs => s.fs.base + ea
    | .gs => s.gs.base + ea
    | .es | .cs | .ss | .ds => ea
  else lowBits 32 ((s.seg r).base + ea)

/-- A linear address whose bits from the top one of the linear width up are all equal (R66). -/
def canonical (width : Nat) (la : Word) : Bool := (la.setWidth width).signExtend 64 == la

/-- The last offset of a segment: its limit, or `FFFFH` in `Real` and `V86` (R66). -/
def State.lastOffset (s : State) (r : Seg) : Nat :=
  match s.mode with
  | .real | .v86 => 0xFFFF
  | .prot16 | .prot32 | .long64 => (s.seg r).limit.toNat

/-- The segment and canonical checks of an access of `n` bytes (R66, R218). A fetch outside 64-bit mode is checked against the limit
only: that CS need not be readable and non-null for it is the model's choice, after R218 (d) and against the letter of R66, which
names no kind of access (DEDUCED: log entry 28). -/
def State.segmentOk (s : State) (r : Seg) (ea : Word) (n : Nat) (acc : Access) : Bool :=
  if s.mode = .long64 then (List.range n).all fun k => canonical s.cfg.linearBits (s.linAdd (s.linear r ea) k)
  else (acc == .fetch || ((s.seg r).readable && (s.seg r).nonNull)) && decide (ea.toNat + n ≤ s.lastOffset r + 1)

/-- The page of a linear address: 4096 bytes (log entry 5). -/
def State.pageOf (s : State) (la : Word) : Page :=
  (s.cfg.pages.entries.lookup (la.toNat / 4096)).getD s.cfg.pages.other

/-- A page allows an access at the current privilege level (R66). -/
def pageAllows (p : Page) (acc : Access) (user : Bool) : Bool :=
  p.present && match acc, user with
    | .dataRead, false => p.supRead
    | .dataRead, true => p.userRead
    | .fetch, false => p.supExec
    | .fetch, true => p.userExec

/-- The page-fault error code (R66, R220). -/
def State.pageCode (s : State) (p : Page) (acc : Access) : BitVec 32 :=
  (p.codeRest &&& 0xFFFFFFE8#32)
    ||| (if p.present then 0x1#32 else 0#32)
    ||| (if s.currentCpl = 3#2 then 0x4#32 else 0#32)
    ||| (if acc = .fetch ∧ s.cfg.pages.reportsFetch = true then 0x10#32 else 0#32)

/-- The page check of one byte (R66): the error code if it fails. -/
def State.pageFault (s : State) (acc : Access) (la : Word) : Option (BitVec 32) :=
  if s.pagingOn && !pageAllows (s.pageOf la) acc (s.currentCpl == 3#2) then some (s.pageCode (s.pageOf la) acc) else none

/-- The failing byte of an access of `n` bytes that has the lowest linear address, with its error code (R66, R67). It is the first
failing byte, but where the access wraps past the top of the linear space (log entry 26). -/
def State.lowestPageFault (s : State) (acc : Access) (la : Word) : Nat → Option (BitVec 32 × Word)
  | 0 => none
  | n + 1 =>
    match s.pageFault acc (s.linAdd la n), State.lowestPageFault s acc la n with
    | none, r => r
    | some c, none => some (c, s.linAdd la n)
    | some c, some (c', a) => if a ≤ s.linAdd la n then some (c', a) else some (c, s.linAdd la n)

/-- `cfg.Translate(state, seg, ea, n, kind)` (R66; log entry 5). -/
def State.translate (s : State) (r : Seg) (ea : Word) (n : Nat) (acc : Access) : Xlate :=
  if s.segmentOk r ea n acc then
    match s.lowestPageFault acc (s.linear r ea) n with
    | some (c, a) => .pf c a (s.linear r ea)
    | none => .ok (s.linear r ea)
  else if r = .ss then .ss
  else .gp

/-! ### The memory-source read (R68) -/

/-- The alignment rule of a memory source (R63 to R65). -/
inductive AlignRule where
  /-- Legacy 128-bit forms: 16 bytes, else `#GP(0)` (R63). -/
  | legacy128
  /-- MMX forms: 8 bytes under alignment checking, else `#AC(0)` (R65). -/
  | mmx
  /-- EVEX broadcast of an element of `n` bytes, under alignment checking, else `#AC(0)` (R65). -/
  | element (n : Nat)
  /-- VEX and EVEX full vectors: none (R64). -/
  | free
  deriving DecidableEq, Repr

/-- The alignment `#GP(0)` applies (R63). -/
def gpByAlignment (a : AlignRule) (la : Word) : Bool :=
  match a with
  | .legacy128 => la.toNat % 16 != 0
  | .mmx | .element _ | .free => false

/-- The alignment check `#AC(0)` applies (R65, R221). -/
def acByAlignment (a : AlignRule) (s : State) (la : Word) : Bool :=
  match a with
  | .mmx => s.acOn && la.toNat % 8 != 0
  | .element n => s.acOn && la.toNat % n != 0
  | .legacy128 | .free => false

/-- A byte of the operand lies in a range the platform declares side-effecting (R71). -/
def State.sideEffect (s : State) (la : Word) (n : Nat) : Bool :=
  (List.range n).any fun k => s.cfg.sideEffecting.any fun r =>
    r.1 ≤ (s.linAdd la k).toNat && (s.linAdd la k).toNat < r.1 + r.2

/-- The bytes an operand supplies: all of them, or, for a legacy 128-bit operand under `cfg.partial_fetch_m128`, bytes 8 to 15
in their place and 0 below (R69; log entry 15). -/
def State.fetchOperand (s : State) (L : Nat) (a : AlignRule) (la : Word) : BitVec L :=
  if a = .legacy128 ∧ s.cfg.partialFetch = true then (s.memRead 64 (s.linAdd la 8)).setWidth L <<< 64
  else s.memRead L la

/-- `LoadOperand(n)` with `n = L/8` (R68): the checks in the order of R67, then the read. -/
def State.loadOperand (s : State) (L : Nat) (a : AlignRule) (r : Seg) (ea : Word) : Except Stop (BitVec L) :=
  match s.translate r ea (L / 8) .dataRead with
  | .ss => .error (.fault (raise .ss s))
  | .gp => .error (.fault (raise .gp s))
  | .pf c x la => if gpByAlignment a la then .error (.fault (raise .gp s)) else .error (.fault (raise (.pf c x) s))
  | .ok la =>
    if gpByAlignment a la then .error (.fault (raise .gp s))
    else if acByAlignment a s la then .error (.fault (raise .ac s))
    else if s.sideEffect la (L / 8) then .error (.refused .sideEffectingRegion)
    else .ok (s.fetchOperand L a la)

/-! ### INIT -/

/-- The INIT signal (R260, column "after INIT"): reset, but the vector, opmask and x87 state, `MXCSR`, the bits CD and NW of CR0,
the configuration and memory are kept. No instruction and no step raises it (R223; log entry 17). -/
def State.initSignal (s : State) : State :=
  { State.reset with
    cfg := s.cfg
    zmm := s.zmm
    k := s.k
    st := s.st
    tags := s.tags
    fsw := s.fsw
    fcw := s.fcw
    mxcsr := s.mxcsr
    cr0 := (State.reset.cr0 &&& ~~~ 0x60000000#64) ||| (s.cr0 &&& 0x60000000#64)
    mem := s.mem }

end Sys2Proof.Machine
end

