-- ==== Sys2Proof/Machine/Operands.lean ====
section
/-! DEFINITION. Register numbers (R101, R102, R110, R114), operand addresses (R104 to R109) and second sources. -/

namespace Sys2Proof.Machine

/-! ### Register numbers -/

/-- A 4-bit register number from an extension bit and a 3-bit field. -/
def num4 (ext : Bool) (f : BitVec 3) : BitVec 4 := BitVec.ofBool ext ++ f

/-- A vector register number from its fifth bit, its fourth bit and a 3-bit field. -/
def num5 (hi ext : Bool) (f : BitVec 3) : BitVec 5 := BitVec.ofBool hi ++ BitVec.ofBool ext ++ f

/-- The bit R of a legacy form, 0 without REX (R101). -/
def rexR (h : LegacyHead) : Bool := h.rex.elim false Rex.r

/-- The bit X of a legacy form, 0 without REX (R101). -/
def rexX (h : LegacyHead) : Bool := h.rex.elim false Rex.x

/-- The bit B of a legacy form, 0 without REX (R101). -/
def rexB (h : LegacyHead) : Bool := h.rex.elim false Rex.b

/-- The bit R of a VEX form (R110). -/
def vexR (h : VexHead) : Bool :=
  match h.spelling with
  | .two r => r
  | .three r _ _ _ => r

/-- The bit X of a VEX form (R110). -/
def vexX (h : VexHead) : Bool :=
  match h.spelling with
  | .two _ => false
  | .three _ x _ _ => x

/-- The bit B of a VEX form (R110). -/
def vexB (h : VexHead) : Bool :=
  match h.spelling with
  | .two _ => false
  | .three _ _ b _ => b

/-- The destination of a legacy 128-bit form (R101). -/
def legacyDest (h : LegacyHead) (reg : BitVec 3) : BitVec 5 := num5 false (rexR h) reg

/-- The source register of a legacy 128-bit form (R101). -/
def legacySrc (h : LegacyHead) (rm : BitVec 3) : BitVec 5 := num5 false (rexB h) rm

/-- The destination of a VEX form (R110). -/
def vexDest (h : VexHead) (reg : BitVec 3) : BitVec 5 := num5 false (vexR h) reg

/-- The first source of a VEX form (R110). -/
def vexFirst (h : VexHead) : BitVec 5 := BitVec.ofBool false ++ h.vvvv

/-- The second source register of a VEX form (R110). -/
def vexSecond (h : VexHead) (rm : BitVec 3) : BitVec 5 := num5 false (vexB h) rm

/-- The destination of an EVEX form (R114). -/
def evexDest (h : EvexHead) (reg : BitVec 3) : BitVec 5 := num5 h.r' h.r reg

/-- The first source of an EVEX form (R114). -/
def evexFirst (h : EvexHead) : BitVec 5 := BitVec.ofBool h.v' ++ h.vvvv

/-- The second source register of an EVEX form (R114). -/
def evexSecond (h : EvexHead) (rm : BitVec 3) : BitVec 5 := num5 h.x h.b rm

/-! ### Operand addresses -/

/-- What an operand address takes from the instruction around it: prefixes, the bits `Bx` and `Xx`, the factor of an 8-bit
displacement (R118), and the length (R106). -/
structure AddrContext where
  prefixes : List Prefix
  b : Bool
  x : Bool
  scale : Nat
  length : Nat
  deriving DecidableEq, Repr

/-- The low bits of a value that an address size keeps (R104, R107). -/
def sized (a : AddrSize) (v : Word) : Word :=
  match a with
  | .a16 => lowBits 16 v
  | .a32 => lowBits 32 v
  | .a64 => v

/-- `reg(n) = GPR[n][A-1:0]` (R104). -/
def State.addrReg (s : State) (a : AddrSize) (n : BitVec 4) : Word := sized a (s.readGpr n)

/-- A displacement of address size 32 or 64, sign-extended, an 8-bit one times the factor (R104, R118). -/
def dispValue (scale : Nat) : Disp → Word
  | .none => 0#64
  | .d8 v => v.signExtend 64 * BitVec.ofNat 64 scale
  | .d32 v => v.signExtend 64

/-- A displacement of address size 16, an 8-bit one sign-extended and times the factor (R107, R118). -/
def dispValue16 (scale : Nat) : Disp16 → Word
  | .none => 0#64
  | .d8 v => v.signExtend 64 * BitVec.ofNat 64 scale
  | .d16 v => v.setWidth 64

/-- The index part of a SIB byte (R105): none where `Xx::index = 0100`. -/
def State.indexPart (s : State) (a : AddrSize) (x : Bool) (scale : BitVec 2) (index : BitVec 3) : Word :=
  if num4 x index = 4#4 then 0#64 else s.addrReg a (num4 x index) <<< scale.toNat

/-- The registers of a row of R107: BX, BP, SI and DI are `GPR` 3, 5, 6 and 7. -/
def State.base16 (s : State) (rm : BitVec 3) : Word :=
  let r n := s.addrReg .a16 n
  if rm = 0#3 then r 3#4 + r 6#4
  else if rm = 1#3 then r 3#4 + r 7#4
  else if rm = 2#3 then r 5#4 + r 6#4
  else if rm = 3#3 then r 5#4 + r 7#4
  else if rm = 4#3 then r 6#4
  else if rm = 5#3 then r 7#4
  else if rm = 6#3 then r 5#4
  else r 3#4

/-- The effective address (R104 to R108); a sum is modulo `2^A`, and is zero-extended. -/
def State.effectiveAddress (s : State) (c : AddrContext) (m : Mem) : Word :=
  let a := addressSize s.mode c.prefixes
  match m with
  | .base rm d => sized a (s.addrReg a (num4 c.b rm) + dispValue c.scale d)
  | .sib scale index base d =>
    sized a (s.addrReg a (num4 c.b base) + s.indexPart a c.x scale index + dispValue c.scale d)
  | .sibNoBase scale index d => sized a (s.indexPart a c.x scale index + d.signExtend 64)
  | .ripRel d => sized a (s.nextRip c.length + d.signExtend 64)
  | .abs32 d => sized a (d.signExtend 64)
  | .base16 rm d => lowBits 16 (s.base16 rm + dispValue16 c.scale d)
  | .abs16 d => d.setWidth 64

/-- The number of a register whose use as base makes SS the segment (R109). -/
def stackBase (n : BitVec 4) : Bool := n == 4#4 || n == 5#4

/-- The segment without an override (R109, R107). -/
def defaultSeg (b : Bool) : Mem → Seg
  | .base rm _ => if stackBase (num4 b rm) then .ss else .ds
  | .sib _ _ base _ => if stackBase (num4 b base) then .ss else .ds
  | .sibNoBase _ _ _ => .ds
  | .ripRel _ => .ds
  | .abs32 _ => .ds
  | .base16 rm _ => if rm = 2#3 ∨ rm = 3#3 ∨ rm = 6#3 then .ss else .ds
  | .abs16 _ => .ds

/-- The last segment-override prefix (R97, R109). -/
def segOverride : List Prefix → Option Seg
  | [] => none
  | .seg r :: ps => some ((segOverride ps).getD r)
  | .lock :: ps | .repne :: ps | .rep :: ps | .opSize :: ps | .addrSize :: ps => segOverride ps

/-- The segment of a memory operand (R109; log entry 10). -/
def operandSeg (c : AddrContext) (m : Mem) : Seg := (segOverride c.prefixes).getD (defaultSeg c.b m)

/-- The read of a memory operand at its address (R109, R68). -/
def State.loadMem (s : State) (L : Nat) (a : AlignRule) (c : AddrContext) (m : Mem) : Except Stop (BitVec L) :=
  s.loadOperand L a (operandSeg c m) (s.effectiveAddress c m)

/-- The address context of a legacy form (R100, R104). -/
def legacyContext (h : LegacyHead) (rm : Rm) : AddrContext := ⟨h.prefixes, rexB h, rexX h, 1, h.length + rm.length⟩

/-- The address context of a VEX form (R110, R104). -/
def vexContext (h : VexHead) (rm : Rm) : AddrContext := ⟨h.prefixes, vexB h, vexX h, 1, h.length + rm.length⟩

/-- The address context of an EVEX form that reads `n` bytes and has `len` bytes itself (R114, R118). -/
def evexContext (h : EvexHead) (n len : Nat) : AddrContext := ⟨h.prefixes, h.b, h.x, n, len⟩

/-! ### Second sources -/

/-- The source of an MMX form (R143). -/
def State.mmxSource (s : State) (h : LegacyHead) (rm : Rm) : Except Stop Word :=
  match rm with
  | .reg r => .ok (s.readMm r)
  | .mem m => s.loadMem 64 .mmx (legacyContext h rm) m

/-- The source of a legacy 128-bit form (R144). -/
def State.sseSource (s : State) (h : LegacyHead) (rm : Rm) : Except Stop (BitVec 128) :=
  match rm with
  | .reg r => .ok (s.readVec 128 (legacySrc h r))
  | .mem m => s.loadMem 128 .legacy128 (legacyContext h rm) m

/-- The second source of a VEX form (R160). -/
def State.vexSource (s : State) (vl : Nat) (h : VexHead) (rm : Rm) : Except Stop (BitVec vl) :=
  match rm with
  | .reg r => .ok (s.readVec vl (vexSecond h r))
  | .mem m => s.loadMem vl .free (vexContext h rm) m

/-- The second source of an EVEX byte or word form (R182). -/
def State.evexSource (s : State) (vl : Nat) (h : EvexHead) (rm : Rm) : Except Stop (BitVec vl) :=
  match rm with
  | .reg r => .ok (s.readVec vl (evexSecond h r))
  | .mem m => s.loadMem vl .free (evexContext h (vl / 8) (h.length + rm.length)) m

/-- The second source of an EVEX doubleword or quadword form (R182). -/
def State.evexBcstSource (s : State) (w vl : Nat) (h : EvexHead) (rm : RmBcst) : Except Stop (BitVec vl) :=
  match rm with
  | .reg r => .ok (s.readVec vl (evexSecond h r))
  | .mem m => s.loadMem vl .free (evexContext h (vl / 8) (h.length + rm.length)) m
  | .bcst m => (s.loadMem w (.element (w / 8)) (evexContext h (w / 8) (h.length + rm.length)) m).map (broadcast w vl)

/-- `Mask(w, VL, T, D)` (R181): the writemask the instruction names, over its destination's old value. -/
def State.masked (s : State) (w vl : Nat) (mask : Mask) (t d : BitVec vl) : BitVec vl :=
  match mask with
  | .none => t
  | .merging k => applyMask w vl (s.readMask k) false t d
  | .zeroing k => applyMask w vl (s.readMask k) true t d

end Sys2Proof.Machine
end

