-- ==== Sys2Proof/Machine/Evex.lean ====
section
/-! DEFINITION. The EVEX forms, rows 16 to 27 (R180 to R194). -/

namespace Sys2Proof.Machine

/-- `ExecEVEX(w, VL)` once the second source is known (R180): `src` is its read, `len` the instruction's length. -/
def execEvex (w vl : Nat) (fs : List Feature) (h : EvexHead) (reg : BitVec 3) (src : Except Stop (BitVec vl)) (len : Nat)
    (s : State) : Host.Outcome State Fault Refusal :=
  match entryStop .evex fs s with
  | some e => e.outcome
  | none =>
    match src with
    | .error e => e.outcome
    | .ok y =>
      .next ((s.setVec (evexDest h reg) (s.masked w vl h.mask (unpackHigh w vl (s.readVec vl (evexFirst h)) y)
        (s.readVec vl (evexDest h reg)))).advance len)

/-- `ExecEVEX(w, VL)` of a byte or word form (R180, R182). -/
def execEvexC (w vl : Nat) (fs : List Feature) (h : EvexHead) (reg : BitVec 3) (rm : Rm) (s : State) :
    Host.Outcome State Fault Refusal :=
  execEvex w vl fs h reg (s.evexSource vl h rm) (h.length + rm.length) s

/-- `ExecEVEX(w, VL)` of a doubleword or quadword form (R180, R182). -/
def execEvexD (w vl : Nat) (fs : List Feature) (h : EvexHead) (reg : BitVec 3) (rm : RmBcst) (s : State) :
    Host.Outcome State Fault Refusal :=
  execEvex w vl fs h reg (s.evexBcstSource w vl h rm) (h.length + rm.length) s

/-- VPUNPCKHBW xmm1 (k1)(z), xmm2, xmm3/m128, row 16 (R183); W is ignored. -/
def execVpunpckhbwEvex128 (h : EvexHead) (_w : Bool) (reg : BitVec 3) (rm : Rm) (s : State) :
    Host.Outcome State Fault Refusal :=
  execEvexC 8 128 [.avx512vl, .avx512bw] h reg rm s

/-- VPUNPCKHWD xmm1 (k1)(z), xmm2, xmm3/m128, row 17 (R184); W is ignored. -/
def execVpunpckhwdEvex128 (h : EvexHead) (_w : Bool) (reg : BitVec 3) (rm : Rm) (s : State) :
    Host.Outcome State Fault Refusal :=
  execEvexC 16 128 [.avx512vl, .avx512bw] h reg rm s

/-- VPUNPCKHDQ xmm1 (k1)(z), xmm2, xmm3/m128/m32bcst, row 18 (R185). -/
def execVpunpckhdqEvex128 (h : EvexHead) (reg : BitVec 3) (rm : RmBcst) (s : State) :
    Host.Outcome State Fault Refusal :=
  execEvexD 32 128 [.avx512vl, .avx512f] h reg rm s

/-- VPUNPCKHQDQ xmm1 (k1)(z), xmm2, xmm3/m128/m64bcst, row 19 (R186). -/
def execVpunpckhqdqEvex128 (h : EvexHead) (reg : BitVec 3) (rm : RmBcst) (s : State) :
    Host.Outcome State Fault Refusal :=
  execEvexD 64 128 [.avx512vl, .avx512f] h reg rm s

/-- VPUNPCKHBW ymm1 (k1)(z), ymm2, ymm3/m256, row 20 (R187); W is ignored. -/
def execVpunpckhbwEvex256 (h : EvexHead) (_w : Bool) (reg : BitVec 3) (rm : Rm) (s : State) :
    Host.Outcome State Fault Refusal :=
  execEvexC 8 256 [.avx512vl, .avx512bw] h reg rm s

/-- VPUNPCKHWD ymm1 (k1)(z), ymm2, ymm3/m256, row 21 (R188); W is ignored. -/
def execVpunpckhwdEvex256 (h : EvexHead) (_w : Bool) (reg : BitVec 3) (rm : Rm) (s : State) :
    Host.Outcome State Fault Refusal :=
  execEvexC 16 256 [.avx512vl, .avx512bw] h reg rm s

/-- VPUNPCKHDQ ymm1 (k1)(z), ymm2, ymm3/m256/m32bcst, row 22 (R189). -/
def execVpunpckhdqEvex256 (h : EvexHead) (reg : BitVec 3) (rm : RmBcst) (s : State) :
    Host.Outcome State Fault Refusal :=
  execEvexD 32 256 [.avx512vl, .avx512f] h reg rm s

/-- VPUNPCKHQDQ ymm1 (k1)(z), ymm2, ymm3/m256/m64bcst, row 23 (R190). -/
def execVpunpckhqdqEvex256 (h : EvexHead) (reg : BitVec 3) (rm : RmBcst) (s : State) :
    Host.Outcome State Fault Refusal :=
  execEvexD 64 256 [.avx512vl, .avx512f] h reg rm s

/-- VPUNPCKHBW zmm1 (k1)(z), zmm2, zmm3/m512, row 24 (R191); W is ignored. -/
def execVpunpckhbwEvex512 (h : EvexHead) (_w : Bool) (reg : BitVec 3) (rm : Rm) (s : State) :
    Host.Outcome State Fault Refusal :=
  execEvexC 8 512 [.avx512bw] h reg rm s

/-- VPUNPCKHWD zmm1 (k1)(z), zmm2, zmm3/m512, row 25 (R192); W is ignored. -/
def execVpunpckhwdEvex512 (h : EvexHead) (_w : Bool) (reg : BitVec 3) (rm : Rm) (s : State) :
    Host.Outcome State Fault Refusal :=
  execEvexC 16 512 [.avx512bw] h reg rm s

/-- VPUNPCKHDQ zmm1 (k1)(z), zmm2, zmm3/m512/m32bcst, row 26 (R193). -/
def execVpunpckhdqEvex512 (h : EvexHead) (reg : BitVec 3) (rm : RmBcst) (s : State) :
    Host.Outcome State Fault Refusal :=
  execEvexD 32 512 [.avx512f] h reg rm s

/-- VPUNPCKHQDQ zmm1 (k1)(z), zmm2, zmm3/m512/m64bcst, row 27 (R194). -/
def execVpunpckhqdqEvex512 (h : EvexHead) (reg : BitVec 3) (rm : RmBcst) (s : State) :
    Host.Outcome State Fault Refusal :=
  execEvexD 64 512 [.avx512f] h reg rm s

end Sys2Proof.Machine
end

