-- ==== Sys2Proof/Machine/Mmx.lean ====
section
/-! DEFINITION. The MMX forms, rows 1, 3 and 5 (R143, R145, R147, R149). -/

namespace Sys2Proof.Machine

/-- `ExecMMX(w)` (R143). -/
def execMmx (w : Nat) (h : LegacyHead) (reg : BitVec 3) (rm : Rm) (s : State) : Host.Outcome State Fault Refusal :=
  match entryStop .mmx [.mmx] s with
  | some e => e.outcome
  | none =>
    match s.mmxSource h rm with
    | .error e => e.outcome
    | .ok y => .next ((s.setMm reg (interleaveHigh w 64 (s.readMm reg) y)).advance (h.length + rm.length))

/-- PUNPCKHBW mm, mm/m64, row 1 (R145). -/
def execPunpckhbwMm (h : LegacyHead) (reg : BitVec 3) (rm : Rm) (s : State) : Host.Outcome State Fault Refusal :=
  execMmx 8 h reg rm s

/-- PUNPCKHWD mm, mm/m64, row 3 (R147). -/
def execPunpckhwdMm (h : LegacyHead) (reg : BitVec 3) (rm : Rm) (s : State) : Host.Outcome State Fault Refusal :=
  execMmx 16 h reg rm s

/-- PUNPCKHDQ mm, mm/m64, row 5 (R149). -/
def execPunpckhdqMm (h : LegacyHead) (reg : BitVec 3) (rm : Rm) (s : State) : Host.Outcome State Fault Refusal :=
  execMmx 32 h reg rm s

end Sys2Proof.Machine
end

