-- ==== Sys2Proof/Machine/Sse.lean ====
section
/-! DEFINITION. The legacy 128-bit forms, rows 2, 4, 6 and 7 (R144, R146, R148, R150, R151). -/

namespace Sys2Proof.Machine

/-- `ExecSSE(w)` (R144). -/
def execSse (w : Nat) (h : LegacyHead) (reg : BitVec 3) (rm : Rm) (s : State) : Host.Outcome State Fault Refusal :=
  match entryStop .sse [.sse2] s with
  | some e => e.outcome
  | none =>
    match s.sseSource h rm with
    | .error e => e.outcome
    | .ok y =>
      .next ((s.setXmm (legacyDest h reg) (interleaveHigh w 128 (s.readVec 128 (legacyDest h reg)) y)).advance
        (h.length + rm.length))

/-- PUNPCKHBW xmm1, xmm2/m128, row 2 (R146). -/
def execPunpckhbwXmm (h : LegacyHead) (reg : BitVec 3) (rm : Rm) (s : State) : Host.Outcome State Fault Refusal :=
  execSse 8 h reg rm s

/-- PUNPCKHWD xmm1, xmm2/m128, row 4 (R148). -/
def execPunpckhwdXmm (h : LegacyHead) (reg : BitVec 3) (rm : Rm) (s : State) : Host.Outcome State Fault Refusal :=
  execSse 16 h reg rm s

/-- PUNPCKHDQ xmm1, xmm2/m128, row 6 (R150). -/
def execPunpckhdqXmm (h : LegacyHead) (reg : BitVec 3) (rm : Rm) (s : State) : Host.Outcome State Fault Refusal :=
  execSse 32 h reg rm s

/-- PUNPCKHQDQ xmm1, xmm2/m128, row 7 (R151). -/
def execPunpckhqdqXmm (h : LegacyHead) (reg : BitVec 3) (rm : Rm) (s : State) : Host.Outcome State Fault Refusal :=
  execSse 64 h reg rm s

end Sys2Proof.Machine
end

