-- ==== Sys2Proof/Machine/Vex.lean ====
section
/-! DEFINITION. The VEX forms, rows 8 to 15 (R160 to R168). -/

namespace Sys2Proof.Machine

/-- `ExecVEX(w, VL)` of a row with the feature `f` (R160). -/
def execVex (w vl : Nat) (f : Feature) (h : VexHead) (reg : BitVec 3) (rm : Rm) (s : State) :
    Host.Outcome State Fault Refusal :=
  match entryStop .vex [f] s with
  | some e => e.outcome
  | none =>
    match s.vexSource vl h rm with
    | .error e => e.outcome
    | .ok y =>
      .next ((s.setVec (vexDest h reg) (unpackHigh w vl (s.readVec vl (vexFirst h)) y)).advance (h.length + rm.length))

/-- VPUNPCKHBW xmm1, xmm2, xmm3/m128, row 8 (R161). -/
def execVpunpckhbwVex128 (h : VexHead) (reg : BitVec 3) (rm : Rm) (s : State) :
    Host.Outcome State Fault Refusal :=
  execVex 8 128 .avx h reg rm s

/-- VPUNPCKHWD xmm1, xmm2, xmm3/m128, row 9 (R162). -/
def execVpunpckhwdVex128 (h : VexHead) (reg : BitVec 3) (rm : Rm) (s : State) :
    Host.Outcome State Fault Refusal :=
  execVex 16 128 .avx h reg rm s

/-- VPUNPCKHDQ xmm1, xmm2, xmm3/m128, row 10 (R163). -/
def execVpunpckhdqVex128 (h : VexHead) (reg : BitVec 3) (rm : Rm) (s : State) :
    Host.Outcome State Fault Refusal :=
  execVex 32 128 .avx h reg rm s

/-- VPUNPCKHQDQ xmm1, xmm2, xmm3/m128, row 11 (R164). -/
def execVpunpckhqdqVex128 (h : VexHead) (reg : BitVec 3) (rm : Rm) (s : State) :
    Host.Outcome State Fault Refusal :=
  execVex 64 128 .avx h reg rm s

/-- VPUNPCKHBW ymm1, ymm2, ymm3/m256, row 12 (R165). -/
def execVpunpckhbwVex256 (h : VexHead) (reg : BitVec 3) (rm : Rm) (s : State) :
    Host.Outcome State Fault Refusal :=
  execVex 8 256 .avx2 h reg rm s

/-- VPUNPCKHWD ymm1, ymm2, ymm3/m256, row 13 (R166). -/
def execVpunpckhwdVex256 (h : VexHead) (reg : BitVec 3) (rm : Rm) (s : State) :
    Host.Outcome State Fault Refusal :=
  execVex 16 256 .avx2 h reg rm s

/-- VPUNPCKHDQ ymm1, ymm2, ymm3/m256, row 14 (R167). -/
def execVpunpckhdqVex256 (h : VexHead) (reg : BitVec 3) (rm : Rm) (s : State) :
    Host.Outcome State Fault Refusal :=
  execVex 32 256 .avx2 h reg rm s

/-- VPUNPCKHQDQ ymm1, ymm2, ymm3/m256, row 15 (R168). -/
def execVpunpckhqdqVex256 (h : VexHead) (reg : BitVec 3) (rm : Rm) (s : State) :
    Host.Outcome State Fault Refusal :=
  execVex 64 256 .avx2 h reg rm s

end Sys2Proof.Machine
end

