-- ==== Sys2Proof/Machine/Dispatch.lean ====
section
/-! DEFINITION. The dispatch: one arm per row of the opcode table (R91), each a direct call of the row's meaning. -/

namespace Sys2Proof.Machine

def exec (i : Instr) (s : State) : Host.Outcome State Fault Refusal :=
  match i with
  | .punpckhbwMm h reg rm => Sys2Proof.Machine.execPunpckhbwMm h reg rm s
  | .punpckhbwXmm h reg rm => Sys2Proof.Machine.execPunpckhbwXmm h reg rm s
  | .punpckhwdMm h reg rm => Sys2Proof.Machine.execPunpckhwdMm h reg rm s
  | .punpckhwdXmm h reg rm => Sys2Proof.Machine.execPunpckhwdXmm h reg rm s
  | .punpckhdqMm h reg rm => Sys2Proof.Machine.execPunpckhdqMm h reg rm s
  | .punpckhdqXmm h reg rm => Sys2Proof.Machine.execPunpckhdqXmm h reg rm s
  | .punpckhqdqXmm h reg rm => Sys2Proof.Machine.execPunpckhqdqXmm h reg rm s
  | .vpunpckhbwVex128 h reg rm => Sys2Proof.Machine.execVpunpckhbwVex128 h reg rm s
  | .vpunpckhwdVex128 h reg rm => Sys2Proof.Machine.execVpunpckhwdVex128 h reg rm s
  | .vpunpckhdqVex128 h reg rm => Sys2Proof.Machine.execVpunpckhdqVex128 h reg rm s
  | .vpunpckhqdqVex128 h reg rm => Sys2Proof.Machine.execVpunpckhqdqVex128 h reg rm s
  | .vpunpckhbwVex256 h reg rm => Sys2Proof.Machine.execVpunpckhbwVex256 h reg rm s
  | .vpunpckhwdVex256 h reg rm => Sys2Proof.Machine.execVpunpckhwdVex256 h reg rm s
  | .vpunpckhdqVex256 h reg rm => Sys2Proof.Machine.execVpunpckhdqVex256 h reg rm s
  | .vpunpckhqdqVex256 h reg rm => Sys2Proof.Machine.execVpunpckhqdqVex256 h reg rm s
  | .vpunpckhbwEvex128 h w reg rm => Sys2Proof.Machine.execVpunpckhbwEvex128 h w reg rm s
  | .vpunpckhwdEvex128 h w reg rm => Sys2Proof.Machine.execVpunpckhwdEvex128 h w reg rm s
  | .vpunpckhdqEvex128 h reg rm => Sys2Proof.Machine.execVpunpckhdqEvex128 h reg rm s
  | .vpunpckhqdqEvex128 h reg rm => Sys2Proof.Machine.execVpunpckhqdqEvex128 h reg rm s
  | .vpunpckhbwEvex256 h w reg rm => Sys2Proof.Machine.execVpunpckhbwEvex256 h w reg rm s
  | .vpunpckhwdEvex256 h w reg rm => Sys2Proof.Machine.execVpunpckhwdEvex256 h w reg rm s
  | .vpunpckhdqEvex256 h reg rm => Sys2Proof.Machine.execVpunpckhdqEvex256 h reg rm s
  | .vpunpckhqdqEvex256 h reg rm => Sys2Proof.Machine.execVpunpckhqdqEvex256 h reg rm s
  | .vpunpckhbwEvex512 h w reg rm => Sys2Proof.Machine.execVpunpckhbwEvex512 h w reg rm s
  | .vpunpckhwdEvex512 h w reg rm => Sys2Proof.Machine.execVpunpckhwdEvex512 h w reg rm s
  | .vpunpckhdqEvex512 h reg rm => Sys2Proof.Machine.execVpunpckhdqEvex512 h reg rm s
  | .vpunpckhqdqEvex512 h reg rm => Sys2Proof.Machine.execVpunpckhqdqEvex512 h reg rm s

end Sys2Proof.Machine
end

