-- ==== Sys2Proof/Machine/Fetch.lean ====
section
/-! DEFINITION. Instruction fetch (R75), the refusals of the decoder, and the launch of a program
(R262 to R264; log entry 12). -/

namespace Sys2Proof.Machine

/-- The bytes in memory from `CS:RIP` on, as many as an instruction can have (R75, R96). -/
def State.instrBytes (s : State) : List Byte :=
  (List.range maxLength).map fun k => s.byteAt (s.linAdd (s.linear .cs s.rip) k)

/-- The length `len` of the instruction at the front of the bytes (R75, R96): the fewest of them on which the decoder answers, and
15 where it needs more. It is read from memory also where the fetch of a byte will fault, so that `#GP(0)` for a byte past the CS
limit goes before `#PF` for a lower byte, as R67 orders one range (DEDUCED: log entry 25). -/
def fetchLength (m : Mode) (bs : List Byte) : Nat :=
  ((List.range maxLength).find? fun n => (decode m (bs.take n)).decided).getD maxLength

/-- `Fetch(RIP)` (R75): the bytes of one instruction, or the fault of translating `(CS, RIP, len)`, segment checks on the whole
range before the pages (R66, R67, R218d, R220). -/
def State.fetched (s : State) : Except Fault (List Byte) :=
  match s.translate .cs s.rip (fetchLength s.mode s.instrBytes) .fetch with
  | .ok _ => .ok (s.instrBytes.take (fetchLength s.mode s.instrBytes))
  | .ss => .error (raise .ss s)
  | .gp => .error (raise .gp s)
  | .pf c a _ => .error (raise (.pf c a) s)

/-- The refusal of a cause of the decoder. -/
def refusalOf : RefuseCause → Refusal
  | .notInScope => .notInScope
  | .repOnLegacy => .repOnLegacy
  | .rexNotLast => .rexNotLast
  | .registerAboveSeven => .registerAboveSeven

/-- The launch premises of R263 steps 2 to 8, which put the processor into 64-bit mode with every class of form enabled, and no
condition of R223 in the way. Of step 8 it sets PG and LMA: `CR4.PAE` and `IA32_EFER.LME` are left as they were (0 from reset),
because the spec gives them no bit numbers and no rule reads them (DESIGN CHOICE: log entry 12). -/
def State.launch (s : State) : State :=
  { s with
    rflags := s.rflags &&& ~~~ 0x20100#64
    cr0 := (s.cr0 &&& ~~~ 0xC#64) ||| 0x80000021#64
    cr4 := s.cr4 ||| 0x40200#64
    xcr0 := s.xcr0 ||| 0xE7#64
    efer := s.efer ||| 0x400#64
    cs := { s.cs with l := true, d := false }
    fsw := s.fsw &&& 0xFF7F#16
    dr7 := s.dr7 &&& ~~~ 0xFF#64 }

/-- The bytes of a list stored from a linear address on. -/
def State.placeBytes (s : State) (la : Word) : List Byte → State
  | [] => s
  | v :: vs => State.placeBytes { s with mem := Memory.write s.mem la.toNat v } (s.linAdd la 1) vs

end Sys2Proof.Machine
end

