-- ==== Sys2Proof/Machine/Step.lean ====
section
/-! DEFINITION. One step (R264): fetch at RIP, decode in the current mode, execute. -/

namespace Sys2Proof.Machine

/-- One step of a run (R264): a state outside the model is refused (R223, R233); otherwise the bytes at RIP are fetched (R75)
and decoded (R97), and the instruction is executed. Where 15 bytes are not yet an instruction it is longer than 15 bytes and
`#GP(0)` (R96, R222 step 1). A refusal of the decoder (D1, D11, D12) goes before every exception of the execution: `#UD` by control
state or feature, `#NM`, `#MF` and the operand faults (DESIGN CHOICE: log entry 27). -/
def step (s : State) : Host.Outcome State Fault Refusal :=
  if s.insideModel then
    match s.fetched with
    | .error f => .fault f
    | .ok bs =>
      match decode s.mode bs with
      | .ok i _ => exec i s
      | .more => .fault (raise .gp s)
      | .ud _ => .fault (raise .ud s)
      | .refuse c => .refused (refusalOf c)
  else .refused .outsideModel

/-- The program of one table word launched (R262, R264; log entry 12): the launch premises, and the word's bytes at RIP. -/
def State.withFetchWord (s : State) (nbits w : Nat) : State :=
  s.launch.placeBytes (s.launch.linear .cs s.rip) (tableWordBytes nbits w)

end Sys2Proof.Machine
end

