-- ==== Sys2Proof/Safety.lean ====
section
/-! DEFINITION. The terms the statements use: the rows of the opcode table as data, when a form executes normally, what a memory
operand supplies, what a result is by its elements, what an instruction leaves unchanged, and the invariant of every step. -/

namespace Sys2Proof.Machine

/-! ### The rows (R2, R91, R94) -/

/-- The group of a form (R213). -/
def formClass : Instr → FormClass
  | .punpckhbwMm .. | .punpckhwdMm .. | .punpckhdqMm .. => .mmx
  | .punpckhbwXmm .. | .punpckhwdXmm .. | .punpckhdqXmm .. | .punpckhqdqXmm .. => .sse
  | .vpunpckhbwVex128 .. | .vpunpckhwdVex128 .. | .vpunpckhdqVex128 .. | .vpunpckhqdqVex128 ..
  | .vpunpckhbwVex256 .. | .vpunpckhwdVex256 .. | .vpunpckhdqVex256 .. | .vpunpckhqdqVex256 .. => .vex
  | .vpunpckhbwEvex128 .. | .vpunpckhwdEvex128 .. | .vpunpckhdqEvex128 .. | .vpunpckhqdqEvex128 ..
  | .vpunpckhbwEvex256 .. | .vpunpckhwdEvex256 .. | .vpunpckhdqEvex256 .. | .vpunpckhqdqEvex256 ..
  | .vpunpckhbwEvex512 .. | .vpunpckhwdEvex512 .. | .vpunpckhdqEvex512 .. | .vpunpckhqdqEvex512 .. => .evex

/-- The CPUID feature flags of a row (R2). -/
def rowFeatures : Instr → List Feature
  | .punpckhbwMm .. | .punpckhwdMm .. | .punpckhdqMm .. => [.mmx]
  | .punpckhbwXmm .. | .punpckhwdXmm .. | .punpckhdqXmm .. | .punpckhqdqXmm .. => [.sse2]
  | .vpunpckhbwVex128 .. | .vpunpckhwdVex128 .. | .vpunpckhdqVex128 .. | .vpunpckhqdqVex128 .. => [.avx]
  | .vpunpckhbwVex256 .. | .vpunpckhwdVex256 .. | .vpunpckhdqVex256 .. | .vpunpckhqdqVex256 .. => [.avx2]
  | .vpunpckhbwEvex128 .. | .vpunpckhwdEvex128 .. | .vpunpckhbwEvex256 .. | .vpunpckhwdEvex256 .. => [.avx512vl, .avx512bw]
  | .vpunpckhdqEvex128 .. | .vpunpckhqdqEvex128 .. | .vpunpckhdqEvex256 .. | .vpunpckhqdqEvex256 .. => [.avx512vl, .avx512f]
  | .vpunpckhbwEvex512 .. | .vpunpckhwdEvex512 .. => [.avx512bw]
  | .vpunpckhdqEvex512 .. | .vpunpckhqdqEvex512 .. => [.avx512f]

/-- Rows 1, 3 and 5 with their element widths. -/
def mmxRows (h : LegacyHead) (reg : BitVec 3) (rm : Rm) : List (Nat × Instr) :=
  [(8, .punpckhbwMm h reg rm), (16, .punpckhwdMm h reg rm), (32, .punpckhdqMm h reg rm)]

/-- Rows 2, 4, 6 and 7 with their element widths. -/
def sseRows (h : LegacyHead) (reg : BitVec 3) (rm : Rm) : List (Nat × Instr) :=
  [(8, .punpckhbwXmm h reg rm), (16, .punpckhwdXmm h reg rm), (32, .punpckhdqXmm h reg rm), (64, .punpckhqdqXmm h reg rm)]

/-- Rows 8 to 11 with their element widths. -/
def vex128Rows (h : VexHead) (reg : BitVec 3) (rm : Rm) : List (Nat × Instr) :=
  [(8, .vpunpckhbwVex128 h reg rm), (16, .vpunpckhwdVex128 h reg rm), (32, .vpunpckhdqVex128 h reg rm),
    (64, .vpunpckhqdqVex128 h reg rm)]

/-- Rows 12 to 15 with their element widths. -/
def vex256Rows (h : VexHead) (reg : BitVec 3) (rm : Rm) : List (Nat × Instr) :=
  [(8, .vpunpckhbwVex256 h reg rm), (16, .vpunpckhwdVex256 h reg rm), (32, .vpunpckhdqVex256 h reg rm),
    (64, .vpunpckhqdqVex256 h reg rm)]

/-- The EVEX byte and word rows of a vector length (rows 16, 17, 20, 21, 24, 25) with their element widths. -/
def evexRowsC (vl : VecLen) (h : EvexHead) (w : Bool) (reg : BitVec 3) (rm : Rm) : List (Nat × Instr) :=
  match vl with
  | .v128 => [(8, .vpunpckhbwEvex128 h w reg rm), (16, .vpunpckhwdEvex128 h w reg rm)]
  | .v256 => [(8, .vpunpckhbwEvex256 h w reg rm), (16, .vpunpckhwdEvex256 h w reg rm)]
  | .v512 => [(8, .vpunpckhbwEvex512 h w reg rm), (16, .vpunpckhwdEvex512 h w reg rm)]

/-- The EVEX doubleword and quadword rows of a vector length (rows 18, 19, 22, 23, 26, 27) with their element widths. -/
def evexRowsD (vl : VecLen) (h : EvexHead) (reg : BitVec 3) (rm : RmBcst) : List (Nat × Instr) :=
  match vl with
  | .v128 => [(32, .vpunpckhdqEvex128 h reg rm), (64, .vpunpckhqdqEvex128 h reg rm)]
  | .v256 => [(32, .vpunpckhdqEvex256 h reg rm), (64, .vpunpckhqdqEvex256 h reg rm)]
  | .v512 => [(32, .vpunpckhdqEvex512 h reg rm), (64, .vpunpckhqdqEvex512 h reg rm)]

/-! ### When a form raises none of the exceptions of R212 to R216 -/

/-- The three modes with VEX and EVEX forms (R212). -/
def protectedOrLong (m : Mode) : Prop := m = .prot16 ∨ m = .prot32 ∨ m = .long64

/-- An MMX form passes its entry checks. -/
def MmxEnabled (s : State) : Prop :=
  s.em = false ∧ s.ts = false ∧ s.es87 = false ∧ s.cfg.feat.mmx = true

/-- A legacy 128-bit form passes its entry checks. -/
def SseEnabled (s : State) : Prop :=
  s.em = false ∧ s.osfxsr = true ∧ s.ts = false ∧ s.cfg.feat.sse2 = true

/-- A VEX form of the feature `f` passes its entry checks. -/
def VexEnabled (f : Feature) (s : State) : Prop :=
  protectedOrLong s.mode ∧ s.osxsave = true ∧ s.avxEnabled = true ∧ s.ts = false ∧ hasFeature s.cfg f = true

/-- An EVEX form of the features `fs` passes its entry checks; `MAXVL` is 512 then (R180). -/
def EvexEnabled (fs : List Feature) (s : State) : Prop :=
  protectedOrLong s.mode ∧ s.osxsave = true ∧ s.avxEnabled = true ∧ s.avx512Enabled = true ∧ s.ts = false ∧
    s.cfg.maxvl = .v512 ∧ ∀ f ∈ fs, hasFeature s.cfg f = true

/-- A form is `#UD` by mode, control registers or features (R212 to R214, R27). -/
def UdByState (i : Instr) (s : State) : Prop :=
  match formClass i with
  | .mmx => s.em = true ∨ s.cfg.feat.mmx = false
  | .sse => s.em = true ∨ s.osfxsr = false ∨ s.cfg.feat.sse2 = false
  | .vex => s.mode = .real ∨ s.mode = .v86 ∨ s.osxsave = false ∨ s.avxEnabled = false ∨
      ∃ f ∈ rowFeatures i, hasFeature s.cfg f = false
  | .evex => s.mode = .real ∨ s.mode = .v86 ∨ s.osxsave = false ∨ s.avxEnabled = false ∨ s.avx512Enabled = false ∨
      s.cfg.maxvl ≠ .v512 ∨ ∃ f ∈ rowFeatures i, hasFeature s.cfg f = false

/-! ### Memory operands (R60, R66, R68) -/

/-- The operand of `L/8` bytes at an offset of a segment can be read under an alignment rule, and lies at `la`. -/
def Readable (s : State) (L : Nat) (a : AlignRule) (r : Seg) (ea la : Word) : Prop :=
  s.translate r ea (L / 8) .dataRead = .ok la ∧ gpByAlignment a la = false ∧ acByAlignment a s la = false ∧
    s.sideEffect la (L / 8) = false

/-- `y` is the little-endian value of the bytes at `la` (R60). -/
def BytesAt (s : State) (L : Nat) (la : Word) (y : BitVec L) : Prop :=
  ∀ k < L / 8, elem y 8 k = s.byteAt (s.linAdd la k)

/-- The memory operand at its segment and address can be read, and supplies `y`. -/
def MemSupplies (s : State) (L : Nat) (a : AlignRule) (c : AddrContext) (m : Mem) (y : BitVec L) : Prop :=
  ∃ la, Readable s L a (operandSeg c m) (s.effectiveAddress c m) la ∧ BytesAt s L la y

/-- `y` is the source of an MMX form (R143). -/
def MmxSupplies (s : State) (h : LegacyHead) (rm : Rm) (y : Word) : Prop :=
  match rm with
  | .reg r => y = s.readMm r
  | .mem m => MemSupplies s 64 .mmx (legacyContext h rm) m y

/-- `y` is the source of a legacy 128-bit form (R144). -/
def SseSupplies (s : State) (h : LegacyHead) (rm : Rm) (y : BitVec 128) : Prop :=
  match rm with
  | .reg r => y = s.readVec 128 (legacySrc h r)
  | .mem m => MemSupplies s 128 .legacy128 (legacyContext h rm) m y

/-- `y` is the second source of a VEX form (R160). -/
def VexSupplies (s : State) (vl : Nat) (h : VexHead) (rm : Rm) (y : BitVec vl) : Prop :=
  match rm with
  | .reg r => y = s.readVec vl (vexSecond h r)
  | .mem m => MemSupplies s vl .free (vexContext h rm) m y

/-- `y` is the second source of an EVEX byte or word form (R182). -/
def EvexSupplies (s : State) (vl : Nat) (h : EvexHead) (rm : Rm) (y : BitVec vl) : Prop :=
  match rm with
  | .reg r => y = s.readVec vl (evexSecond h r)
  | .mem m => MemSupplies s vl .free (evexContext h (vl / 8) (h.length + rm.length)) m y

/-- `y` is the second source of an EVEX doubleword or quadword form (R182); a broadcast element fills every element of `y`. -/
def EvexBcstSupplies (s : State) (w vl : Nat) (h : EvexHead) (rm : RmBcst) (y : BitVec vl) : Prop :=
  match rm with
  | .reg r => y = s.readVec vl (evexSecond h r)
  | .mem m => MemSupplies s vl .free (evexContext h (vl / 8) (h.length + rm.length)) m y
  | .bcst m => ∃ e : BitVec w,
      MemSupplies s w (.element (w / 8)) (evexContext h (w / 8) (h.length + rm.length)) m e ∧ ∀ j < vl / w, elem y w j = e

/-- What stands before the operands of an instruction, by its class. -/
inductive AnyHead where
  | legacy (h : LegacyHead)
  | vex (h : VexHead)
  | evex (h : EvexHead)
  deriving DecidableEq, Repr

/-- The prefixes and prefix fields of an instruction. -/
def instrHead : Instr → AnyHead
  | .punpckhbwMm h _ _ | .punpckhwdMm h _ _ | .punpckhdqMm h _ _
  | .punpckhbwXmm h _ _ | .punpckhwdXmm h _ _ | .punpckhdqXmm h _ _ | .punpckhqdqXmm h _ _ => .legacy h
  | .vpunpckhbwVex128 h _ _ | .vpunpckhwdVex128 h _ _ | .vpunpckhdqVex128 h _ _ | .vpunpckhqdqVex128 h _ _
  | .vpunpckhbwVex256 h _ _ | .vpunpckhwdVex256 h _ _ | .vpunpckhdqVex256 h _ _ | .vpunpckhqdqVex256 h _ _ => .vex h
  | .vpunpckhbwEvex128 h _ _ _ | .vpunpckhwdEvex128 h _ _ _ | .vpunpckhdqEvex128 h _ _ | .vpunpckhqdqEvex128 h _ _
  | .vpunpckhbwEvex256 h _ _ _ | .vpunpckhwdEvex256 h _ _ _ | .vpunpckhdqEvex256 h _ _ | .vpunpckhqdqEvex256 h _ _
  | .vpunpckhbwEvex512 h _ _ _ | .vpunpckhwdEvex512 h _ _ _ | .vpunpckhdqEvex512 h _ _ | .vpunpckhqdqEvex512 h _ _ => .evex h

/-- The memory operand of an instruction, if it has one: its bits, its alignment rule and its address (R61, R109). -/
def memOperand : Instr → Option (Nat × AlignRule × AddrContext × Mem)
  | .punpckhbwMm h _ rm | .punpckhwdMm h _ rm | .punpckhdqMm h _ rm => legacyOperand 64 .mmx h rm
  | .punpckhbwXmm h _ rm | .punpckhwdXmm h _ rm | .punpckhdqXmm h _ rm | .punpckhqdqXmm h _ rm =>
    legacyOperand 128 .legacy128 h rm
  | .vpunpckhbwVex128 h _ rm | .vpunpckhwdVex128 h _ rm | .vpunpckhdqVex128 h _ rm | .vpunpckhqdqVex128 h _ rm =>
    vexOperand 128 h rm
  | .vpunpckhbwVex256 h _ rm | .vpunpckhwdVex256 h _ rm | .vpunpckhdqVex256 h _ rm | .vpunpckhqdqVex256 h _ rm =>
    vexOperand 256 h rm
  | .vpunpckhbwEvex128 h _ _ rm | .vpunpckhwdEvex128 h _ _ rm => evexOperand 128 h rm
  | .vpunpckhdqEvex128 h _ rm => evexBcstOperand 32 128 h rm
  | .vpunpckhqdqEvex128 h _ rm => evexBcstOperand 64 128 h rm
  | .vpunpckhbwEvex256 h _ _ rm | .vpunpckhwdEvex256 h _ _ rm => evexOperand 256 h rm
  | .vpunpckhdqEvex256 h _ rm => evexBcstOperand 32 256 h rm
  | .vpunpckhqdqEvex256 h _ rm => evexBcstOperand 64 256 h rm
  | .vpunpckhbwEvex512 h _ _ rm | .vpunpckhwdEvex512 h _ _ rm => evexOperand 512 h rm
  | .vpunpckhdqEvex512 h _ rm => evexBcstOperand 32 512 h rm
  | .vpunpckhqdqEvex512 h _ rm => evexBcstOperand 64 512 h rm
where
  /-- The operand of a legacy form. -/
  legacyOperand (L : Nat) (a : AlignRule) (h : LegacyHead) (rm : Rm) : Option (Nat × AlignRule × AddrContext × Mem) :=
    match rm with
    | .reg _ => none
    | .mem m => some (L, a, legacyContext h rm, m)
  /-- The operand of a VEX form. -/
  vexOperand (vl : Nat) (h : VexHead) (rm : Rm) : Option (Nat × AlignRule × AddrContext × Mem) :=
    match rm with
    | .reg _ => none
    | .mem m => some (vl, .free, vexContext h rm, m)
  /-- The operand of an EVEX byte or word form. -/
  evexOperand (vl : Nat) (h : EvexHead) (rm : Rm) : Option (Nat × AlignRule × AddrContext × Mem) :=
    match rm with
    | .reg _ => none
    | .mem m => some (vl, .free, evexContext h (vl / 8) (h.length + rm.length), m)
  /-- The operand of an EVEX doubleword or quadword form. -/
  evexBcstOperand (w vl : Nat) (h : EvexHead) (rm : RmBcst) : Option (Nat × AlignRule × AddrContext × Mem) :=
    match rm with
    | .reg _ => none
    | .mem m => some (vl, .free, evexContext h (vl / 8) (h.length + rm.length), m)
    | .bcst m => some (w, .element (w / 8), evexContext h (w / 8) (h.length + rm.length), m)

/-- None of the exceptions and refusals of R212 to R216 applies. -/
def Enabled (i : Instr) (s : State) : Prop :=
  ¬ UdByState i s ∧ s.ts = false ∧ (formClass i = .mmx → s.es87 = false)

/-! ### Results by their elements -/

/-- `r` is the interleave of the high halves of `x` and `y` (R140). -/
def Interleaved (w L : Nat) (x y r : BitVec L) : Prop :=
  ∀ j < L / w / 2, elem r w (2 * j) = elem x w (L / w / 2 + j) ∧ elem r w (2 * j + 1) = elem y w (L / w / 2 + j)

/-- `r` is interleaved lane by lane (R141). -/
def LaneInterleaved (w vl : Nat) (x y r : BitVec vl) : Prop :=
  ∀ l < vl / 128, Interleaved w 128 (elem x 128 l) (elem y 128 l) (elem r 128 l)

/-- `r` is `t` under the writemask, over the old destination `d` (R181). -/
def MaskedFrom (s : State) (w vl : Nat) (mask : Mask) (t d r : BitVec vl) : Prop :=
  ∀ j < vl / w, elem r w j =
    match mask with
    | .none => elem t w j
    | .merging k => if bitAt (s.readMask k) j then elem t w j else elem d w j
    | .zeroing k => if bitAt (s.readMask k) j then elem t w j else 0#w

/-- Every bit of `v` from bit `n` up is 0. -/
def ZeroFrom {L : Nat} (n : Nat) (v : BitVec L) : Prop := ∀ b, n ≤ b → bitAt v b = false

/-! ### Frames -/

/-- The number of bits of the instruction pointer in use (R23). -/
def ripBits (m : Mode) : Nat := if m = .long64 then 64 else 32

/-- The instruction pointer is past an instruction of `len` bytes (R23). -/
def RipPast (s t : State) (len : Nat) : Prop := t.rip.toNat = (s.rip.toNat + len) % 2 ^ ripBits s.mode

/-- Nothing but the vector register `d` and the instruction pointer differs. -/
def OnlyVec (s t : State) (d : BitVec 5) : Prop :=
  t = { s with zmm := t.zmm, rip := t.rip } ∧ (∀ r, r ≠ d → t.readVec 512 r = s.readVec 512 r) ∧
    ∀ a, t.byteAt a = s.byteAt a

/-- Nothing but the x87 data register `d`, the tag marks, `TOP` and the instruction pointer differs. -/
def OnlyMm (s t : State) (d : BitVec 3) : Prop :=
  t = { s with st := t.st, tags := t.tags, fsw := t.fsw, rip := t.rip } ∧
    (∀ r : BitVec 3, r ≠ d → t.st[r.toNat] = s.st[r.toNat]) ∧
    (∀ b, (b < 11 ∨ 13 < b) → bitAt t.fsw b = bitAt s.fsw b) ∧
    ∀ a, t.byteAt a = s.byteAt a

/-! ### The invariant -/

/-- The bits that do not exist are 0, the upper half of RIP is 0 outside 64-bit mode (R22), and memory is canonical. -/
def State.Inv (s : State) : Prop :=
  Memory.wf s.mem = true ∧
  (∀ r : BitVec 5, ∀ b, vecBits s.cfg.maxvl ≤ b → bitAt (s.readVec 512 r) b = false) ∧
  (∀ r : BitVec 3, ∀ b, maskBits s.cfg.kw ≤ b → bitAt s.k[r.toNat] b = false) ∧
  (s.mode ≠ .long64 → s.rip.toNat < 2 ^ 32)

/-- The part of the state that no instruction changes (R21, R25, R28, R31, R32, R71): everything but the vector registers, the
x87 state of the MMX forms and the instruction pointer. -/
def Unchanged (s t : State) : Prop :=
  t = { s with zmm := t.zmm, st := t.st, tags := t.tags, fsw := t.fsw, rip := t.rip }

/-- The state an outcome ends in, if it is not a refusal. -/
def endState : Host.Outcome State Fault Refusal → Option State
  | .next t => some t
  | .fault f => some f.final
  | .refused _ => none

/-- A fault with another state at its end. -/
def Fault.mapFinal (g : State → State) : Fault → Fault
  | .ud s => .ud (g s)
  | .nm s => .nm (g s)
  | .ss c s => .ss c (g s)
  | .gp c s => .gp c (g s)
  | .pf c s => .pf c (g s)
  | .mf s => .mf (g s)
  | .ac c s => .ac c (g s)

/-- An outcome with another state at its end: the same case, the same vector and error code, the same refusal. -/
def mapOutcome (g : State → State) : Host.Outcome State Fault Refusal → Host.Outcome State Fault Refusal
  | .next t => .next (g t)
  | .fault f => .fault (f.mapFinal g)
  | .refused r => .refused r

end Sys2Proof.Machine
end

