-- ==== Sys2Proof/Certificates/Slice0/Obligations.lean ====
section
/-! DEFINITION. The statements for the provers. -/

section

open Sys2Proof Sys2Proof.Machine

/-! ### The operation -/

/-- R140: each element of `IH(w, L, X, Y)`, the independence of the low halves, and the two closed forms. -/
def Obligations.InterleaveHighByElements : Prop :=
  (∀ L, (L = 64 ∨ L = 128) → ∀ w, 0 < w → w ∣ L / 2 → ∀ x y : BitVec L,
    Interleaved w L x y (interleaveHigh w L x y) ∧
    ∀ x' y' : BitVec L, elem x' (L / 2) 1 = elem x (L / 2) 1 → elem y' (L / 2) 1 = elem y (L / 2) 1 →
      interleaveHigh w L x' y' = interleaveHigh w L x y) ∧
  (∀ x y : BitVec 64, interleaveHigh 32 64 x y = (y.extractLsb' 32 32 ++ x.extractLsb' 32 32 : BitVec 64)) ∧
  ∀ x y : BitVec 128, interleaveHigh 64 128 x y = (y.extractLsb' 64 64 ++ x.extractLsb' 64 64 : BitVec 128)

/-- R141: `IH` on each 128-bit lane, and nothing across lanes. -/
def Obligations.UnpackHighByLanes : Prop :=
  ∀ vl, (vl = 128 ∨ vl = 256 ∨ vl = 512) → ∀ w, 0 < w → w ∣ 64 → ∀ x y : BitVec vl,
    (∀ l < vl / 128, elem (unpackHigh w vl x y) 128 l = interleaveHigh w 128 (elem x 128 l) (elem y 128 l)) ∧
    LaneInterleaved w vl x y (unpackHigh w vl x y)

/-- R142 (b), (c), (d): a zero second source extends, a zero first source shifts, equal sources duplicate. -/
def Obligations.ZeroAndEqualSources : Prop :=
  ∀ L, (L = 64 ∨ L = 128) → ∀ w, 0 < w → w ∣ L / 2 → ∀ v : BitVec L, ∀ j < L / w / 2,
    elem (interleaveHigh w L v 0#L) (2 * w) j = (elem v w (L / w / 2 + j)).setWidth (2 * w) ∧
    elem (interleaveHigh w L 0#L v) (2 * w) j = (elem v w (L / w / 2 + j)).setWidth (2 * w) <<< w ∧
    elem (interleaveHigh w L v v) w (2 * j) = elem v w (L / w / 2 + j) ∧
    elem (interleaveHigh w L v v) w (2 * j + 1) = elem v w (L / w / 2 + j)

/-- R60: byte `k` of a read is the byte at `la + k`, and element `i` of width `w` is the read at `la + i*w/8`; the wrap of the
addresses is the model's (log entry 9). -/
def Obligations.ReadsAreLittleEndian : Prop :=
  ∀ (s : State) (L : Nat) (la : Word),
    (∀ k < L / 8, elem (s.memRead L la) 8 k = s.byteAt (s.linAdd la k)) ∧
    ∀ w i, 8 ∣ w → 0 < w → w * (i + 1) ≤ L → 8 ∣ L →
      elem (s.memRead L la) w i = s.memRead w (s.linAdd la (i * (w / 8)))

/-! ### Completion, result and frame of the 27 forms -/

/-- PUNPCKHBW, PUNPCKHWD, PUNPCKHDQ on MMX registers (rows 1, 3, 5; R143): they complete from a register or a readable memory
source, with the interleave in the destination, the x87 side effects of R30, RIP advanced, and nothing else changed. -/
def Obligations.MmxFormsComplete : Prop :=
  ∀ (h : LegacyHead) (reg : BitVec 3) (rm : Rm) (s : State) (y : Word), MmxEnabled s → MmxSupplies s h rm y →
    ∀ p ∈ mmxRows h reg rm, ∃ t, exec p.2 s = .next t ∧
      Interleaved p.1 64 (s.readMm reg) y (t.readMm reg) ∧ t.st[reg.toNat].extractLsb' 64 16 = 0xFFFF#16 ∧
      t.top = 0#3 ∧ (∀ r : BitVec 3, t.tags[r.toNat] = true) ∧
      RipPast s t p.2.length ∧ OnlyMm s t reg

/-- PUNPCKHBW, PUNPCKHWD, PUNPCKHDQ, PUNPCKHQDQ on XMM registers (rows 2, 4, 6, 7; R144): bits `MAXVL-1:128` are kept. -/
def Obligations.SseFormsComplete : Prop :=
  ∀ (h : LegacyHead) (reg : BitVec 3) (rm : Rm) (s : State) (y : BitVec 128), SseEnabled s → SseSupplies s h rm y →
    ∀ p ∈ sseRows h reg rm, ∃ t, exec p.2 s = .next t ∧
      Interleaved p.1 128 (s.readVec 128 (legacyDest h reg)) y (t.readVec 128 (legacyDest h reg)) ∧
      (∀ b, 128 ≤ b → bitAt (t.readVec 512 (legacyDest h reg)) b = bitAt (s.readVec 512 (legacyDest h reg)) b) ∧
      RipPast s t p.2.length ∧ OnlyVec s t (legacyDest h reg)

/-- VPUNPCKHBW, VPUNPCKHWD, VPUNPCKHDQ, VPUNPCKHQDQ, VEX.128 (rows 8 to 11; R160): bits `MAXVL-1:128` become 0. -/
def Obligations.Vex128FormsComplete : Prop :=
  ∀ (h : VexHead) (reg : BitVec 3) (rm : Rm) (s : State) (y : BitVec 128), VexEnabled .avx s → VexSupplies s 128 h rm y →
    ∀ p ∈ vex128Rows h reg rm, ∃ t, exec p.2 s = .next t ∧
      Interleaved p.1 128 (s.readVec 128 (vexFirst h)) y (t.readVec 128 (vexDest h reg)) ∧
      ZeroFrom 128 (t.readVec 512 (vexDest h reg)) ∧
      RipPast s t p.2.length ∧ OnlyVec s t (vexDest h reg)

/-- VPUNPCKHBW, VPUNPCKHWD, VPUNPCKHDQ, VPUNPCKHQDQ, VEX.256 (rows 12 to 15; R160), on a consistent configuration (R6). -/
def Obligations.Vex256FormsComplete : Prop :=
  ∀ (h : VexHead) (reg : BitVec 3) (rm : Rm) (s : State) (y : BitVec 256), s.cfg.wf = true → VexEnabled .avx2 s →
    VexSupplies s 256 h rm y →
    ∀ p ∈ vex256Rows h reg rm, ∃ t, exec p.2 s = .next t ∧
      LaneInterleaved p.1 256 (s.readVec 256 (vexFirst h)) y (t.readVec 256 (vexDest h reg)) ∧
      ZeroFrom 256 (t.readVec 512 (vexDest h reg)) ∧
      RipPast s t p.2.length ∧ OnlyVec s t (vexDest h reg)

/-- VPUNPCKHBW and VPUNPCKHWD, EVEX.128, EVEX.256 and EVEX.512 (rows 16, 17, 20, 21, 24, 25; R180 to R182): each result element
is the interleaved one, the old one or 0 by the writemask, and bits `MAXVL-1:VL` become 0. -/
def Obligations.EvexByteWordFormsComplete : Prop :=
  ∀ (vl : VecLen) (h : EvexHead) (w : Bool) (reg : BitVec 3) (rm : Rm) (s : State) (y : BitVec (vecBits vl)),
    ∀ p ∈ evexRowsC vl h w reg rm, EvexEnabled (rowFeatures p.2) s → EvexSupplies s (vecBits vl) h rm y →
      ∃ t, exec p.2 s = .next t ∧
        (∃ u, LaneInterleaved p.1 (vecBits vl) (s.readVec (vecBits vl) (evexFirst h)) y u ∧
          MaskedFrom s p.1 (vecBits vl) h.mask u (s.readVec (vecBits vl) (evexDest h reg))
            (t.readVec (vecBits vl) (evexDest h reg))) ∧
        ZeroFrom (vecBits vl) (t.readVec 512 (evexDest h reg)) ∧
        RipPast s t p.2.length ∧ OnlyVec s t (evexDest h reg)

/-- VPUNPCKHDQ and VPUNPCKHQDQ, EVEX.128, EVEX.256 and EVEX.512 (rows 18, 19, 22, 23, 26, 27; R180 to R182), from a register, a
full memory vector or a broadcast element. -/
def Obligations.EvexDoubleQuadFormsComplete : Prop :=
  ∀ (vl : VecLen) (h : EvexHead) (reg : BitVec 3) (rm : RmBcst) (s : State) (y : BitVec (vecBits vl)),
    ∀ p ∈ evexRowsD vl h reg rm, EvexEnabled (rowFeatures p.2) s → EvexBcstSupplies s p.1 (vecBits vl) h rm y →
      ∃ t, exec p.2 s = .next t ∧
        (∃ u, LaneInterleaved p.1 (vecBits vl) (s.readVec (vecBits vl) (evexFirst h)) y u ∧
          MaskedFrom s p.1 (vecBits vl) h.mask u (s.readVec (vecBits vl) (evexDest h reg))
            (t.readVec (vecBits vl) (evexDest h reg))) ∧
        ZeroFrom (vecBits vl) (t.readVec 512 (evexDest h reg)) ∧
        RipPast s t p.2.length ∧ OnlyVec s t (evexDest h reg)

/-- R23: an instruction that completes advances RIP past itself; one that faults leaves RIP at its first byte; and a
RIP-relative operand is addressed from the advanced value. -/
def Obligations.RipAdvancesByLength : Prop :=
  (∀ i s t, exec i s = .next t → RipPast s t i.length) ∧
  (∀ i s f, exec i s = .fault f → f.final.rip = s.rip) ∧
  ∀ (s : State) (c : AddrContext) (d : BitVec 32), s.mode = .long64 → Prefix.addrSize ∉ c.prefixes →
    (s.effectiveAddress c (.ripRel d)).toInt = (((s.rip.toNat + c.length : Nat) : Int) + d.toInt).bmod (2 ^ 64)

/-- R36: what a completing instruction leaves unchanged, over all 27 forms. -/
def Obligations.InstructionsLeaveTheRestAlone : Prop :=
  ∀ i s t, exec i s = .next t → Unchanged s t ∧
    (formClass i ≠ .mmx → t.st = s.st ∧ t.tags = s.tags ∧ t.fsw = s.fsw) ∧
    (formClass i = .mmx → t.zmm = s.zmm) ∧ ∀ a, t.byteAt a = s.byteAt a

/-- R25: no form writes RFLAGS, MXCSR or an opmask register; and the whole outcome (completed, faulted with which vector and code,
or refused and why) is the same, but for the register itself in the state it ends in, whatever MXCSR holds and whatever RFLAGS
holds outside VM and AC. -/
def Obligations.FlagsUntouched : Prop :=
  (∀ i s t, endState (exec i s) = some t → t.rflags = s.rflags ∧ t.mxcsr = s.mxcsr ∧ t.k = s.k) ∧
  (∀ i s v, exec i { s with mxcsr := v } = mapOutcome (fun t => { t with mxcsr := v }) (exec i s)) ∧
  ∀ i s v, bitAt v 17 = bitAt s.rflags 17 → bitAt v 18 = bitAt s.rflags 18 →
    exec i { s with rflags := v } = mapOutcome (fun t => { t with rflags := v }) (exec i s)

/-! ### Exceptions -/

/-- R212, R213, R214, with R27 and R180 for `MAXVL`: the conditions of `#UD` by mode, control state and feature, and no others,
make a form `#UD` when it is executed. -/
def Obligations.UdExactlyByState : Prop :=
  ∀ i s, exec i s = .fault (.ud s) ↔ UdByState i s

/-- R215: `#NM` exactly when `CR0.TS = 1` and no `#UD` condition holds, with no error code. -/
def Obligations.NmExactlyByTaskSwitched : Prop :=
  (∀ i s, exec i s = .fault (.nm s) ↔ ¬ UdByState i s ∧ s.ts = true) ∧
  ∀ i s f, exec i s = .fault f → f.vector = 7 → f = .nm s ∧ f.code = none

/-- R216: an MMX form with an x87 error pending is `#MF` where `CR0.NE = 1`. R216 and D20 refuse a launch state with `FSW.ES = 1` and
`CR0.NE = 0`: that the model refuses only the MMX form in it (U7), and only after the `#UD` and `#NM` checks, is the model's choice
(log entry 13). -/
def Obligations.MfExactlyByPendingX87Error : Prop :=
  ∀ i s, (exec i s = .fault (.mf s) ↔
      formClass i = .mmx ∧ ¬ UdByState i s ∧ s.ts = false ∧ s.es87 = true ∧ s.ne = true) ∧
    (exec i s = .refused .externalX87Error ↔
      formClass i = .mmx ∧ ¬ UdByState i s ∧ s.ts = false ∧ s.es87 = true ∧ s.ne = false)

/-- R67, R68: the checks of an operand read, in their order, and what each one answers. R71 refuses a side-effecting operand and no
rule places that refusal: that it comes after every fault check is the model's choice (log entry 19). -/
def Obligations.OperandChecksInOrder : Prop :=
  ∀ i s L a c m, Enabled i s → memOperand i = some (L, a, c, m) →
    match s.translate (operandSeg c m) (s.effectiveAddress c m) (L / 8) .dataRead with
    | .ss => exec i s = .fault (.ss s.zeroCode s)
    | .gp => exec i s = .fault (.gp s.zeroCode s)
    | .pf code x la =>
      if gpByAlignment a la = true then exec i s = .fault (.gp s.zeroCode s)
      else exec i s = .fault (.pf code { s with cr2 := x })
    | .ok la =>
      if gpByAlignment a la = true then exec i s = .fault (.gp s.zeroCode s)
      else if acByAlignment a s la = true then exec i s = .fault (.ac (some 0#32) s)
      else if s.sideEffect la (L / 8) = true then exec i s = .refused .sideEffectingRegion
      else ∃ t, exec i s = .next t

/-- R63: a legacy 128-bit memory source not on a 16-byte boundary is `#GP(0)`, whatever alignment checking says; the address
tested is the linear one, and the test comes before the page checks. -/
def Obligations.LegacyOperandsMustBeAligned : Prop :=
  ∀ (h : LegacyHead) (reg : BitVec 3) (m : Mem) (s : State), SseEnabled s →
    ∀ p ∈ sseRows h reg (.mem m),
      let c := legacyContext h (.mem m)
      s.segmentOk (operandSeg c m) (s.effectiveAddress c m) 16 .dataRead = true →
      (s.linear (operandSeg c m) (s.effectiveAddress c m)).toNat % 16 ≠ 0 →
      exec p.2 s = .fault (.gp s.zeroCode s)

/-- R64: a full-vector memory source of a VEX or EVEX form is read at any byte address. -/
def Obligations.VexAndEvexVectorsNeedNoAlignment : Prop :=
  ∀ i s L c m la, Enabled i s → memOperand i = some (L, .free, c, m) →
    s.translate (operandSeg c m) (s.effectiveAddress c m) (L / 8) .dataRead = .ok la → s.sideEffect la (L / 8) = false →
    ∃ t, exec i s = .next t

/-- R65, R221: `#AC(0)` arises only under `ac_on`, only from an MMX operand not on an 8-byte boundary or a broadcast element
not on its own, and there it does arise. For the broadcast element R65 itself holds the point in doubt (U9); the model takes the
exception, as R65 settles it, and does not refuse (log entry 18). -/
def Obligations.AlignmentCheckExactly : Prop :=
  (∀ s : State, s.acOn = true ↔ s.am = true ∧ s.acFlag = true ∧ s.currentCpl = 3#2) ∧
  (∀ i s f, exec i s = .fault f → f.vector = 17 → s.acOn = true ∧ ∃ L a c m la, memOperand i = some (L, a, c, m) ∧
    s.translate (operandSeg c m) (s.effectiveAddress c m) (L / 8) .dataRead = .ok la ∧ la.toNat % (L / 8) ≠ 0 ∧
    (a = .mmx ∨ a = .element (L / 8))) ∧
  ∀ i s L a c m la, Enabled i s → memOperand i = some (L, a, c, m) → (a = .mmx ∨ a = .element (L / 8)) → s.acOn = true →
    s.translate (operandSeg c m) (s.effectiveAddress c m) (L / 8) .dataRead = .ok la → la.toNat % (L / 8) ≠ 0 →
    exec i s = .fault (.ac (some 0#32) s)

/-- R66, R67, R220: when a byte fails the page check (paging on, and its page not present or not usable for the access at the current
privilege level); that an access whose segment checks pass is a page fault exactly when a byte of it fails; and that the fault names
the failing byte with the lowest linear address, with presence, privilege and kind of access in its code. That is the first failing
byte where the access does not wrap. The page table, its page size and its fields are the model's (log entry 5); for an access that
wraps the model follows R67 (log entry 26). -/
def Obligations.PageFaultNamesFirstByte : Prop :=
  (∀ (s : State) (acc : Access) (a : Word),
    (s.pagingOn = true ↔ s.pg = true ∧ s.pe = true) ∧
    (s.pageFault acc a = none ↔ s.pagingOn = false ∨ (s.pageOf a).present = true ∧
      (match acc with
        | .dataRead => if s.currentCpl = 3#2 then (s.pageOf a).userRead else (s.pageOf a).supRead
        | .fetch => if s.currentCpl = 3#2 then (s.pageOf a).userExec else (s.pageOf a).supExec) = true)) ∧
  ∀ (s : State) (r : Seg) (ea : Word) (n : Nat) (acc : Access),
    ((∃ code a la, s.translate r ea n acc = .pf code a la) ↔
      s.segmentOk r ea n acc = true ∧ ∃ k < n, s.pageFault acc (s.linAdd (s.linear r ea) k) ≠ none) ∧
    ∀ (code : BitVec 32) (a la : Word), s.translate r ea n acc = .pf code a la →
      la = s.linear r ea ∧ s.pageFault acc a = some code ∧ (∃ k < n, a = s.linAdd la k) ∧
      (∀ j < n, s.pageFault acc (s.linAdd la j) ≠ none → a.toNat ≤ (s.linAdd la j).toNat) ∧
      (la.toNat + n ≤ 2 ^ (if s.mode = .long64 then 64 else 32) →
        ∃ k < n, a = s.linAdd la k ∧ ∀ j < k, s.pageFault acc (s.linAdd la j) = none) ∧
      bitAt code 0 = (s.pageOf a).present ∧ bitAt code 1 = false ∧ bitAt code 2 = (s.currentCpl == 3#2) ∧
      bitAt code 4 = (acc == .fetch && s.cfg.pages.reportsFetch)

/-- R66, R75: the segment checks. In 64-bit mode every byte must be canonical (all bits from the top one of the linear width up are
equal); elsewhere the whole range must lie within the last offset, for a data read of a readable, non-null segment; a violation is
`#SS` through SS and `#GP` otherwise. An access that passes has the linear address of R66: outside 64-bit mode base plus offset
modulo `2^32`. The fields of a segment are the model's (log entry 16), and so is the wrap of the bytes after the first
(log entry 9); that a fetch needs no readable, non-null CS is DEDUCED (log entry 28). -/
def Obligations.SegmentChecks : Prop :=
  (∀ (width : Nat) (la : Word), 0 < width → width ≤ 64 →
    (canonical width la = true ↔ ∀ b < 64, width ≤ b + 1 → bitAt la b = bitAt la (width - 1))) ∧
  (∀ (s : State) (la : Word) (k : Nat),
    (s.linAdd la k).toNat = (la.toNat + k) % 2 ^ (if s.mode = .long64 then 64 else 32)) ∧
  (∀ (s : State) (r : Seg) (ea : Word),
    (s.mode ≠ .long64 → (s.linear r ea).toNat = ((s.seg r).base.toNat + ea.toNat) % 2 ^ 32) ∧
    ∀ n acc la, s.translate r ea n acc = .ok la → la = s.linear r ea) ∧
  (∀ (s : State) (r : Seg) (ea : Word) (n : Nat), 0 < n →
    let bad := s.translate r ea n .dataRead = if r = .ss then .ss else .gp
    (s.mode = .long64 → (bad ↔ ∃ k < n, canonical s.cfg.linearBits (s.linAdd (s.linear r ea) k) = false)) ∧
    ((s.mode = .real ∨ s.mode = .v86) →
      (bad ↔ (s.seg r).readable = false ∨ (s.seg r).nonNull = false ∨ 0xFFFF < ea.toNat + n - 1)) ∧
    ((s.mode = .prot16 ∨ s.mode = .prot32) →
      (bad ↔ (s.seg r).readable = false ∨ (s.seg r).nonNull = false ∨ (s.seg r).limit.toNat < ea.toNat + n - 1))) ∧
  ∀ (s : State) (ea : Word) (n : Nat), 0 < n →
    let bad := s.translate .cs ea n .fetch = .gp
    (s.mode = .long64 → (bad ↔ ∃ k < n, canonical s.cfg.linearBits (s.linAdd ea k) = false)) ∧
    ((s.mode = .real ∨ s.mode = .v86) → (bad ↔ 0xFFFF < ea.toNat + n - 1)) ∧
    ((s.mode = .prot16 ∨ s.mode = .prot32) → (bad ↔ s.cs.limit.toNat < ea.toNat + n - 1))

/-- R219: in `Real` mode no error code is reported and neither `#PF` nor `#AC` occurs; in `V86` mode a segment or alignment
violation carries the code 0. -/
def Obligations.RealModeReportsNoCode : Prop :=
  ∀ i s f, exec i s = .fault f →
    (s.mode = .real → f.code = none ∧ f.vector ≠ 14 ∧ f.vector ≠ 17) ∧
    (s.mode = .v86 → (f.vector = 12 ∨ f.vector = 13 ∨ f.vector = 17) → f.code = some 0#32)

/-- R225: a fault of a step leaves everything as it was before the instruction, but CR2 on `#PF`. -/
def Obligations.FaultsArePrecise : Prop :=
  ∀ s f, step s = .fault f → (f.vector ≠ 14 → f.final = s) ∧ f.final = { s with cr2 := f.final.cr2 }

/-- R210: the vectors and error codes a step can report, and which forms report `#MF` and `#AC`. -/
def Obligations.FaultVectorsAndCodes : Prop :=
  ∀ i s f, exec i s = .fault f →
    (f.vector = 6 ∨ f.vector = 7 ∨ f.vector = 12 ∨ f.vector = 13 ∨ f.vector = 14 ∨ f.vector = 16 ∨ f.vector = 17) ∧
    ((f.vector = 6 ∨ f.vector = 7 ∨ f.vector = 16) → f.code = none) ∧
    ((f.vector = 12 ∨ f.vector = 13) → f.code = if s.mode = .real then none else some 0#32) ∧
    (f.vector = 17 → f.code = some 0#32) ∧
    (f.vector = 16 → formClass i = .mmx) ∧
    ((f.vector = 12 ∨ f.vector = 13 ∨ f.vector = 14 ∨ f.vector = 17) → (memOperand i).isSome = true)

/-- R70: whatever the opmask registers hold, an EVEX form completes or stops alike. -/
def Obligations.MasksSuppressNoFault : Prop :=
  ∀ i s k', formClass i = .evex →
    match exec i s with
    | .next _ => ∃ t, exec i { s with k := k' } = .next t
    | .fault f => ∃ g, exec i { s with k := k' } = .fault g ∧ g.vector = f.vector ∧ g.code = f.code ∧
        g.final.cr2 = f.final.cr2
    | .refused r => exec i { s with k := k' } = .refused r

/-- R28, R181: of the opmask registers an EVEX form reads bits `KL-1:0` of the one it names, and nothing without a writemask:
the whole outcome is the same but for the opmask registers themselves. -/
def Obligations.OnlyLowMaskBitsAreRead : Prop :=
  ∀ (vl : VecLen) (h : EvexHead) (w : Bool) (reg : BitVec 3) (rm : Rm) (rmb : RmBcst) (s : State) (k' : Vector Word 8),
    ∀ p ∈ evexRowsC vl h w reg rm ++ evexRowsD vl h reg rmb,
      (h.mask ≠ .none → ∀ j < vecBits vl / p.1, bitAt k'[h.mask.aaa.toNat] j = bitAt s.k[h.mask.aaa.toNat] j) →
      exec p.2 { s with k := k' } = mapOutcome (fun t => { t with k := k' }) (exec p.2 s)

/-- The only refusals of an instruction are for the pending x87 error of R216 and D20 and for the side-effecting operand of R71. Both
rules refuse a launch state: that the model refuses the MMX form alone in the first (log entry 13), and an operand only once it
translates in the second (log entry 19), is the model's choice. -/
def Obligations.RefusalsAreTheTwoOfTheSpec : Prop :=
  ∀ i s r, exec i s = .refused r →
    (r = .externalX87Error ∧ formClass i = .mmx ∧ s.es87 = true ∧ s.ne = false) ∨
    (r = .sideEffectingRegion ∧ ∃ L a c m la, memOperand i = some (L, a, c, m) ∧
      s.translate (operandSeg c m) (s.effectiveAddress c m) (L / 8) .dataRead = .ok la ∧ s.sideEffect la (L / 8) = true)

/-! ### Equivalences -/

/-- R180: with no writemask, a register source and registers below 16, an EVEX.128 or EVEX.256 form gives the same vector registers as the VEX form
of the same width and opcode. -/
def Obligations.UnmaskedEvexEqualsVex : Prop :=
  ∀ (ps qs : List Prefix) (r x b w w' : Bool) (vvvv : BitVec 4) (reg rm : BitVec 3) (s t u : State),
    let e : EvexHead := ⟨ps, r, false, b, false, vvvv, false, .none⟩
    let v : VexHead := ⟨qs, .three r x b w', vvvv⟩
    ∀ p ∈ [(Instr.vpunpckhbwEvex128 e w reg (.reg rm), Instr.vpunpckhbwVex128 v reg (.reg rm)),
        (.vpunpckhwdEvex128 e w reg (.reg rm), .vpunpckhwdVex128 v reg (.reg rm)),
        (.vpunpckhdqEvex128 e reg (.reg rm), .vpunpckhdqVex128 v reg (.reg rm)),
        (.vpunpckhqdqEvex128 e reg (.reg rm), .vpunpckhqdqVex128 v reg (.reg rm)),
        (.vpunpckhbwEvex256 e w reg (.reg rm), .vpunpckhbwVex256 v reg (.reg rm)),
        (.vpunpckhwdEvex256 e w reg (.reg rm), .vpunpckhwdVex256 v reg (.reg rm)),
        (.vpunpckhdqEvex256 e reg (.reg rm), .vpunpckhdqVex256 v reg (.reg rm)),
        (.vpunpckhqdqEvex256 e reg (.reg rm), .vpunpckhqdqVex256 v reg (.reg rm))],
      exec p.1 s = .next t → exec p.2 s = .next u → t.zmm = u.zmm

/-- R69: a legacy 128-bit form has the same outcome (completed with the same state, faulted with the same vector and code, refused
for the same reason) whether an implementation fetches the whole operand or its upper half (log entry 15). -/
def Obligations.PartialFetchIsNotObservable : Prop :=
  ∀ (h : LegacyHead) (reg : BitVec 3) (rm : Rm) (s : State) (v : Bool), ∀ p ∈ sseRows h reg rm,
    exec p.2 { s with cfg := { s.cfg with partialFetch := v } }
      = mapOutcome (fun t => { t with cfg := { t.cfg with partialFetch := v } }) (exec p.2 s)

/-- R110: with a register source the two spellings of a VEX prefix have the same outcome (the same state, but for RIP past the one byte
more, the same fault, the same refusal). -/
def Obligations.VexSpellingsAgree : Prop :=
  ∀ (ps : List Prefix) (r w : Bool) (vvvv : BitVec 4) (reg rm : BitVec 3) (s : State),
    ∀ p ∈ (vex128Rows ⟨ps, .two r, vvvv⟩ reg (.reg rm) ++ vex256Rows ⟨ps, .two r, vvvv⟩ reg (.reg rm)).zip
        (vex128Rows ⟨ps, .three r false false w, vvvv⟩ reg (.reg rm) ++
          vex256Rows ⟨ps, .three r false false w, vvvv⟩ reg (.reg rm)),
      p.2.2.length = p.1.2.length + 1 ∧
      match exec p.1.2 s with
      | .next t => exec p.2.2 s = .next { t with rip := s.nextRip (p.1.2.length + 1) }
      | .fault f => exec p.2.2 s = .fault f
      | .refused q => exec p.2.2 s = .refused q

/-- R102, R100: on an `mm` register operand the REX bits are ignored. -/
def Obligations.RexIgnoredOnMmRegisters : Prop :=
  ∀ (ps : List Prefix) (x x' : Rex) (reg rm : BitVec 3) (s : State),
    ∀ p ∈ (mmxRows ⟨ps, some x⟩ reg (.reg rm)).zip (mmxRows ⟨ps, some x'⟩ reg (.reg rm)),
      exec p.1.2 s = exec p.2.2 s

/-! ### Register numbers and addresses -/

/-- R101, R110, R114: how register numbers are assembled, as numbers; and R100, R104, R110, R114: the bits `Bx` and `Xx` of a memory
operand are REX.B and REX.X (0 without REX), VEX.B and VEX.X (0 in the two-byte spelling), EVEX.B and EVEX.X. -/
def Obligations.RegisterNumbers : Prop :=
  (∀ (h : LegacyHead) (reg : BitVec 3), (legacyDest h reg).toNat = 8 * (rexR h).toNat + reg.toNat ∧
    (legacySrc h reg).toNat = 8 * (rexB h).toNat + reg.toNat) ∧
  (∀ (h : VexHead) (reg : BitVec 3), (vexDest h reg).toNat = 8 * (vexR h).toNat + reg.toNat ∧
    (vexFirst h).toNat = h.vvvv.toNat ∧ (vexSecond h reg).toNat = 8 * (vexB h).toNat + reg.toNat) ∧
  (∀ (h : EvexHead) (reg : BitVec 3), (evexDest h reg).toNat = 16 * h.r'.toNat + 8 * h.r.toNat + reg.toNat ∧
    (evexFirst h).toNat = 16 * h.v'.toNat + h.vvvv.toNat ∧
    (evexSecond h reg).toNat = 16 * h.x.toNat + 8 * h.b.toNat + reg.toNat) ∧
  (∀ (ps : List Prefix) (w r x b : Bool),
    (rexR ⟨ps, some ⟨w, r, x, b⟩⟩ = r ∧ rexB ⟨ps, some ⟨w, r, x, b⟩⟩ = b) ∧
    (rexR ⟨ps, none⟩ = false ∧ rexB ⟨ps, none⟩ = false)) ∧
  (∀ (ps : List Prefix) (r x b w : Bool) (vvvv : BitVec 4),
    (vexR ⟨ps, .two r, vvvv⟩ = r ∧ vexB ⟨ps, .two r, vvvv⟩ = false) ∧
    (vexR ⟨ps, .three r x b w, vvvv⟩ = r ∧ vexB ⟨ps, .three r x b w, vvvv⟩ = b)) ∧
  ∀ (i : Instr) (L : Nat) (a : AlignRule) (c : AddrContext) (m : Mem), memOperand i = some (L, a, c, m) →
    match instrHead i with
    | .legacy h => c.prefixes = h.prefixes ∧ c.length = i.length ∧
        (h.rex = none → c.b = false ∧ c.x = false) ∧ ∀ rex, h.rex = some rex → c.b = rex.b ∧ c.x = rex.x
    | .vex h => c.prefixes = h.prefixes ∧ c.length = i.length ∧
        (∀ r, h.spelling = .two r → c.b = false ∧ c.x = false) ∧
        ∀ r x b w, h.spelling = .three r x b w → c.b = b ∧ c.x = x
    | .evex h => c.prefixes = h.prefixes ∧ c.length = i.length ∧ c.b = h.b ∧ c.x = h.x

/-- R108: the address size of each mode, with and without a 67 prefix, and the zero extension of a 32-bit address. -/
def Obligations.AddressSizes : Prop :=
  (∀ (s : State) (c : AddrContext) (m : Mem), addressSize s.mode c.prefixes = .a32 →
    (s.effectiveAddress c m).toNat < 2 ^ 32) ∧
  ∀ ps : List Prefix,
    (Prefix.addrSize ∉ ps → addressSize .real ps = .a16 ∧ addressSize .v86 ps = .a16 ∧ addressSize .prot16 ps = .a16 ∧
      addressSize .prot32 ps = .a32 ∧ addressSize .long64 ps = .a64) ∧
    (Prefix.addrSize ∈ ps → addressSize .real ps = .a32 ∧ addressSize .v86 ps = .a32 ∧ addressSize .prot16 ps = .a32 ∧
      addressSize .prot32 ps = .a16 ∧ addressSize .long64 ps = .a32)

/-- R104, R105, R118: base, scaled index and displacement, as numbers modulo `2^64` or `2^32`; no index where `Xx::index = 0100`;
an 8-bit displacement times the factor of the class. -/
def Obligations.SibAddresses : Prop :=
  ∀ (s : State) (c : AddrContext) (scale : BitVec 2) (index b : BitVec 3) (d : BitVec 32)
      (v : BitVec 8) (A : Nat),
    (addressSize s.mode c.prefixes = .a64 ∧ A = 64 ∨ addressSize s.mode c.prefixes = .a32 ∧ A = 32) →
    let reg (n : BitVec 4) : Nat := (s.readGpr n).toNat % 2 ^ A
    let idx : Nat := if c.x = false ∧ index = 4#3 then 0 else reg (num4 c.x index) * 2 ^ scale.toNat
    let dsp : Nat := (d.signExtend 64).toNat
    let dsp8 : Nat := (v.signExtend 64).toNat * c.scale
    (s.effectiveAddress c (.base b (.d32 d))).toNat = (reg (num4 c.b b) + dsp) % 2 ^ A ∧
    (s.effectiveAddress c (.base b (.d8 v))).toNat = (reg (num4 c.b b) + dsp8) % 2 ^ A ∧
    (s.effectiveAddress c (.base b .none)).toNat = reg (num4 c.b b) ∧
    (s.effectiveAddress c (.sib scale index b (.d32 d))).toNat = (reg (num4 c.b b) + idx + dsp) % 2 ^ A ∧
    (s.effectiveAddress c (.sib scale index b (.d8 v))).toNat = (reg (num4 c.b b) + idx + dsp8) % 2 ^ A ∧
    (s.effectiveAddress c (.sib scale index b .none)).toNat = (reg (num4 c.b b) + idx) % 2 ^ A ∧
    (s.effectiveAddress c (.abs32 d)).toNat = dsp % 2 ^ A ∧
    (s.effectiveAddress c (.sibNoBase scale index d)).toNat = (idx + dsp) % 2 ^ A

/-- R106: RIP-relative addressing, its encoding, and its default segment. -/
def Obligations.RipRelativeAddresses : Prop :=
  (∀ (m : Mode) (d : BitVec 32) (rest : List Byte), takeMem32 (m = .long64) 0#2 5#3 (bytes32 d ++ rest)
    = some (if m = .long64 then .ripRel d else .abs32 d, rest)) ∧
  ∀ (s : State) (c : AddrContext) (d : BitVec 32), s.mode = .long64 →
    (Prefix.addrSize ∉ c.prefixes →
      (s.effectiveAddress c (.ripRel d)).toNat = (s.rip.toNat + c.length + (d.signExtend 64).toNat) % 2 ^ 64) ∧
    (Prefix.addrSize ∈ c.prefixes →
      (s.effectiveAddress c (.ripRel d)).toNat = (s.rip.toNat + c.length + (d.signExtend 64).toNat) % 2 ^ 32) ∧
    defaultSeg c.b (.ripRel d) = .ds

/-- R107: the sixteen-bit addresses, row by row, with their encodings and their default segments: the registers BX, BP, SI, DI are
`GPR` 3, 5, 6, 7. -/
def Obligations.SixteenBitAddresses : Prop :=
  (∀ ps, addressSize .long64 ps ≠ .a16) ∧
  (∀ (rm : BitVec 3) (d8 : BitVec 8) (d16 : BitVec 16) (rest : List Byte),
    (rm ≠ 6#3 → takeMem16 0#2 rm rest = some (.base16 rm .none, rest)) ∧
    takeMem16 0#2 6#3 (bytes16 d16 ++ rest) = some (.abs16 d16, rest) ∧
    takeMem16 1#2 rm (d8 :: rest) = some (.base16 rm (.d8 d8), rest) ∧
    takeMem16 2#2 rm (bytes16 d16 ++ rest) = some (.base16 rm (.d16 d16), rest)) ∧
  ∀ (s : State) (c : AddrContext) (d8 : BitVec 8) (d16 : BitVec 16),
    let reg (n : BitVec 4) : Nat := (s.readGpr n).toNat % 2 ^ 16
    (∀ p ∈ [(0#3, reg 3 + reg 6, Seg.ds), (1#3, reg 3 + reg 7, .ds), (2#3, reg 5 + reg 6, .ss), (3#3, reg 5 + reg 7, .ss),
        (4#3, reg 6, .ds), (5#3, reg 7, .ds), (6#3, reg 5, .ss), (7#3, reg 3, .ds)],
      (s.effectiveAddress c (.base16 p.1 .none)).toNat = p.2.1 % 2 ^ 16 ∧
      (s.effectiveAddress c (.base16 p.1 (.d8 d8))).toNat
        = (p.2.1 + (d8.signExtend 64 * BitVec.ofNat 64 c.scale).toNat) % 2 ^ 16 ∧
      (s.effectiveAddress c (.base16 p.1 (.d16 d16))).toNat = (p.2.1 + d16.toNat) % 2 ^ 16 ∧
      ∀ d, defaultSeg c.b (.base16 p.1 d) = p.2.2) ∧
    (s.effectiveAddress c (.abs16 d16)).toNat = d16.toNat ∧ defaultSeg c.b (.abs16 d16) = .ds

/-- R109: SS for a base register SP or BP, DS otherwise, and the last override instead of either; in 64-bit mode only FS and GS add
a base, elsewhere the linear address is base plus offset modulo `2^32` (R66), and in 64-bit mode a canonical violation is `#SS` only through SS (that an override decides it is the model's reading: log entry 10). -/
def Obligations.OperandSegments : Prop :=
  (∀ (s : State) (ea : Word), s.mode ≠ .long64 → ∀ r,
    (s.linear r ea).toNat = ((s.seg r).base.toNat + ea.toNat) % 2 ^ 32) ∧
  (∀ (s : State) (r : Seg) (ea : Word) (n : Nat) (acc : Access) (la : Word), s.translate r ea n acc = .ok la →
    la = s.linear r ea) ∧
  (∀ (s : State) (ea : Word), s.mode = .long64 →
    (∀ r ∈ [Seg.es, .cs, .ss, .ds], s.linear r ea = ea) ∧ s.linear .fs ea = s.fs.base + ea ∧ s.linear .gs ea = s.gs.base + ea ∧
    ∀ r n, s.translate r ea n .dataRead = .ss → r = .ss) ∧
  (∀ (b : Bool) (rm : BitVec 3) (d : Disp16) (d16 : BitVec 16) (d32 : BitVec 32),
    defaultSeg b (.base16 rm d) = (if rm ∈ [2#3, 3#3, 6#3] then .ss else .ds) ∧ defaultSeg b (.abs16 d16) = .ds ∧
    defaultSeg b (.ripRel d32) = .ds) ∧
  ∀ (c : AddrContext) (scale : BitVec 2) (index b : BitVec 3) (d : Disp) (d32 : BitVec 32) (r : Seg) (ps qs : List Prefix),
    (((num4 c.b b).toNat = 4 ∨ (num4 c.b b).toNat = 5) →
      defaultSeg c.b (.base b d) = .ss ∧ defaultSeg c.b (.sib scale index b d) = .ss) ∧
    (((num4 c.b b).toNat ≠ 4 ∧ (num4 c.b b).toNat ≠ 5) →
      defaultSeg c.b (.base b d) = .ds ∧ defaultSeg c.b (.sib scale index b d) = .ds) ∧
    defaultSeg c.b (.sibNoBase scale index d32) = .ds ∧ defaultSeg c.b (.abs32 d32) = .ds ∧
    (∀ m, (∀ q ∈ c.prefixes, ∀ g, q ≠ .seg g) → operandSeg c m = defaultSeg c.b m) ∧
    ∀ m, c.prefixes = ps ++ .seg r :: qs → (∀ q ∈ qs, ∀ g, q ≠ .seg g) → operandSeg c m = r

/-- R118: the factor of an 8-bit displacement is the number of bytes the EVEX instruction reads; other displacements and the
other classes are not scaled. -/
def Obligations.CompressedDisplacement : Prop :=
  (∀ (vl : VecLen) (h : EvexHead) (w : Bool) (reg : BitVec 3) (m : Mem) (p : Nat × Instr) (L : Nat) (a : AlignRule)
      (c : AddrContext) (n : Mem), memOperand p.2 = some (L, a, c, n) →
    (p ∈ evexRowsC vl h w reg (.mem m) → c.scale = vecBits vl / 8) ∧
    (p ∈ evexRowsD vl h reg (.mem m) → c.scale = vecBits vl / 8) ∧
    (p ∈ evexRowsD vl h reg (.bcst m) → c.scale = p.1 / 8)) ∧
  (∀ i L a c m, memOperand i = some (L, a, c, m) → (formClass i = .evex → c.scale = L / 8) ∧
    (formClass i ≠ .evex → c.scale = 1)) ∧
  ∀ (s : State) (c : AddrContext) (b : BitVec 3) (v : BitVec 8), addressSize s.mode c.prefixes = .a64 →
    (s.effectiveAddress c (.base b (.d8 v))).toInt
      = ((s.readGpr (num4 c.b b)).toInt + v.toInt * (c.scale : Int)).bmod (2 ^ 64)

/-! ### Encoding -/

/-- Decoding the encoding of a well-formed instruction of any mode gives it back, and the bytes after it. -/
def Obligations.DecodeOfEncode : Prop :=
  ∀ (m : Mode) (i : Instr) (rest : List Byte), i.wf m = true → decode m (encode i ++ rest) = .ok i rest

/-- Encoding what was decoded gives the bytes back: no bit of an encoding is dropped. -/
def Obligations.EncodeOfDecode : Prop :=
  ∀ (m : Mode) (bs : List Byte) (i : Instr) (rest : List Byte), decode m bs = .ok i rest → encode i ++ rest = bs

/-- What the decoder answers has fields an encoding of the mode can hold, and the length of the bytes it was read from; on at most 15
bytes it is a well-formed instruction of the mode (R96). -/
def Obligations.DecodedIsWellFormed : Prop :=
  ∀ (m : Mode) (bs : List Byte) (i : Instr) (rest : List Byte), decode m bs = .ok i rest →
    i.fieldsWf m = true ∧ i.length + rest.length = bs.length ∧ (bs.length ≤ 15 → i.wf m = true)

/-- R99, R98, R111, R115: a LOCK prefix before any form is `#UD`; F2 or F3 before a legacy form is refused; 66, F2 or F3 before a VEX
or EVEX form is `#UD`; and a REX prefix immediately before `C4`, `C5` or `62`, after the other prefixes, is `#UD` in 64-bit mode, and
elsewhere another instruction (R97 step 2). -/
def Obligations.ForbiddenPrefixes : Prop :=
  ∀ (m : Mode) (i : Instr) (rest : List Byte), i.fieldsWf m = true →
    decode m (Prefix.lock.byte :: (encode i ++ rest)) = .ud .lock ∧
    ((formClass i = .mmx ∨ formClass i = .sse) → ∀ q ∈ [Prefix.rep, Prefix.repne],
      decode m (q.byte :: (encode i ++ rest)) = .refuse .repOnLegacy) ∧
    ((formClass i = .vex ∨ formClass i = .evex) → ∀ q ∈ [Prefix.rep, Prefix.repne, Prefix.opSize],
      decode m (q.byte :: (encode i ++ rest)) = .ud .prefixBeforeVex) ∧
    ∀ (ps : List Prefix) (b : Byte) (bs : List Byte) (rex : Rex), encode i = encodePrefixes ps ++ b :: bs →
      b ∈ [0xC4#8, 0xC5#8, 0x62#8] →
      decode m (encodePrefixes ps ++ rex.byte :: b :: (bs ++ rest))
        = if m = .long64 then .ud .prefixBeforeVex else .refuse .notInScope

/-- Words written out from the spec's encodings decode to the instructions they stand for (R145, R151, R161, R165, R114, R185, R191). -/
def Obligations.SpecWordsDecode : Prop :=
  decode .long64 [0x0F#8, 0x68#8, 0xC1#8] = .ok (.punpckhbwMm ⟨[], none⟩ 0#3 (.reg 1#3)) [] ∧
  decode .long64 [0x66#8, 0x0F#8, 0x6D#8, 0xC1#8] = .ok (.punpckhqdqXmm ⟨[.opSize], none⟩ 0#3 (.reg 1#3)) [] ∧
  decode .long64 [0xC5#8, 0xE9#8, 0x68#8, 0xCB#8] = .ok (.vpunpckhbwVex128 ⟨[], .two false, 2#4⟩ 1#3 (.reg 3#3)) [] ∧
  decode .long64 [0xC4#8, 0xE1#8, 0xED#8, 0x68#8, 0xCB#8]
    = .ok (.vpunpckhbwVex256 ⟨[], .three false false false true, 2#4⟩ 1#3 (.reg 3#3)) [] ∧
  decode .long64 [0x62#8, 0x01#8, 0x2D#8, 0x40#8, 0x68#8, 0xCB#8]
    = .ok (.vpunpckhbwEvex512 ⟨[], true, true, true, true, 10#4, true, .none⟩ false 1#3 (.reg 3#3)) [] ∧
  decode .long64 [0x62#8, 0xF1#8, 0x6D#8, 0x19#8, 0x6A#8, 0x08#8]
    = .ok (.vpunpckhdqEvex128 ⟨[], false, false, false, false, 2#4, false, .merging 1#3⟩ 1#3 (.bcst (.base 0#3 .none))) []

/-- Words near the 27 forms are rejected by name (R119; for `0F 6D` without 66 log entry 23). -/
def Obligations.InvalidWordsRejected : Prop :=
  decode .long64 [0x0F#8, 0x6D#8, 0xC1#8] = .ud .mmxQuadword ∧
  decode .long64 [0x62#8, 0xF1#8, 0x6D#8, 0x88#8, 0x68#8, 0xCB#8] = .ud .zeroingWithoutMask ∧
  decode .long64 [0x62#8, 0xF1#8, 0x6D#8, 0x18#8, 0x68#8, 0xCB#8] = .ud .broadcastOfByteOrWord ∧
  decode .long64 [0x62#8, 0xF1#8, 0x6D#8, 0x18#8, 0x6A#8, 0xCB#8] = .ud .broadcastOfRegister ∧
  decode .long64 [0x62#8, 0xF1#8, 0xED#8, 0x08#8, 0x6A#8, 0xCB#8] = .ud .evexW ∧
  decode .long64 [0x62#8, 0xF1#8, 0x6D#8, 0x68#8, 0x68#8, 0xCB#8] = .ud .evexLength ∧
  decode .long64 [0x62#8, 0xF9#8, 0x6D#8, 0x08#8, 0x68#8, 0xCB#8] = .ud .evexReservedBit ∧
  decode .long64 [0xC5#8, 0xE8#8, 0x68#8, 0xCB#8] = .refuse .notInScope ∧
  decode .long64 [0x48#8, 0x66#8, 0x0F#8, 0x68#8, 0xC1#8] = .refuse .rexNotLast ∧
  decode .prot32 [0xC5#8, 0xA9#8, 0x68#8, 0xCB#8] = .refuse .notInScope ∧
  decode .prot32 [0xC4#8, 0xC1#8, 0x69#8, 0x68#8, 0xCB#8] = .refuse .registerAboveSeven ∧
  decode .real [0xC5#8, 0xE9#8, 0x68#8, 0xCB#8] = .ud .vexInRealOrV86

/-! ### The machine -/

/-- When the bytes of the instruction at RIP can be fetched, what the decoder answers on them is what the step does: the execution of
the instruction, `#UD` (R211), the refusal (D1, D11, D12; its place is the model's choice: log entry 27), or `#GP(0)` where 15 bytes
are not yet an instruction (R96). Nothing stands around it but the refusal of a state outside the model. -/
def Obligations.StepRunsDecoded : Prop :=
  ∀ (s : State) (bs : List Byte), s.insideModel = true → s.fetched = .ok bs →
    (∀ i rest, decode s.mode bs = .ok i rest → step s = exec i s) ∧
    (∀ c, decode s.mode bs = .ud c → step s = .fault (.ud s)) ∧
    (decode s.mode bs = .refuse .notInScope → step s = .refused .notInScope) ∧
    (decode s.mode bs = .refuse .repOnLegacy → step s = .refused .repOnLegacy) ∧
    (decode s.mode bs = .refuse .rexNotLast → step s = .refused .rexNotLast) ∧
    (decode s.mode bs = .refuse .registerAboveSeven → step s = .refused .registerAboveSeven) ∧
    (decode s.mode bs = .more → step s = .fault (.gp s.zeroCode s))

/-- R75, R264: when the encoding of a well-formed instruction stands in memory at CS:RIP and the fetch translates `(CS, RIP, len)` for
its own length, the step is its execution, whatever stands after it and whether or not that can be fetched. -/
def Obligations.StepRunsEncodedBytes : Prop :=
  ∀ (s : State) (i : Instr) (la : Word), s.insideModel = true → i.wf s.mode = true →
    (∀ k, (hk : k < (encode i).length) → s.byteAt (s.linAdd (s.linear .cs s.rip) k) = (encode i)[k]) →
    s.translate .cs s.rip i.length .fetch = .ok la → step s = exec i s

/-- R96, R218 (c): an instruction of more than 15 bytes is `#GP(0)`, whatever else would apply to it, unless one of its first 15 bytes
is a page fault of the fetch (R75). R222 puts both in step 1 and does not order them: that the range translated is the first 15
bytes, and that a page fault there goes before the `#GP(0)` for the length, is DEDUCED (log entry 25). -/
def Obligations.LongInstructionsFault : Prop :=
  ∀ (s : State) (i : Instr), s.insideModel = true → i.fieldsWf s.mode = true → 15 < i.length →
    (∀ k < 15, (encode i)[k]? = some (s.byteAt (s.linAdd (s.linear .cs s.rip) k))) →
    (∀ code a la, s.translate .cs s.rip 15 .fetch = .pf code a la → step s = .fault (.pf code { s with cr2 := a })) ∧
    ((∀ code a la, s.translate .cs s.rip 15 .fetch ≠ .pf code a la) → step s = .fault (.gp s.zeroCode s))

/-- R75, R222 step 1: the fault of translating `(CS, RIP, len)` is what the step reports, before anything the instruction would
report: for any bytes, with the length the decoder finds in memory (log entry 25), and so, for the encoding of a well-formed
instruction, with its own length, `#GP(0)` or the page fault. -/
def Obligations.FetchFaultsComeFirst : Prop :=
  (∀ (s : State) (f : Fault), s.insideModel = true → s.fetched = .error f → step s = .fault f) ∧
  ∀ (s : State) (i : Instr), s.insideModel = true → i.wf s.mode = true →
    (∀ k, (hk : k < (encode i).length) → s.byteAt (s.linAdd (s.linear .cs s.rip) k) = (encode i)[k]) →
    (s.translate .cs s.rip i.length .fetch = .gp → step s = .fault (.gp s.zeroCode s)) ∧
    ∀ code a la, s.translate .cs s.rip i.length .fetch = .pf code a la → step s = .fault (.pf code { s with cr2 := a })

/-- The model's choice (log entries 6 and 13, after R223 and R233): a state with `TF` or a breakpoint armed is refused. -/
def Obligations.OutsideModelIsRefused : Prop :=
  ∀ s : State, (bitAt s.rflags 8 = true ∨ s.dr7.extractLsb' 0 8 ≠ 0#8) → step s = .refused .outsideModel

/-- Every step keeps the invariant: canonical memory, absent bits 0 (the model's choice: log entry 14), RIP within 32 bits outside
64-bit mode. -/
def Obligations.StepKeepsInv : Prop :=
  ∀ s t : State, s.Inv → step s = .next t → t.Inv

/-- The invariant holds after reset (of the model's configuration: log entry 1). -/
def Obligations.ResetMeetsInv : Prop := State.reset.Inv

/-- R229, R265, R71: over a run of any length from any state, the mode, the privilege level, the configuration, the flags, the
control, segment, general and opmask registers and memory are what they were at launch (R21, R25, R28, R31, R32, R36; the x87 control
word is carried by log entry 24). -/
def Obligations.RunsKeepModeAndMemory : Prop :=
  ∀ (n : Nat) (s t : State), Host.Core.run Sys2Proof.core n s = .next t →
    t.mode = s.mode ∧ t.currentCpl = s.currentCpl ∧ t.mem = s.mem ∧ t.cfg = s.cfg ∧ t.rflags = s.rflags ∧ t.gpr = s.gpr ∧
    t.k = s.k ∧ t.cr0 = s.cr0 ∧ t.cr2 = s.cr2 ∧ t.cr3 = s.cr3 ∧ t.cr4 = s.cr4 ∧ t.xcr0 = s.xcr0 ∧ t.efer = s.efer ∧
    (∀ r, t.seg r = s.seg r) ∧ t.mxcsr = s.mxcsr ∧ t.fcw = s.fcw

/-- R32: the mode of each combination of the bits, and the privilege level of each mode: 0 in `Real`, 3 in `V86` (R219), the field
`cpl` in the others; `LMA` counts only where there is 64-bit mode (log entry 21). -/
def Obligations.ModeTable : Prop :=
  ∀ s : State,
    (s.pe = false → s.mode = .real ∧ s.currentCpl = 0#2) ∧
    (s.pe = true → s.vm = true → s.mode = .v86 ∧ s.currentCpl = 3#2) ∧
    (s.pe = true → s.vm = false → s.cfg.has64 = true → bitAt s.efer 10 = true → s.cs.l = true →
      s.mode = .long64 ∧ s.currentCpl = s.cpl) ∧
    (s.pe = true → s.vm = false → (s.cfg.has64 = false ∨ bitAt s.efer 10 = false ∨ s.cs.l = false) → s.cs.d = true →
      s.mode = .prot32 ∧ s.currentCpl = s.cpl) ∧
    (s.pe = true → s.vm = false → (s.cfg.has64 = false ∨ bitAt s.efer 10 = false ∨ s.cs.l = false) → s.cs.d = false →
      s.mode = .prot16 ∧ s.currentCpl = s.cpl)

/-- R260: the values after RESET that the spec gives (RDX, memory and the configuration are not among them; RAX is 0 where the
built-in self-test passed or was not run, and that this holds is the model's choice: log entry 29). -/
def Obligations.ResetValues : Prop :=
  (∀ r : BitVec 4, r ≠ 2#4 → State.reset.readGpr r = 0#64) ∧ State.reset.rip = 0xFFF0#64 ∧ State.reset.rflags = 0x2#64 ∧
  (∀ r : BitVec 5, State.reset.readVec 512 r = 0#512) ∧ (∀ r : BitVec 3, State.reset.k[r.toNat] = 0#64) ∧
  (∀ r : BitVec 3, State.reset.st[r.toNat] = 0#80 ∧ State.reset.tags[r.toNat] = true) ∧ State.reset.fsw = 0#16 ∧
  State.reset.fcw = 0x40#16 ∧ State.reset.mxcsr = 0x1F80#32 ∧ State.reset.cr0 = 0x60000010#64 ∧ State.reset.cr2 = 0#64 ∧
  State.reset.cr3 = 0#64 ∧ State.reset.cr4 = 0#64 ∧ State.reset.xcr0 = 1#64 ∧ State.reset.efer = 0#64 ∧
  State.reset.cs.selector = 0xF000#16 ∧ State.reset.cs.base = 0xFFFF0000#64 ∧ State.reset.cs.limit = 0xFFFF#32 ∧
  (State.reset.cs.present = true ∧ State.reset.cs.readable = true ∧ State.reset.cs.accessed = true ∧
    State.reset.cs.d = false ∧ State.reset.cs.l = false) ∧
  (∀ r ∈ [Seg.ss, .ds, .es, .fs, .gs], (State.reset.seg r).selector = 0#16 ∧ (State.reset.seg r).base = 0#64 ∧
    (State.reset.seg r).limit = 0xFFFF#32 ∧ (State.reset.seg r).present = true ∧ (State.reset.seg r).writable = true ∧
    (State.reset.seg r).accessed = true) ∧
  State.reset.dr0 = 0#64 ∧ State.reset.dr1 = 0#64 ∧ State.reset.dr2 = 0#64 ∧ State.reset.dr3 = 0#64 ∧
  State.reset.cpl = 0#2 ∧ State.reset.dr6 = 0xFFFF0FF0#64 ∧ State.reset.dr7 = 0x400#64 ∧ State.reset.armed = false

/-- R260, column "after INIT": the vector, opmask and x87 state, MXCSR, memory and the bits CD and NW of CR0 are kept, and every
other register is as after RESET (RAX: log entry 29; RDX: log entry 2). That CD and NW are bits 30 and 29 is PRESUMED (log entry 6), and INIT as a function that no step
raises is the model's choice (log entry 17). -/
def Obligations.InitKeepsVectorState : Prop :=
  ∀ s : State,
    s.initSignal.zmm = s.zmm ∧ s.initSignal.k = s.k ∧ s.initSignal.st = s.st ∧ s.initSignal.tags = s.tags ∧
    s.initSignal.fsw = s.fsw ∧ s.initSignal.fcw = s.fcw ∧ s.initSignal.mxcsr = s.mxcsr ∧ s.initSignal.mem = s.mem ∧
    s.initSignal.cfg = s.cfg ∧
    s.initSignal.gpr = State.reset.gpr ∧ (∀ r : BitVec 4, r ≠ 2#4 → s.initSignal.readGpr r = 0#64) ∧
    s.initSignal.rip = 0xFFF0#64 ∧ s.initSignal.rflags = 0x2#64 ∧
    s.initSignal.cr2 = 0#64 ∧ s.initSignal.cr3 = 0#64 ∧ s.initSignal.cr4 = 0#64 ∧ s.initSignal.xcr0 = 1#64 ∧
    s.initSignal.efer = 0#64 ∧ (∀ r, s.initSignal.seg r = State.reset.seg r) ∧ s.initSignal.cpl = 0#2 ∧
    s.initSignal.dr0 = 0#64 ∧ s.initSignal.dr1 = 0#64 ∧ s.initSignal.dr2 = 0#64 ∧ s.initSignal.dr3 = 0#64 ∧
    s.initSignal.dr6 = 0xFFFF0FF0#64 ∧ s.initSignal.dr7 = 0x400#64 ∧
    s.initSignal.mode = .real ∧ s.initSignal.currentCpl = 0#2 ∧
    bitAt s.initSignal.cr0 30 = bitAt s.cr0 30 ∧ bitAt s.initSignal.cr0 29 = bitAt s.cr0 29 ∧
    ∀ b, b ≠ 30 → b ≠ 29 → bitAt s.initSignal.cr0 b = decide (b = 4)

/-- R262: in the reset state an MMX form completes from any register, with 16-bit addressing, and every legacy 128-bit, VEX and EVEX
form is `#UD`; that the processor has every feature is the model's choice (log entry 1). -/
def Obligations.ResetStateRunsOnlyMmx : Prop :=
  (∀ (h : LegacyHead) (reg rm : BitVec 3), ∀ p ∈ mmxRows h reg (.reg rm), ∃ t, exec p.2 State.reset = .next t) ∧
  addressSize State.reset.mode [] = .a16 ∧
  ∀ i, formClass i ≠ .mmx → exec i State.reset = .fault (.ud State.reset)

/-- R261: the first fetch is from linear address `FFFFFFF0H`, in `Real` mode at privilege level 0 with paging off. -/
def Obligations.ResetVector : Prop :=
  (∀ n, n < 16 → State.reset.translate .cs State.reset.rip (n + 1) .fetch = .ok 0xFFFFFFF0#64) ∧ State.reset.mode = .real ∧ State.reset.currentCpl = 0#2 ∧
  State.reset.pagingOn = false ∧ addressSize State.reset.mode [] = .a16 ∧ State.reset.insideModel = true

end
end

