-- ==== Sys2Proof/Laws/Bits.lean ====
section
/-! SUPPORT. What the element functions do: the elements of a value built from elements, of an interleave, of a masked value and
of a broadcast, and that elements determine a value. -/

namespace Sys2Proof.Laws

open Sys2Proof.Machine

theorem elem_getLsbD {n : Nat} (v : BitVec n) (w i b : Nat) :
    (elem v w i).getLsbD b = (decide (b < w) && v.getLsbD (w * i + b)) := by
  simp [elem]

theorem lowBits_getLsbD {L : Nat} (n : Nat) (v : BitVec L) (b : Nat) :
    (lowBits n v).getLsbD b = (decide (b < n) && v.getLsbD b) := by
  by_cases hb : b < L
  · simp [lowBits, hb]
  · have := BitVec.getLsbD_of_ge v b (by omega)
    simp [lowBits, hb, this]

/-- Bit `b` of a value built from elements is bit `b % w` of element `b / w`. -/
theorem ofElems_getLsbD (L w : Nat) (hw : 0 < w) (f : Nat → BitVec w) (n b : Nat) :
    (ofElems L w f n).getLsbD b = (decide (b < L) && decide (b < w * n) && (f (b / w)).getLsbD (b % w)) := by
  induction n with
  | zero => simp [ofElems]
  | succ n ih =>
    rw [ofElems, BitVec.getLsbD_or, ih, BitVec.getLsbD_shiftLeft, BitVec.getLsbD_setWidth]
    have hs : w * (n + 1) = w * n + w := Nat.mul_succ w n
    by_cases hL : b < L
    · by_cases hlt : b < w * n
      · have : b < w * (n + 1) := by omega
        simp [hL, hlt, this]
      · by_cases hw1 : b < w * n + w
        · have hq : b / w = n := by
            apply Nat.div_eq_of_lt_le
            · rw [Nat.mul_comm]; omega
            · rw [Nat.mul_comm, Nat.mul_succ]; omega
          have hr : b % w = b - w * n := by
            have := Nat.div_add_mod b w
            rw [hq] at this; omega
          have : b - w * n < L := by omega
          simp [hL, hlt, hs, hw1, hq, hr, this]
        · have hge : (f n).getLsbD (b - w * n) = false := BitVec.getLsbD_of_ge _ _ (by omega)
          simp [hL, hlt, hs, hw1, hge]
    · simp [hL]

/-- Element `i` of a value built from elements. -/
theorem elem_ofElems (L w : Nat) (hw : 0 < w) (f : Nat → BitVec w) (n i : Nat) (hi : i < n) (hL : w * n ≤ L) :
    elem (ofElems L w f n) w i = f i := by
  apply BitVec.eq_of_getLsbD_eq
  intro b hb
  have h1 : w * i + b < w * n := by
    have : w * (i + 1) ≤ w * n := Nat.mul_le_mul_left w (by omega)
    rw [Nat.mul_succ] at this; omega
  have hq : (w * i + b) / w = i := by
    rw [Nat.mul_add_div hw, Nat.div_eq_of_lt hb, Nat.add_zero]
  have hr : (w * i + b) % w = b := by rw [Nat.mul_add_mod, Nat.mod_eq_of_lt hb]
  have h2 : w * i + b < L := by omega
  rw [elem_getLsbD, ofElems_getLsbD L w hw, hq, hr]
  simp [hb, h1, h2]

/-- Values with the same elements are the same value. -/
theorem eq_of_elem_eq {L w : Nat} (hw : 0 < w) (x y : BitVec L)
    (h : ∀ i, i ≤ (L - 1) / w → elem x w i = elem y w i) : x = y := by
  apply BitVec.eq_of_getLsbD_eq
  intro b hb
  have hi : b / w ≤ (L - 1) / w := Nat.div_le_div_right (by omega)
  have := congrArg (fun v => BitVec.getLsbD v (b % w)) (h (b / w) hi)
  have hm := Nat.mod_lt b hw
  simp only [elem_getLsbD, hm, Nat.div_add_mod b w, decide_true, Bool.true_and] at this
  exact this

/-- An element of an element: lanes and the elements in them. -/
theorem elem_elem {n : Nat} (v : BitVec n) (W w l i : Nat) (h : w * i + w ≤ W) (hd : w * (W / w) = W) :
    elem (elem v W l) w i = elem v w (W / w * l + i) := by
  apply BitVec.eq_of_getLsbD_eq
  intro b hb
  have h1 : w * i + b < W := by omega
  have h2 : W * l + (w * i + b) = w * (W / w * l + i) + b := by
    rw [Nat.mul_add, ← Nat.mul_assoc, hd]; omega
  rw [elem_getLsbD, elem_getLsbD, elem_getLsbD, h2]
  simp [hb, h1]

theorem interleaveHigh_even (w L j : Nat) (hw : 0 < w) (x y : BitVec L) (hj : j < L / w / 2) :
    elem (interleaveHigh w L x y) w (2 * j) = elem x w (L / w / 2 + j) := by
  rw [interleaveHigh, elem_ofElems L w hw _ _ _ (by omega) (Nat.mul_div_le L w)]
  simp

theorem interleaveHigh_odd (w L j : Nat) (hw : 0 < w) (x y : BitVec L) (hj : j < L / w / 2) :
    elem (interleaveHigh w L x y) w (2 * j + 1) = elem y w (L / w / 2 + j) := by
  rw [interleaveHigh, elem_ofElems L w hw _ _ _ (by omega) (Nat.mul_div_le L w)]
  have h1 : (2 * j + 1) % 2 = 1 := by omega
  have h2 : (2 * j + 1) / 2 = j := by omega
  simp [h1, h2]

/-- Lane `l` of the operation on a whole vector. -/
theorem unpackHigh_lane (w vl l : Nat) (x y : BitVec vl) (hl : l < vl / 128) :
    elem (unpackHigh w vl x y) 128 l = interleaveHigh w 128 (elem x 128 l) (elem y 128 l) := by
  rw [unpackHigh, elem_ofElems vl 128 (by omega) _ _ _ hl (Nat.mul_div_le vl 128)]

theorem applyMask_elem (w vl j : Nat) (hw : 0 < w) (k : Word) (z : Bool) (t d : BitVec vl) (hj : j < vl / w) :
    elem (applyMask w vl k z t d) w j = if bitAt k j then elem t w j else if z then 0#w else elem d w j := by
  rw [applyMask, elem_ofElems vl w hw _ _ _ hj (Nat.mul_div_le vl w)]

theorem broadcast_elem (w vl j : Nat) (hw : 0 < w) (m : BitVec w) (hj : j < vl / w) :
    elem (broadcast w vl m) w j = m := by
  rw [broadcast, elem_ofElems vl w hw _ _ _ hj (Nat.mul_div_le vl w)]

/-- The mask function looks at the low `vl / w` bits of the mask only. -/
theorem applyMask_congr (w vl : Nat) (k k' : Word) (z : Bool) (t d : BitVec vl)
    (h : ∀ j, j < vl / w → bitAt k j = bitAt k' j) : applyMask w vl k z t d = applyMask w vl k' z t d := by
  unfold applyMask
  generalize vl / w = n at h
  induction n with
  | zero => rfl
  | succ n ih =>
    rw [ofElems, ofElems, ih (fun j hj => h j (by omega)), h n (by omega)]

end Sys2Proof.Laws
end

