-- ==== Sys2Proof/Laws/State.lean ====
section
/-! SUPPORT. The fields of the state after each update of it. -/

namespace Sys2Proof.Laws

open Sys2Proof.Machine

/-! ### setVec -/

@[simp] theorem setVec_cfg {vl : Nat} (s : State) (r : BitVec 5) (v : BitVec vl) : (s.setVec r v).cfg = s.cfg := rfl
@[simp] theorem setVec_gpr {vl : Nat} (s : State) (r : BitVec 5) (v : BitVec vl) : (s.setVec r v).gpr = s.gpr := rfl
@[simp] theorem setVec_rip {vl : Nat} (s : State) (r : BitVec 5) (v : BitVec vl) : (s.setVec r v).rip = s.rip := rfl
@[simp] theorem setVec_rflags {vl : Nat} (s : State) (r : BitVec 5) (v : BitVec vl) : (s.setVec r v).rflags = s.rflags := rfl
@[simp] theorem setVec_k {vl : Nat} (s : State) (r : BitVec 5) (v : BitVec vl) : (s.setVec r v).k = s.k := rfl
@[simp] theorem setVec_st {vl : Nat} (s : State) (r : BitVec 5) (v : BitVec vl) : (s.setVec r v).st = s.st := rfl
@[simp] theorem setVec_tags {vl : Nat} (s : State) (r : BitVec 5) (v : BitVec vl) : (s.setVec r v).tags = s.tags := rfl
@[simp] theorem setVec_fsw {vl : Nat} (s : State) (r : BitVec 5) (v : BitVec vl) : (s.setVec r v).fsw = s.fsw := rfl
@[simp] theorem setVec_fcw {vl : Nat} (s : State) (r : BitVec 5) (v : BitVec vl) : (s.setVec r v).fcw = s.fcw := rfl
@[simp] theorem setVec_mxcsr {vl : Nat} (s : State) (r : BitVec 5) (v : BitVec vl) : (s.setVec r v).mxcsr = s.mxcsr := rfl
@[simp] theorem setVec_cr0 {vl : Nat} (s : State) (r : BitVec 5) (v : BitVec vl) : (s.setVec r v).cr0 = s.cr0 := rfl
@[simp] theorem setVec_cr2 {vl : Nat} (s : State) (r : BitVec 5) (v : BitVec vl) : (s.setVec r v).cr2 = s.cr2 := rfl
@[simp] theorem setVec_cr3 {vl : Nat} (s : State) (r : BitVec 5) (v : BitVec vl) : (s.setVec r v).cr3 = s.cr3 := rfl
@[simp] theorem setVec_cr4 {vl : Nat} (s : State) (r : BitVec 5) (v : BitVec vl) : (s.setVec r v).cr4 = s.cr4 := rfl
@[simp] theorem setVec_xcr0 {vl : Nat} (s : State) (r : BitVec 5) (v : BitVec vl) : (s.setVec r v).xcr0 = s.xcr0 := rfl
@[simp] theorem setVec_efer {vl : Nat} (s : State) (r : BitVec 5) (v : BitVec vl) : (s.setVec r v).efer = s.efer := rfl
@[simp] theorem setVec_es {vl : Nat} (s : State) (r : BitVec 5) (v : BitVec vl) : (s.setVec r v).es = s.es := rfl
@[simp] theorem setVec_cs {vl : Nat} (s : State) (r : BitVec 5) (v : BitVec vl) : (s.setVec r v).cs = s.cs := rfl
@[simp] theorem setVec_ss {vl : Nat} (s : State) (r : BitVec 5) (v : BitVec vl) : (s.setVec r v).ss = s.ss := rfl
@[simp] theorem setVec_ds {vl : Nat} (s : State) (r : BitVec 5) (v : BitVec vl) : (s.setVec r v).ds = s.ds := rfl
@[simp] theorem setVec_fs {vl : Nat} (s : State) (r : BitVec 5) (v : BitVec vl) : (s.setVec r v).fs = s.fs := rfl
@[simp] theorem setVec_gs {vl : Nat} (s : State) (r : BitVec 5) (v : BitVec vl) : (s.setVec r v).gs = s.gs := rfl
@[simp] theorem setVec_cpl {vl : Nat} (s : State) (r : BitVec 5) (v : BitVec vl) : (s.setVec r v).cpl = s.cpl := rfl
@[simp] theorem setVec_dr0 {vl : Nat} (s : State) (r : BitVec 5) (v : BitVec vl) : (s.setVec r v).dr0 = s.dr0 := rfl
@[simp] theorem setVec_dr1 {vl : Nat} (s : State) (r : BitVec 5) (v : BitVec vl) : (s.setVec r v).dr1 = s.dr1 := rfl
@[simp] theorem setVec_dr2 {vl : Nat} (s : State) (r : BitVec 5) (v : BitVec vl) : (s.setVec r v).dr2 = s.dr2 := rfl
@[simp] theorem setVec_dr3 {vl : Nat} (s : State) (r : BitVec 5) (v : BitVec vl) : (s.setVec r v).dr3 = s.dr3 := rfl
@[simp] theorem setVec_dr6 {vl : Nat} (s : State) (r : BitVec 5) (v : BitVec vl) : (s.setVec r v).dr6 = s.dr6 := rfl
@[simp] theorem setVec_dr7 {vl : Nat} (s : State) (r : BitVec 5) (v : BitVec vl) : (s.setVec r v).dr7 = s.dr7 := rfl
@[simp] theorem setVec_mem {vl : Nat} (s : State) (r : BitVec 5) (v : BitVec vl) : (s.setVec r v).mem = s.mem := rfl

/-! ### setXmm -/

@[simp] theorem setXmm_cfg (s : State) (r : BitVec 5) (v : BitVec 128) : (s.setXmm r v).cfg = s.cfg := rfl
@[simp] theorem setXmm_gpr (s : State) (r : BitVec 5) (v : BitVec 128) : (s.setXmm r v).gpr = s.gpr := rfl
@[simp] theorem setXmm_rip (s : State) (r : BitVec 5) (v : BitVec 128) : (s.setXmm r v).rip = s.rip := rfl
@[simp] theorem setXmm_rflags (s : State) (r : BitVec 5) (v : BitVec 128) : (s.setXmm r v).rflags = s.rflags := rfl
@[simp] theorem setXmm_k (s : State) (r : BitVec 5) (v : BitVec 128) : (s.setXmm r v).k = s.k := rfl
@[simp] theorem setXmm_st (s : State) (r : BitVec 5) (v : BitVec 128) : (s.setXmm r v).st = s.st := rfl
@[simp] theorem setXmm_tags (s : State) (r : BitVec 5) (v : BitVec 128) : (s.setXmm r v).tags = s.tags := rfl
@[simp] theorem setXmm_fsw (s : State) (r : BitVec 5) (v : BitVec 128) : (s.setXmm r v).fsw = s.fsw := rfl
@[simp] theorem setXmm_fcw (s : State) (r : BitVec 5) (v : BitVec 128) : (s.setXmm r v).fcw = s.fcw := rfl
@[simp] theorem setXmm_mxcsr (s : State) (r : BitVec 5) (v : BitVec 128) : (s.setXmm r v).mxcsr = s.mxcsr := rfl
@[simp] theorem setXmm_cr0 (s : State) (r : BitVec 5) (v : BitVec 128) : (s.setXmm r v).cr0 = s.cr0 := rfl
@[simp] theorem setXmm_cr2 (s : State) (r : BitVec 5) (v : BitVec 128) : (s.setXmm r v).cr2 = s.cr2 := rfl
@[simp] theorem setXmm_cr3 (s : State) (r : BitVec 5) (v : BitVec 128) : (s.setXmm r v).cr3 = s.cr3 := rfl
@[simp] theorem setXmm_cr4 (s : State) (r : BitVec 5) (v : BitVec 128) : (s.setXmm r v).cr4 = s.cr4 := rfl
@[simp] theorem setXmm_xcr0 (s : State) (r : BitVec 5) (v : BitVec 128) : (s.setXmm r v).xcr0 = s.xcr0 := rfl
@[simp] theorem setXmm_efer (s : State) (r : BitVec 5) (v : BitVec 128) : (s.setXmm r v).efer = s.efer := rfl
@[simp] theorem setXmm_es (s : State) (r : BitVec 5) (v : BitVec 128) : (s.setXmm r v).es = s.es := rfl
@[simp] theorem setXmm_cs (s : State) (r : BitVec 5) (v : BitVec 128) : (s.setXmm r v).cs = s.cs := rfl
@[simp] theorem setXmm_ss (s : State) (r : BitVec 5) (v : BitVec 128) : (s.setXmm r v).ss = s.ss := rfl
@[simp] theorem setXmm_ds (s : State) (r : BitVec 5) (v : BitVec 128) : (s.setXmm r v).ds = s.ds := rfl
@[simp] theorem setXmm_fs (s : State) (r : BitVec 5) (v : BitVec 128) : (s.setXmm r v).fs = s.fs := rfl
@[simp] theorem setXmm_gs (s : State) (r : BitVec 5) (v : BitVec 128) : (s.setXmm r v).gs = s.gs := rfl
@[simp] theorem setXmm_cpl (s : State) (r : BitVec 5) (v : BitVec 128) : (s.setXmm r v).cpl = s.cpl := rfl
@[simp] theorem setXmm_dr0 (s : State) (r : BitVec 5) (v : BitVec 128) : (s.setXmm r v).dr0 = s.dr0 := rfl
@[simp] theorem setXmm_dr1 (s : State) (r : BitVec 5) (v : BitVec 128) : (s.setXmm r v).dr1 = s.dr1 := rfl
@[simp] theorem setXmm_dr2 (s : State) (r : BitVec 5) (v : BitVec 128) : (s.setXmm r v).dr2 = s.dr2 := rfl
@[simp] theorem setXmm_dr3 (s : State) (r : BitVec 5) (v : BitVec 128) : (s.setXmm r v).dr3 = s.dr3 := rfl
@[simp] theorem setXmm_dr6 (s : State) (r : BitVec 5) (v : BitVec 128) : (s.setXmm r v).dr6 = s.dr6 := rfl
@[simp] theorem setXmm_dr7 (s : State) (r : BitVec 5) (v : BitVec 128) : (s.setXmm r v).dr7 = s.dr7 := rfl
@[simp] theorem setXmm_mem (s : State) (r : BitVec 5) (v : BitVec 128) : (s.setXmm r v).mem = s.mem := rfl

/-! ### setMm -/

@[simp] theorem setMm_cfg (s : State) (r : BitVec 3) (v : Word) : (s.setMm r v).cfg = s.cfg := rfl
@[simp] theorem setMm_gpr (s : State) (r : BitVec 3) (v : Word) : (s.setMm r v).gpr = s.gpr := rfl
@[simp] theorem setMm_rip (s : State) (r : BitVec 3) (v : Word) : (s.setMm r v).rip = s.rip := rfl
@[simp] theorem setMm_rflags (s : State) (r : BitVec 3) (v : Word) : (s.setMm r v).rflags = s.rflags := rfl
@[simp] theorem setMm_zmm (s : State) (r : BitVec 3) (v : Word) : (s.setMm r v).zmm = s.zmm := rfl
@[simp] theorem setMm_k (s : State) (r : BitVec 3) (v : Word) : (s.setMm r v).k = s.k := rfl
@[simp] theorem setMm_fcw (s : State) (r : BitVec 3) (v : Word) : (s.setMm r v).fcw = s.fcw := rfl
@[simp] theorem setMm_mxcsr (s : State) (r : BitVec 3) (v : Word) : (s.setMm r v).mxcsr = s.mxcsr := rfl
@[simp] theorem setMm_cr0 (s : State) (r : BitVec 3) (v : Word) : (s.setMm r v).cr0 = s.cr0 := rfl
@[simp] theorem setMm_cr2 (s : State) (r : BitVec 3) (v : Word) : (s.setMm r v).cr2 = s.cr2 := rfl
@[simp] theorem setMm_cr3 (s : State) (r : BitVec 3) (v : Word) : (s.setMm r v).cr3 = s.cr3 := rfl
@[simp] theorem setMm_cr4 (s : State) (r : BitVec 3) (v : Word) : (s.setMm r v).cr4 = s.cr4 := rfl
@[simp] theorem setMm_xcr0 (s : State) (r : BitVec 3) (v : Word) : (s.setMm r v).xcr0 = s.xcr0 := rfl
@[simp] theorem setMm_efer (s : State) (r : BitVec 3) (v : Word) : (s.setMm r v).efer = s.efer := rfl
@[simp] theorem setMm_es (s : State) (r : BitVec 3) (v : Word) : (s.setMm r v).es = s.es := rfl
@[simp] theorem setMm_cs (s : State) (r : BitVec 3) (v : Word) : (s.setMm r v).cs = s.cs := rfl
@[simp] theorem setMm_ss (s : State) (r : BitVec 3) (v : Word) : (s.setMm r v).ss = s.ss := rfl
@[simp] theorem setMm_ds (s : State) (r : BitVec 3) (v : Word) : (s.setMm r v).ds = s.ds := rfl
@[simp] theorem setMm_fs (s : State) (r : BitVec 3) (v : Word) : (s.setMm r v).fs = s.fs := rfl
@[simp] theorem setMm_gs (s : State) (r : BitVec 3) (v : Word) : (s.setMm r v).gs = s.gs := rfl
@[simp] theorem setMm_cpl (s : State) (r : BitVec 3) (v : Word) : (s.setMm r v).cpl = s.cpl := rfl
@[simp] theorem setMm_dr0 (s : State) (r : BitVec 3) (v : Word) : (s.setMm r v).dr0 = s.dr0 := rfl
@[simp] theorem setMm_dr1 (s : State) (r : BitVec 3) (v : Word) : (s.setMm r v).dr1 = s.dr1 := rfl
@[simp] theorem setMm_dr2 (s : State) (r : BitVec 3) (v : Word) : (s.setMm r v).dr2 = s.dr2 := rfl
@[simp] theorem setMm_dr3 (s : State) (r : BitVec 3) (v : Word) : (s.setMm r v).dr3 = s.dr3 := rfl
@[simp] theorem setMm_dr6 (s : State) (r : BitVec 3) (v : Word) : (s.setMm r v).dr6 = s.dr6 := rfl
@[simp] theorem setMm_dr7 (s : State) (r : BitVec 3) (v : Word) : (s.setMm r v).dr7 = s.dr7 := rfl
@[simp] theorem setMm_mem (s : State) (r : BitVec 3) (v : Word) : (s.setMm r v).mem = s.mem := rfl

/-! ### advance -/

@[simp] theorem advance_cfg (s : State) (len : Nat) : (s.advance len).cfg = s.cfg := rfl
@[simp] theorem advance_gpr (s : State) (len : Nat) : (s.advance len).gpr = s.gpr := rfl
@[simp] theorem advance_rflags (s : State) (len : Nat) : (s.advance len).rflags = s.rflags := rfl
@[simp] theorem advance_zmm (s : State) (len : Nat) : (s.advance len).zmm = s.zmm := rfl
@[simp] theorem advance_k (s : State) (len : Nat) : (s.advance len).k = s.k := rfl
@[simp] theorem advance_st (s : State) (len : Nat) : (s.advance len).st = s.st := rfl
@[simp] theorem advance_tags (s : State) (len : Nat) : (s.advance len).tags = s.tags := rfl
@[simp] theorem advance_fsw (s : State) (len : Nat) : (s.advance len).fsw = s.fsw := rfl
@[simp] theorem advance_fcw (s : State) (len : Nat) : (s.advance len).fcw = s.fcw := rfl
@[simp] theorem advance_mxcsr (s : State) (len : Nat) : (s.advance len).mxcsr = s.mxcsr := rfl
@[simp] theorem advance_cr0 (s : State) (len : Nat) : (s.advance len).cr0 = s.cr0 := rfl
@[simp] theorem advance_cr2 (s : State) (len : Nat) : (s.advance len).cr2 = s.cr2 := rfl
@[simp] theorem advance_cr3 (s : State) (len : Nat) : (s.advance len).cr3 = s.cr3 := rfl
@[simp] theorem advance_cr4 (s : State) (len : Nat) : (s.advance len).cr4 = s.cr4 := rfl
@[simp] theorem advance_xcr0 (s : State) (len : Nat) : (s.advance len).xcr0 = s.xcr0 := rfl
@[simp] theorem advance_efer (s : State) (len : Nat) : (s.advance len).efer = s.efer := rfl
@[simp] theorem advance_es (s : State) (len : Nat) : (s.advance len).es = s.es := rfl
@[simp] theorem advance_cs (s : State) (len : Nat) : (s.advance len).cs = s.cs := rfl
@[simp] theorem advance_ss (s : State) (len : Nat) : (s.advance len).ss = s.ss := rfl
@[simp] theorem advance_ds (s : State) (len : Nat) : (s.advance len).ds = s.ds := rfl
@[simp] theorem advance_fs (s : State) (len : Nat) : (s.advance len).fs = s.fs := rfl
@[simp] theorem advance_gs (s : State) (len : Nat) : (s.advance len).gs = s.gs := rfl
@[simp] theorem advance_cpl (s : State) (len : Nat) : (s.advance len).cpl = s.cpl := rfl
@[simp] theorem advance_dr0 (s : State) (len : Nat) : (s.advance len).dr0 = s.dr0 := rfl
@[simp] theorem advance_dr1 (s : State) (len : Nat) : (s.advance len).dr1 = s.dr1 := rfl
@[simp] theorem advance_dr2 (s : State) (len : Nat) : (s.advance len).dr2 = s.dr2 := rfl
@[simp] theorem advance_dr3 (s : State) (len : Nat) : (s.advance len).dr3 = s.dr3 := rfl
@[simp] theorem advance_dr6 (s : State) (len : Nat) : (s.advance len).dr6 = s.dr6 := rfl
@[simp] theorem advance_dr7 (s : State) (len : Nat) : (s.advance len).dr7 = s.dr7 := rfl
@[simp] theorem advance_mem (s : State) (len : Nat) : (s.advance len).mem = s.mem := rfl

@[simp] theorem setVec_zmm {vl : Nat} (s : State) (r : BitVec 5) (v : BitVec vl) :
    (s.setVec r v).zmm = s.zmm.set r.toNat (lowBits (vecBits s.cfg.maxvl) (v.setWidth 512)) := rfl
@[simp] theorem setXmm_zmm (s : State) (r : BitVec 5) (v : BitVec 128) :
    (s.setXmm r v).zmm = s.zmm.set r.toNat (s.zmm[r.toNat].extractLsb' 128 384 ++ v) := rfl
@[simp] theorem setMm_st (s : State) (r : BitVec 3) (v : Word) :
    (s.setMm r v).st = s.st.set r.toNat (0xFFFF#16 ++ v) := rfl
@[simp] theorem setMm_tags (s : State) (r : BitVec 3) (v : Word) :
    (s.setMm r v).tags = Vector.replicate 8 true := rfl
@[simp] theorem setMm_fsw (s : State) (r : BitVec 3) (v : Word) : (s.setMm r v).fsw = s.fsw &&& 0xC7FF#16 := rfl
@[simp] theorem advance_rip (s : State) (len : Nat) : (s.advance len).rip = s.nextRip len := rfl

/-! ### The mode is read from fields no update touches -/

@[simp] theorem setVec_mode {vl : Nat} (s : State) (r : BitVec 5) (v : BitVec vl) : (s.setVec r v).mode = s.mode := rfl
@[simp] theorem setXmm_mode (s : State) (r : BitVec 5) (v : BitVec 128) : (s.setXmm r v).mode = s.mode := rfl
@[simp] theorem setMm_mode (s : State) (r : BitVec 3) (v : Word) : (s.setMm r v).mode = s.mode := rfl
@[simp] theorem advance_mode (s : State) (len : Nat) : (s.advance len).mode = s.mode := rfl

end Sys2Proof.Laws
end

