-- ==== Sys2Proof/Laws/Ops.lean ====
section
/-! SUPPORT. What the shared operations can do, said once: registers, memory reads, exceptions, entry checks, translation,
the operand read. -/

namespace Sys2Proof.Laws

open Sys2Proof.Machine

/-! ### Registers -/

theorem readVec_setVec_same {vl : Nat} (s : State) (r : BitVec 5) (v : BitVec vl) :
    (s.setVec r v).readVec 512 r = lowBits (vecBits s.cfg.maxvl) (v.setWidth 512) := by
  simp [State.readVec]

theorem readVec_setVec_other {vl : Nat} (s : State) (r q : BitVec 5) (v : BitVec vl) (n : Nat) (h : q ≠ r) :
    (s.setVec r v).readVec n q = s.readVec n q := by
  have : r.toNat ≠ q.toNat := fun e => h (BitVec.eq_of_toNat_eq e.symm)
  simp [State.readVec, this]

theorem readVec_setXmm_same (s : State) (r : BitVec 5) (v : BitVec 128) :
    (s.setXmm r v).readVec 512 r = s.zmm[r.toNat].extractLsb' 128 384 ++ v := by
  simp [State.readVec]

theorem readVec_setXmm_other (s : State) (r q : BitVec 5) (v : BitVec 128) (n : Nat) (h : q ≠ r) :
    (s.setXmm r v).readVec n q = s.readVec n q := by
  have : r.toNat ≠ q.toNat := fun e => h (BitVec.eq_of_toNat_eq e.symm)
  simp [State.readVec, this]

/-- Bit `b` of the vector register a VEX or EVEX form writes. -/
theorem setVec_bit {vl : Nat} (s : State) (r : BitVec 5) (v : BitVec vl) (b : Nat) :
    bitAt ((s.setVec r v).readVec 512 r) b
      = (decide (b < vecBits s.cfg.maxvl) && (decide (b < 512) && bitAt v b)) := by
  rw [readVec_setVec_same, bitAt, lowBits_getLsbD, BitVec.getLsbD_setWidth, bitAt]

/-- Bit `b` of the vector register a legacy 128-bit form writes. -/
theorem setXmm_bit (s : State) (r : BitVec 5) (v : BitVec 128) (b : Nat) :
    bitAt ((s.setXmm r v).readVec 512 r) b = if b < 128 then bitAt v b else bitAt (s.readVec 512 r) b := by
  rw [readVec_setXmm_same, bitAt, BitVec.getLsbD_append]
  by_cases hb : b < 128
  · simp [hb, bitAt]
  · by_cases h5 : b < 512
    · have h1 : b - 128 < 384 := by omega
      have h2 : 128 + (b - 128) = b := by omega
      simp [hb, bitAt, State.readVec, h1, h2]
    · have : (s.readVec 512 r).getLsbD b = false := BitVec.getLsbD_of_ge _ _ (by omega)
      have h1 : ¬ b - 128 < 384 := by omega
      simp [hb, bitAt, this, h1]

/-- The low part of a register is a low part of the whole. -/
theorem readVec_bit (s : State) (vl : Nat) (r : BitVec 5) (b : Nat) (h : vl ≤ 512) :
    bitAt (s.readVec vl r) b = (decide (b < vl) && bitAt (s.readVec 512 r) b) := by
  simp only [bitAt, State.readVec, BitVec.getLsbD_setWidth]
  by_cases hb : b < vl
  · simp [hb, show b < 512 by omega]
  · simp [hb]

theorem readMm_setMm_same (s : State) (r : BitVec 3) (v : Word) : (s.setMm r v).readMm r = v := by
  simp only [State.readMm, setMm_st, Vector.getElem_set_self]
  apply BitVec.eq_of_getLsbD_eq
  intro b hb
  simp only [BitVec.getLsbD_setWidth, BitVec.getLsbD_append, hb, decide_true, Bool.true_and, if_true]

theorem st_setMm_other (s : State) (r q : BitVec 3) (v : Word) (h : q ≠ r) :
    (s.setMm r v).st[q.toNat] = s.st[q.toNat] := by
  have : r.toNat ≠ q.toNat := fun e => h (BitVec.eq_of_toNat_eq e.symm)
  simp [this]

/-! ### Memory reads -/

/-- Byte `k` of a little-endian read (R60). -/
theorem memRead_byte (s : State) (L k : Nat) (la : Word) (hk : k < L / 8) :
    elem (s.memRead L la) 8 k = s.byteAt (s.linAdd la k) := by
  rw [State.memRead, elem_ofElems L 8 (by omega) _ _ _ hk (Nat.mul_div_le L 8)]

/-! ### Exceptions -/

/-- Taking an exception leaves everything but CR2 as it was (R225). -/
theorem raise_final (x : Exn) (s : State) : (raise x s).final = { s with cr2 := (raise x s).final.cr2 } := by
  cases x <;> rfl

/-- Only a page fault writes CR2 (R225). -/
theorem raise_final_of_vector (x : Exn) (s : State) (h : (raise x s).vector ≠ 14) : (raise x s).final = s := by
  cases x <;> first | rfl | exact absurd rfl h

/-! ### Entry checks -/

/-- The four things the entry checks can answer, in their order (R222). -/
theorem entryStop_cases (c : FormClass) (fs : List Feature) (s : State) :
    ((udByMode c s || udByControl c s || udByFeature c fs s) = true ∧ entryStop c fs s = some (.fault (raise .ud s))) ∨
    ((udByMode c s || udByControl c s || udByFeature c fs s) = false ∧ s.ts = true ∧
      entryStop c fs s = some (.fault (raise .nm s))) ∨
    ((udByMode c s || udByControl c s || udByFeature c fs s) = false ∧ s.ts = false ∧ c = .mmx ∧ s.es87 = true ∧
      entryStop c fs s = if s.ne then some (.fault (raise .mf s)) else some (.refused .externalX87Error)) ∨
    ((udByMode c s || udByControl c s || udByFeature c fs s) = false ∧ s.ts = false ∧ ¬ (c = .mmx ∧ s.es87 = true) ∧
      entryStop c fs s = none) := by
  unfold entryStop
  by_cases hu : (udByMode c s || udByControl c s || udByFeature c fs s) = true
  · exact .inl ⟨hu, if_pos hu⟩
  · rw [if_neg hu]
    have hu' := Bool.eq_false_iff.2 hu
    by_cases ht : s.ts = true
    · exact .inr (.inl ⟨hu', ht, if_pos ht⟩)
    · rw [if_neg ht]
      have ht' := Bool.eq_false_iff.2 ht
      by_cases hm : c = .mmx ∧ s.es87 = true
      · refine .inr (.inr (.inl ⟨hu', ht', hm.1, hm.2, ?_⟩))
        simp [hm.1, hm.2]
      · refine .inr (.inr (.inr ⟨hu', ht', hm, ?_⟩))
        rw [if_neg]
        simpa using hm

/-! ### Translation -/

/-- No byte of the access fails. -/
theorem lowestPageFault_none (s : State) (acc : Access) (la : Word) (n : Nat) (h : s.lowestPageFault acc la n = none) :
    ∀ k < n, s.pageFault acc (s.linAdd la k) = none := by
  induction n with
  | zero => exact fun k hk => absurd hk (Nat.not_lt_zero k)
  | succ n ih =>
    intro k hk
    unfold State.lowestPageFault at h
    split at h
    · rename_i h1
      rcases Nat.lt_succ_iff_lt_or_eq.1 hk with hk | rfl
      · exact ih h k hk
      · exact h1
    · cases h
    · split at h <;> cases h

/-- The byte reported is one of the access, fails with the code reported, and no failing byte has a lower address (R67). -/
theorem lowestPageFault_some (s : State) (acc : Access) (la : Word) (n : Nat) (c : BitVec 32) (a : Word)
    (h : s.lowestPageFault acc la n = some (c, a)) :
    (∃ k < n, a = s.linAdd la k) ∧ s.pageFault acc a = some c ∧
      ∀ j < n, s.pageFault acc (s.linAdd la j) ≠ none → a ≤ s.linAdd la j := by
  induction n generalizing c a with
  | zero => cases h
  | succ n ih =>
    unfold State.lowestPageFault at h
    split at h
    · rename_i hn
      obtain ⟨⟨k, hk, he⟩, hc, hl⟩ := ih c a h
      refine ⟨⟨k, Nat.lt_succ_of_lt hk, he⟩, hc, fun j hj hf => ?_⟩
      rcases Nat.lt_succ_iff_lt_or_eq.1 hj with hj | rfl
      · exact hl j hj hf
      · exact absurd hn hf
    · rename_i c0 hn hr
      cases h
      refine ⟨⟨n, Nat.lt_succ_self n, rfl⟩, hn, fun j hj hf => ?_⟩
      rcases Nat.lt_succ_iff_lt_or_eq.1 hj with hj | rfl
      · exact absurd (lowestPageFault_none s acc la n hr j hj) hf
      · exact BitVec.le_refl _
    · rename_i c0 c' a' hn hr
      obtain ⟨⟨k, hk, he⟩, hc, hl⟩ := ih c' a' hr
      split at h <;> rename_i hle <;> cases h
      · refine ⟨⟨k, Nat.lt_succ_of_lt hk, he⟩, hc, fun j hj hf => ?_⟩
        rcases Nat.lt_succ_iff_lt_or_eq.1 hj with hj | rfl
        · exact hl j hj hf
        · exact hle
      · refine ⟨⟨n, Nat.lt_succ_self n, rfl⟩, hn, fun j hj hf => ?_⟩
        rcases Nat.lt_succ_iff_lt_or_eq.1 hj with hj | rfl
        · exact BitVec.le_trans (BitVec.le_of_lt (BitVec.not_le.1 hle)) (hl j hj hf)
        · exact BitVec.le_refl _

/-- The four things translation can answer (R66). -/
theorem translate_cases (s : State) (r : Seg) (ea : Word) (n : Nat) (acc : Access) :
    (s.segmentOk r ea n acc = false ∧ s.translate r ea n acc = if r = .ss then .ss else .gp) ∨
    (s.segmentOk r ea n acc = true ∧ ∃ c a, s.lowestPageFault acc (s.linear r ea) n = some (c, a) ∧
      s.translate r ea n acc = .pf c a (s.linear r ea)) ∨
    (s.segmentOk r ea n acc = true ∧ s.lowestPageFault acc (s.linear r ea) n = none ∧
      s.translate r ea n acc = .ok (s.linear r ea)) := by
  unfold State.translate
  by_cases hs : s.segmentOk r ea n acc = true
  · rw [if_pos hs]
    cases hp : s.lowestPageFault acc (s.linear r ea) n with
    | none => exact .inr (.inr ⟨hs, rfl, rfl⟩)
    | some p => exact .inr (.inl ⟨hs, p.1, p.2, rfl, rfl⟩)
  · exact .inl ⟨Bool.eq_false_iff.2 hs, if_neg hs⟩

/-! ### The operand read -/

/-- If the operand read succeeds, the address translated, every check passed, and the bytes come from memory (R68). -/
theorem loadOperand_ok (s : State) (L : Nat) (a : AlignRule) (r : Seg) (ea : Word) (y : BitVec L)
    (h : s.loadOperand L a r ea = .ok y) :
    ∃ la, s.translate r ea (L / 8) .dataRead = .ok la ∧ gpByAlignment a la = false ∧ acByAlignment a s la = false ∧
      s.sideEffect la (L / 8) = false ∧ y = s.fetchOperand L a la := by
  unfold State.loadOperand at h
  split at h
  · cases h
  · cases h
  · split at h <;> cases h
  · rename_i la hx
    split at h
    · cases h
    · split at h
      · cases h
      · split at h
        · cases h
        · rename_i h1 h2 h3
          cases h
          exact ⟨la, hx, Bool.eq_false_iff.2 h1, Bool.eq_false_iff.2 h2, Bool.eq_false_iff.2 h3, rfl⟩

/-- An operand that can be read is read (R68). -/
theorem loadOperand_of_readable (s : State) (L : Nat) (a : AlignRule) (r : Seg) (ea la : Word)
    (h1 : s.translate r ea (L / 8) .dataRead = .ok la) (h2 : gpByAlignment a la = false)
    (h3 : acByAlignment a s la = false) (h4 : s.sideEffect la (L / 8) = false) :
    s.loadOperand L a r ea = .ok (s.fetchOperand L a la) := by
  simp [State.loadOperand, h1, h2, h3, h4]

/-- If the operand read stops, it is by one of the exceptions of R68 or the refusal of R71. -/
theorem loadOperand_error (s : State) (L : Nat) (a : AlignRule) (r : Seg) (ea : Word) (e : Stop)
    (h : s.loadOperand L a r ea = .error e) :
    (∃ x, e = .fault (raise x s)) ∨ (e = .refused .sideEffectingRegion) := by
  unfold State.loadOperand at h
  split at h
  · cases h; exact .inl ⟨_, rfl⟩
  · cases h; exact .inl ⟨_, rfl⟩
  · split at h <;> (cases h; exact .inl ⟨_, rfl⟩)
  · split at h
    · cases h; exact .inl ⟨_, rfl⟩
    · split at h
      · cases h; exact .inl ⟨_, rfl⟩
      · split at h
        · cases h; exact .inr rfl
        · cases h

end Sys2Proof.Laws
end

