-- ==== Sys2Proof/Laws/Exec.lean ====
section
/-! SUPPORT. What each class's execution can do, said once: when it completes, with which state, and how it stops. -/

namespace Sys2Proof.Laws

open Sys2Proof.Machine

/-- A stop is by an exception taken in `s`, or by one of the two refusals of the meanings. -/
def StopsFrom (s : State) (e : Stop) : Prop :=
  (∃ x, e = .fault (raise x s)) ∨ e = .refused .externalX87Error ∨ e = .refused .sideEffectingRegion

theorem entryStop_stops (c : FormClass) (fs : List Feature) (s : State) (e : Stop) (h : entryStop c fs s = some e) :
    StopsFrom s e := by
  rcases entryStop_cases c fs s with ⟨-, h'⟩ | ⟨-, -, h'⟩ | ⟨-, -, -, -, h'⟩ | ⟨-, -, -, h'⟩
  · rw [h'] at h; cases h; exact .inl ⟨_, rfl⟩
  · rw [h'] at h; cases h; exact .inl ⟨_, rfl⟩
  · rw [h'] at h
    split at h <;> cases h
    · exact .inl ⟨_, rfl⟩
    · exact .inr (.inl rfl)
  · rw [h'] at h; cases h

theorem loadMem_stops (s : State) (L : Nat) (a : AlignRule) (c : AddrContext) (m : Mem) (e : Stop)
    (h : s.loadMem L a c m = .error e) : StopsFrom s e := by
  rcases loadOperand_error s L a _ _ e h with h' | h'
  · exact .inl h'
  · exact .inr (.inr h')

theorem mmxSource_stops (s : State) (h : LegacyHead) (rm : Rm) (e : Stop) (he : s.mmxSource h rm = .error e) :
    StopsFrom s e := by
  cases rm with
  | reg r => cases he
  | mem m => exact loadMem_stops s _ _ _ m e he

theorem sseSource_stops (s : State) (h : LegacyHead) (rm : Rm) (e : Stop) (he : s.sseSource h rm = .error e) :
    StopsFrom s e := by
  cases rm with
  | reg r => cases he
  | mem m => exact loadMem_stops s _ _ _ m e he

theorem vexSource_stops (s : State) (vl : Nat) (h : VexHead) (rm : Rm) (e : Stop) (he : s.vexSource vl h rm = .error e) :
    StopsFrom s e := by
  cases rm with
  | reg r => cases he
  | mem m => exact loadMem_stops s _ _ _ m e he

theorem evexSource_stops (s : State) (vl : Nat) (h : EvexHead) (rm : Rm) (e : Stop)
    (he : s.evexSource vl h rm = .error e) : StopsFrom s e := by
  cases rm with
  | reg r => cases he
  | mem m => exact loadMem_stops s _ _ _ m e he

theorem evexBcstSource_stops (s : State) (w vl : Nat) (h : EvexHead) (rm : RmBcst) (e : Stop)
    (he : s.evexBcstSource w vl h rm = .error e) : StopsFrom s e := by
  cases rm with
  | reg r => cases he
  | mem m => exact loadMem_stops s _ _ _ m e he
  | bcst m =>
    simp only [State.evexBcstSource] at he
    cases hl : s.loadMem w (.element (w / 8)) (evexContext h (w / 8) (h.length + (RmBcst.bcst m).length)) m with
    | ok y => rw [hl] at he; cases he
    | error e' =>
      rw [hl] at he
      cases he
      exact loadMem_stops s _ _ _ m _ hl

/-- The state an MMX form ends in, from its source (R143). -/
def mmxResult (w : Nat) (h : LegacyHead) (reg : BitVec 3) (rm : Rm) (s : State) (y : Word) : State :=
  (s.setMm reg (interleaveHigh w 64 (s.readMm reg) y)).advance (h.length + rm.length)

/-- The state a legacy 128-bit form ends in, from its source (R144). -/
def sseResult (w : Nat) (h : LegacyHead) (reg : BitVec 3) (rm : Rm) (s : State) (y : BitVec 128) : State :=
  (s.setXmm (legacyDest h reg) (interleaveHigh w 128 (s.readVec 128 (legacyDest h reg)) y)).advance (h.length + rm.length)

/-- The state a VEX form ends in, from its second source (R160). -/
def vexResult (w vl : Nat) (h : VexHead) (reg : BitVec 3) (rm : Rm) (s : State) (y : BitVec vl) : State :=
  (s.setVec (vexDest h reg) (unpackHigh w vl (s.readVec vl (vexFirst h)) y)).advance (h.length + rm.length)

/-- The state an EVEX form ends in, from its second source (R180). -/
def evexResult (w vl : Nat) (h : EvexHead) (reg : BitVec 3) (len : Nat) (s : State) (y : BitVec vl) : State :=
  (s.setVec (evexDest h reg) (s.masked w vl h.mask (unpackHigh w vl (s.readVec vl (evexFirst h)) y)
    (s.readVec vl (evexDest h reg)))).advance len

/-- What an MMX form can answer. -/
theorem execMmx_cases (w : Nat) (h : LegacyHead) (reg : BitVec 3) (rm : Rm) (s : State) :
    (∃ e, entryStop .mmx [.mmx] s = some e ∧ execMmx w h reg rm s = e.outcome) ∨
    (∃ e, entryStop .mmx [.mmx] s = none ∧ s.mmxSource h rm = .error e ∧ execMmx w h reg rm s = e.outcome) ∨
    (∃ y, entryStop .mmx [.mmx] s = none ∧ s.mmxSource h rm = .ok y ∧
      execMmx w h reg rm s = .next (mmxResult w h reg rm s y)) := by
  unfold execMmx mmxResult
  cases entryStop .mmx [.mmx] s with
  | some e => exact .inl ⟨e, rfl, rfl⟩
  | none =>
    cases s.mmxSource h rm with
    | error e => exact .inr (.inl ⟨e, rfl, rfl, rfl⟩)
    | ok y => exact .inr (.inr ⟨y, rfl, rfl, rfl⟩)

/-- What a legacy 128-bit form can answer. -/
theorem execSse_cases (w : Nat) (h : LegacyHead) (reg : BitVec 3) (rm : Rm) (s : State) :
    (∃ e, entryStop .sse [.sse2] s = some e ∧ execSse w h reg rm s = e.outcome) ∨
    (∃ e, entryStop .sse [.sse2] s = none ∧ s.sseSource h rm = .error e ∧ execSse w h reg rm s = e.outcome) ∨
    (∃ y, entryStop .sse [.sse2] s = none ∧ s.sseSource h rm = .ok y ∧
      execSse w h reg rm s = .next (sseResult w h reg rm s y)) := by
  unfold execSse sseResult
  cases entryStop .sse [.sse2] s with
  | some e => exact .inl ⟨e, rfl, rfl⟩
  | none =>
    cases s.sseSource h rm with
    | error e => exact .inr (.inl ⟨e, rfl, rfl, rfl⟩)
    | ok y => exact .inr (.inr ⟨y, rfl, rfl, rfl⟩)

/-- What a VEX form can answer. -/
theorem execVex_cases (w vl : Nat) (f : Feature) (h : VexHead) (reg : BitVec 3) (rm : Rm) (s : State) :
    (∃ e, entryStop .vex [f] s = some e ∧ execVex w vl f h reg rm s = e.outcome) ∨
    (∃ e, entryStop .vex [f] s = none ∧ s.vexSource vl h rm = .error e ∧ execVex w vl f h reg rm s = e.outcome) ∨
    (∃ y, entryStop .vex [f] s = none ∧ s.vexSource vl h rm = .ok y ∧
      execVex w vl f h reg rm s = .next (vexResult w vl h reg rm s y)) := by
  unfold execVex vexResult
  cases entryStop .vex [f] s with
  | some e => exact .inl ⟨e, rfl, rfl⟩
  | none =>
    cases s.vexSource vl h rm with
    | error e => exact .inr (.inl ⟨e, rfl, rfl, rfl⟩)
    | ok y => exact .inr (.inr ⟨y, rfl, rfl, rfl⟩)

/-- What an EVEX form can answer. -/
theorem execEvex_cases (w vl : Nat) (fs : List Feature) (h : EvexHead) (reg : BitVec 3) (src : Except Stop (BitVec vl))
    (len : Nat) (s : State) :
    (∃ e, entryStop .evex fs s = some e ∧ execEvex w vl fs h reg src len s = e.outcome) ∨
    (∃ e, entryStop .evex fs s = none ∧ src = .error e ∧ execEvex w vl fs h reg src len s = e.outcome) ∨
    (∃ y, entryStop .evex fs s = none ∧ src = .ok y ∧
      execEvex w vl fs h reg src len s = .next (evexResult w vl h reg len s y)) := by
  unfold execEvex evexResult
  cases entryStop .evex fs s with
  | some e => exact .inl ⟨e, rfl, rfl⟩
  | none =>
    cases src with
    | error e => exact .inr (.inl ⟨e, rfl, rfl, rfl⟩)
    | ok y => exact .inr (.inr ⟨y, rfl, rfl, rfl⟩)

/-! ### The instruction pointer (R23) -/

theorem nextRip_toNat (s : State) (len : Nat) :
    (s.nextRip len).toNat = (s.rip.toNat + len) % 2 ^ (if s.mode = .long64 then 64 else 32) := by
  unfold State.nextRip
  split
  · simp [BitVec.toNat_add]
  · simp [lowBits, BitVec.toNat_add]
    omega

end Sys2Proof.Laws
end

