-- ==== Sys2Proof/Laws/Answers.lean ====
section
/-! SUPPORT. What executing any of the 27 forms can answer, said once for all of them: a stop of the entry checks, a stop of the
operand read, or a next state with its frame. -/

namespace Sys2Proof.Laws

open Sys2Proof.Machine

/-- The frame of a form of the class `c` that has `len` bytes. -/
def Frame (c : FormClass) (len : Nat) (s t : State) : Prop :=
  t.rip = s.nextRip len ∧ Unchanged s t ∧ (c ≠ .mmx → t.st = s.st ∧ t.tags = s.tags ∧ t.fsw = s.fsw) ∧ (c = .mmx → t.zmm = s.zmm)

/-- The three answers: a stop of the entry checks, a stop of the read of the operand `o`, or a next state with its frame. -/
def Answers (c : FormClass) (fs : List Feature) (o : Option (Nat × AlignRule × AddrContext × Mem)) (len : Nat) (s : State)
    (out : Host.Outcome State Fault Refusal) : Prop :=
  (∃ e, entryStop c fs s = some e ∧ out = e.outcome) ∨
  (entryStop c fs s = none ∧ ∃ L a cx m e, o = some (L, a, cx, m) ∧
    s.loadOperand L a (operandSeg cx m) (s.effectiveAddress cx m) = .error e ∧ out = e.outcome) ∨
  (entryStop c fs s = none ∧
    (o = none ∨ ∃ L a cx m y, o = some (L, a, cx, m) ∧
      s.loadOperand L a (operandSeg cx m) (s.effectiveAddress cx m) = .ok y) ∧
    ∃ t, out = .next t ∧ Frame c len s t)

theorem mmxResult_frame (w : Nat) (h : LegacyHead) (reg : BitVec 3) (rm : Rm) (s : State) (y : Word) :
    Frame .mmx (h.length + rm.length) s (mmxResult w h reg rm s y) :=
  ⟨rfl, rfl, fun hc => absurd rfl hc, fun _ => rfl⟩

theorem sseResult_frame (w : Nat) (h : LegacyHead) (reg : BitVec 3) (rm : Rm) (s : State) (y : BitVec 128) :
    Frame .sse (h.length + rm.length) s (sseResult w h reg rm s y) :=
  ⟨rfl, rfl, fun _ => ⟨rfl, rfl, rfl⟩, fun hc => nomatch hc⟩

theorem vexResult_frame (w vl : Nat) (h : VexHead) (reg : BitVec 3) (rm : Rm) (s : State) (y : BitVec vl) :
    Frame .vex (h.length + rm.length) s (vexResult w vl h reg rm s y) :=
  ⟨rfl, rfl, fun _ => ⟨rfl, rfl, rfl⟩, fun hc => nomatch hc⟩

theorem evexResult_frame (w vl : Nat) (h : EvexHead) (reg : BitVec 3) (len : Nat) (s : State) (y : BitVec vl) :
    Frame .evex len s (evexResult w vl h reg len s y) :=
  ⟨rfl, rfl, fun _ => ⟨rfl, rfl, rfl⟩, fun hc => nomatch hc⟩

theorem execMmx_answers (w : Nat) (h : LegacyHead) (reg : BitVec 3) (rm : Rm) (s : State) :
    Answers .mmx [.mmx] (memOperand.legacyOperand 64 .mmx h rm) (h.length + rm.length) s (execMmx w h reg rm s) := by
  rcases execMmx_cases w h reg rm s with ⟨e, h1, h2⟩ | ⟨e, h0, h1, h2⟩ | ⟨y, h0, h1, h2⟩
  · exact .inl ⟨e, h1, h2⟩
  · cases rm with
    | reg r => cases h1
    | mem m => exact .inr (.inl ⟨h0, _, _, _, _, e, rfl, h1, h2⟩)
  · refine .inr (.inr ⟨h0, ?_, _, h2, mmxResult_frame ..⟩)
    cases rm with
    | reg r => exact .inl rfl
    | mem m => exact .inr ⟨_, _, _, _, y, rfl, h1⟩

theorem execSse_answers (w : Nat) (h : LegacyHead) (reg : BitVec 3) (rm : Rm) (s : State) :
    Answers .sse [.sse2] (memOperand.legacyOperand 128 .legacy128 h rm) (h.length + rm.length) s (execSse w h reg rm s) := by
  rcases execSse_cases w h reg rm s with ⟨e, h1, h2⟩ | ⟨e, h0, h1, h2⟩ | ⟨y, h0, h1, h2⟩
  · exact .inl ⟨e, h1, h2⟩
  · cases rm with
    | reg r => cases h1
    | mem m => exact .inr (.inl ⟨h0, _, _, _, _, e, rfl, h1, h2⟩)
  · refine .inr (.inr ⟨h0, ?_, _, h2, sseResult_frame ..⟩)
    cases rm with
    | reg r => exact .inl rfl
    | mem m => exact .inr ⟨_, _, _, _, y, rfl, h1⟩

theorem execVex_answers (w vl : Nat) (f : Feature) (h : VexHead) (reg : BitVec 3) (rm : Rm) (s : State) :
    Answers .vex [f] (memOperand.vexOperand vl h rm) (h.length + rm.length) s (execVex w vl f h reg rm s) := by
  rcases execVex_cases w vl f h reg rm s with ⟨e, h1, h2⟩ | ⟨e, h0, h1, h2⟩ | ⟨y, h0, h1, h2⟩
  · exact .inl ⟨e, h1, h2⟩
  · cases rm with
    | reg r => cases h1
    | mem m => exact .inr (.inl ⟨h0, _, _, _, _, e, rfl, h1, h2⟩)
  · refine .inr (.inr ⟨h0, ?_, _, h2, vexResult_frame ..⟩)
    cases rm with
    | reg r => exact .inl rfl
    | mem m => exact .inr ⟨_, _, _, _, y, rfl, h1⟩

theorem execEvexC_answers (w vl : Nat) (fs : List Feature) (h : EvexHead) (reg : BitVec 3) (rm : Rm) (s : State) :
    Answers .evex fs (memOperand.evexOperand vl h rm) (h.length + rm.length) s (execEvexC w vl fs h reg rm s) := by
  rcases execEvex_cases w vl fs h reg (s.evexSource vl h rm) (h.length + rm.length) s with
    ⟨e, h1, h2⟩ | ⟨e, h0, h1, h2⟩ | ⟨y, h0, h1, h2⟩
  · exact .inl ⟨e, h1, h2⟩
  · cases rm with
    | reg r => cases h1
    | mem m => exact .inr (.inl ⟨h0, _, _, _, _, e, rfl, h1, h2⟩)
  · refine .inr (.inr ⟨h0, ?_, _, h2, evexResult_frame ..⟩)
    cases rm with
    | reg r => exact .inl rfl
    | mem m => exact .inr ⟨_, _, _, _, y, rfl, h1⟩

theorem execEvexD_answers (w vl : Nat) (fs : List Feature) (h : EvexHead) (reg : BitVec 3) (rm : RmBcst) (s : State) :
    Answers .evex fs (memOperand.evexBcstOperand w vl h rm) (h.length + rm.length) s (execEvexD w vl fs h reg rm s) := by
  rcases execEvex_cases w vl fs h reg (s.evexBcstSource w vl h rm) (h.length + rm.length) s with
    ⟨e, h1, h2⟩ | ⟨e, h0, h1, h2⟩ | ⟨y, h0, h1, h2⟩
  · exact .inl ⟨e, h1, h2⟩
  · cases rm with
    | reg r => cases h1
    | mem m => exact .inr (.inl ⟨h0, _, _, _, _, e, rfl, h1, h2⟩)
    | bcst m =>
      simp only [State.evexBcstSource, State.loadMem] at h1
      cases hl : s.loadOperand w (.element (w / 8))
          (operandSeg (evexContext h (w / 8) (h.length + (RmBcst.bcst m).length)) m)
          (s.effectiveAddress (evexContext h (w / 8) (h.length + (RmBcst.bcst m).length)) m) with
      | ok y => rw [hl] at h1; cases h1
      | error e' =>
        rw [hl] at h1
        cases h1
        exact .inr (.inl ⟨h0, _, _, _, _, _, rfl, hl, h2⟩)
  · refine .inr (.inr ⟨h0, ?_, _, h2, evexResult_frame ..⟩)
    cases rm with
    | reg r => exact .inl rfl
    | mem m => exact .inr ⟨_, _, _, _, y, rfl, h1⟩
    | bcst m =>
      simp only [State.evexBcstSource, State.loadMem] at h1
      cases hl : s.loadOperand w (.element (w / 8))
          (operandSeg (evexContext h (w / 8) (h.length + (RmBcst.bcst m).length)) m)
          (s.effectiveAddress (evexContext h (w / 8) (h.length + (RmBcst.bcst m).length)) m) with
      | error e' => rw [hl] at h1; cases h1
      | ok y' => exact .inr ⟨_, _, _, _, y', rfl, hl⟩

/-- What executing any instruction can answer. -/
theorem exec_answers (i : Instr) (s : State) :
    Answers (formClass i) (rowFeatures i) (memOperand i) i.length s (exec i s) := by
  cases i with
  | punpckhbwMm h reg rm => exact execMmx_answers 8 h reg rm s
  | punpckhwdMm h reg rm => exact execMmx_answers 16 h reg rm s
  | punpckhdqMm h reg rm => exact execMmx_answers 32 h reg rm s
  | punpckhbwXmm h reg rm => exact execSse_answers 8 h reg rm s
  | punpckhwdXmm h reg rm => exact execSse_answers 16 h reg rm s
  | punpckhdqXmm h reg rm => exact execSse_answers 32 h reg rm s
  | punpckhqdqXmm h reg rm => exact execSse_answers 64 h reg rm s
  | vpunpckhbwVex128 h reg rm => exact execVex_answers 8 128 .avx h reg rm s
  | vpunpckhwdVex128 h reg rm => exact execVex_answers 16 128 .avx h reg rm s
  | vpunpckhdqVex128 h reg rm => exact execVex_answers 32 128 .avx h reg rm s
  | vpunpckhqdqVex128 h reg rm => exact execVex_answers 64 128 .avx h reg rm s
  | vpunpckhbwVex256 h reg rm => exact execVex_answers 8 256 .avx2 h reg rm s
  | vpunpckhwdVex256 h reg rm => exact execVex_answers 16 256 .avx2 h reg rm s
  | vpunpckhdqVex256 h reg rm => exact execVex_answers 32 256 .avx2 h reg rm s
  | vpunpckhqdqVex256 h reg rm => exact execVex_answers 64 256 .avx2 h reg rm s
  | vpunpckhbwEvex128 h w reg rm => exact execEvexC_answers 8 128 _ h reg rm s
  | vpunpckhwdEvex128 h w reg rm => exact execEvexC_answers 16 128 _ h reg rm s
  | vpunpckhdqEvex128 h reg rm => exact execEvexD_answers 32 128 _ h reg rm s
  | vpunpckhqdqEvex128 h reg rm => exact execEvexD_answers 64 128 _ h reg rm s
  | vpunpckhbwEvex256 h w reg rm => exact execEvexC_answers 8 256 _ h reg rm s
  | vpunpckhwdEvex256 h w reg rm => exact execEvexC_answers 16 256 _ h reg rm s
  | vpunpckhdqEvex256 h reg rm => exact execEvexD_answers 32 256 _ h reg rm s
  | vpunpckhqdqEvex256 h reg rm => exact execEvexD_answers 64 256 _ h reg rm s
  | vpunpckhbwEvex512 h w reg rm => exact execEvexC_answers 8 512 _ h reg rm s
  | vpunpckhwdEvex512 h w reg rm => exact execEvexC_answers 16 512 _ h reg rm s
  | vpunpckhdqEvex512 h reg rm => exact execEvexD_answers 32 512 _ h reg rm s
  | vpunpckhqdqEvex512 h reg rm => exact execEvexD_answers 64 512 _ h reg rm s

/-! ### Outcomes with another state at their end -/

@[simp] theorem mapOutcome_next (g : State → State) (t : State) : mapOutcome g (.next t) = .next (g t) := rfl
@[simp] theorem mapOutcome_fault (g : State → State) (f : Fault) : mapOutcome g (.fault f) = .fault (f.mapFinal g) := rfl
@[simp] theorem mapOutcome_refused (g : State → State) (r : Refusal) : mapOutcome g (.refused r) = .refused r := rfl
@[simp] theorem mapFinal_final (g : State → State) (f : Fault) : (f.mapFinal g).final = g f.final := by cases f <;> rfl
@[simp] theorem mapFinal_vector (g : State → State) (f : Fault) : (f.mapFinal g).vector = f.vector := by cases f <;> rfl
@[simp] theorem mapFinal_code (g : State → State) (f : Fault) : (f.mapFinal g).code = f.code := by cases f <;> rfl

/-- An exception taken after a change that keeps the mode and does not touch CR2 is the exception taken before it, with the change
in the state it ends in. -/
theorem raise_map (g : State → State) (x : Exn) (s : State) (hm : (g s).mode = s.mode)
    (hc : ∀ a, g { s with cr2 := a } = { g s with cr2 := a }) : raise x (g s) = (raise x s).mapFinal g := by
  have hz : (g s).zeroCode = s.zeroCode := by simp only [State.zeroCode, hm]
  cases x with
  | ss | gp => simp only [raise, Fault.mapFinal, hz]
  | pf code a => exact congrArg (Fault.pf code) (hc a).symm
  | ud | nm | mf | ac => rfl

end Sys2Proof.Laws
end

