-- ==== Sys2Proof/Laws/Fetch.lean ====
section
/-! SUPPORT. Bytes after an instruction do not change what the decoder answers, and what that makes of the length the fetch finds. -/

namespace Sys2Proof.Laws

open Sys2Proof.Machine

/-! ### More bytes at the end -/

/-- A decoder answer with more bytes left over. -/
def moreRest (xs : List Byte) : DecodeResult → DecodeResult
  | .ok i rest => .ok i (rest ++ xs)
  | .more => .more
  | .ud c => .ud c
  | .refuse c => .refuse c

theorem scanPrefixes_append (bs xs : List Byte) (h : (scanPrefixes bs).2 ≠ []) :
    scanPrefixes (bs ++ xs) = ((scanPrefixes bs).1, (scanPrefixes bs).2 ++ xs) := by
  induction bs with
  | nil => exact absurd rfl h
  | cons b bs ih =>
    simp only [List.cons_append, scanPrefixes] at h ⊢
    cases hb : prefixOf b with
    | none => rfl
    | some p =>
      rw [hb] at h
      rw [ih h]

theorem takeD8_append {bs r : List Byte} {d : BitVec 8} (xs : List Byte) (h : takeD8 bs = some (d, r)) :
    takeD8 (bs ++ xs) = some (d, r ++ xs) := by
  match bs, h with
  | _ :: _, h => cases h; rfl

theorem takeD16_append {bs r : List Byte} {d : BitVec 16} (xs : List Byte) (h : takeD16 bs = some (d, r)) :
    takeD16 (bs ++ xs) = some (d, r ++ xs) := by
  match bs, h with
  | _ :: _ :: _, h => cases h; rfl

theorem takeD32_append {bs r : List Byte} {d : BitVec 32} (xs : List Byte) (h : takeD32 bs = some (d, r)) :
    takeD32 (bs ++ xs) = some (d, r ++ xs) := by
  match bs, h with
  | _ :: _ :: _ :: _ :: _, h => cases h; rfl

/-- An answer of `f` on `bs`, mapped by `g`, stays with more bytes after them if it does unmapped. -/
theorem map_append {α β : Type} {f : List Byte → Option (α × List Byte)} {g : α → β} {bs r : List Byte} {b : β}
    (xs : List Byte) (hf : ∀ {d r}, f bs = some (d, r) → f (bs ++ xs) = some (d, r ++ xs))
    (h : ((f bs).map fun p => (g p.1, p.2)) = some (b, r)) :
    ((f (bs ++ xs)).map fun p => (g p.1, p.2)) = some (b, r ++ xs) := by
  obtain ⟨⟨d, r'⟩, h1, h2⟩ := Option.map_eq_some_iff.1 h
  cases h2
  rw [hf h1]; rfl

theorem takeDisp_append {mod : BitVec 2} {bs r : List Byte} {d : Disp} (xs : List Byte)
    (h : takeDisp mod bs = some (d, r)) : takeDisp mod (bs ++ xs) = some (d, r ++ xs) := by
  unfold takeDisp at h ⊢
  split at h <;> rename_i h0
  · rw [if_pos h0]; cases h; rfl
  · rw [if_neg h0]
    split at h <;> rename_i h1
    · rw [if_pos h1]; exact map_append xs (takeD8_append xs) h
    · rw [if_neg h1]; exact map_append xs (takeD32_append xs) h

theorem takeDisp16_append {mod : BitVec 2} {bs r : List Byte} {d : Disp16} (xs : List Byte)
    (h : takeDisp16 mod bs = some (d, r)) : takeDisp16 mod (bs ++ xs) = some (d, r ++ xs) := by
  unfold takeDisp16 at h ⊢
  split at h <;> rename_i h0
  · rw [if_pos h0]; cases h; rfl
  · rw [if_neg h0]
    split at h <;> rename_i h1
    · rw [if_pos h1]; exact map_append xs (takeD8_append xs) h
    · rw [if_neg h1]; exact map_append xs (takeD16_append xs) h

theorem takeMem16_append {mod : BitVec 2} {rm : BitVec 3} {bs r : List Byte} {x : Mem} (xs : List Byte)
    (h : takeMem16 mod rm bs = some (x, r)) : takeMem16 mod rm (bs ++ xs) = some (x, r ++ xs) := by
  unfold takeMem16 at h ⊢
  split at h <;> rename_i h0
  · rw [if_pos h0]; exact map_append xs (takeD16_append xs) h
  · rw [if_neg h0]; exact map_append xs (takeDisp16_append xs) h

theorem takeSib_append {mod : BitVec 2} {bs r : List Byte} {x : Mem} (xs : List Byte)
    (h : takeSib mod bs = some (x, r)) : takeSib mod (bs ++ xs) = some (x, r ++ xs) := by
  match bs, h with
  | _ :: bs, h =>
    simp only [List.cons_append, takeSib] at h ⊢
    split at h <;> rename_i h0
    · rw [if_pos h0]; exact map_append xs (takeD32_append xs) h
    · rw [if_neg h0]; exact map_append xs (takeDisp_append xs) h

theorem takeMem32_append {l : Bool} {mod : BitVec 2} {rm : BitVec 3} {bs r : List Byte} {x : Mem} (xs : List Byte)
    (h : takeMem32 l mod rm bs = some (x, r)) : takeMem32 l mod rm (bs ++ xs) = some (x, r ++ xs) := by
  unfold takeMem32 at h ⊢
  split at h <;> rename_i h0
  · rw [if_pos h0]; exact takeSib_append xs h
  · rw [if_neg h0]
    split at h <;> rename_i h1
    · rw [if_pos h1]; exact map_append (g := fun d => if l then Mem.ripRel d else Mem.abs32 d) xs (takeD32_append xs) h
    · rw [if_neg h1]; exact map_append xs (takeDisp_append xs) h

theorem takeModRM_append {m : Mode} {ps : List Prefix} {bs r : List Byte} {reg : BitVec 3} {rm : Rm} (xs : List Byte)
    (h : takeModRM m ps bs = some (reg, rm, r)) : takeModRM m ps (bs ++ xs) = some (reg, rm, r ++ xs) := by
  match bs, h with
  | b :: bs, h =>
    simp only [List.cons_append, takeModRM] at h ⊢
    split at h <;> rename_i h0
    · rw [if_pos h0]; cases h; rfl
    · rw [if_neg h0]
      split at h <;> rename_i h1 <;> obtain ⟨⟨x, r'⟩, h2, h3⟩ := Option.map_eq_some_iff.1 h <;> cases h3
      · rw [if_pos h1, takeMem16_append xs h2]; rfl
      · rw [if_neg h1, takeMem32_append xs h2]; rfl

theorem decodeLegacy_append (m : Mode) (ps : List Prefix) (rex : Option Rex) (bs xs : List Byte)
    (h : (decodeLegacy m ps rex bs).decided = true) :
    decodeLegacy m ps rex (bs ++ xs) = moreRest xs (decodeLegacy m ps rex bs) := by
  match bs, h with
  | op :: bs, h =>
    simp only [List.cons_append, decodeLegacy] at h ⊢
    cases hs : stemOf op with
    | none => rfl
    | some st =>
      simp only [hs] at h ⊢
      cases ht : takeModRM m ps bs with
      | none => rw [ht] at h; cases h
      | some p =>
        obtain ⟨reg, rm, r⟩ := p
        rw [takeModRM_append xs ht]
        dsimp only
        repeat' split
        all_goals rfl

theorem decodeVexBody_append (m : Mode) (ps : List Prefix) (rex : Option Rex) (sp : VexSpelling) (v : BitVec 4) (l : Bool)
    (pp : BitVec 2) (mm : BitVec 5) (bs xs : List Byte) (h : (decodeVexBody m ps rex sp v l pp mm bs).decided = true) :
    decodeVexBody m ps rex sp v l pp mm (bs ++ xs) = moreRest xs (decodeVexBody m ps rex sp v l pp mm bs) := by
  match bs, h with
  | op :: bs, h =>
    simp only [List.cons_append, decodeVexBody] at h ⊢
    cases hs : stemOf op with
    | none => rfl
    | some st =>
      simp only [hs] at h ⊢
      by_cases hp : pp ≠ 1#2 ∨ mm ≠ 1#5
      · rw [if_pos hp, if_pos hp]; rfl
      · rw [if_neg hp] at h ⊢
        rw [if_neg hp]
        cases ht : takeModRM m ps bs with
        | none => rw [ht] at h; cases h
        | some p =>
          obtain ⟨reg, rm, r⟩ := p
          rw [takeModRM_append xs ht]
          dsimp only
          repeat' split
          all_goals rfl

theorem decodeVex2_append (m : Mode) (ps : List Prefix) (rex : Option Rex) (bs xs : List Byte)
    (h : (decodeVex2 m ps rex bs).decided = true) :
    decodeVex2 m ps rex (bs ++ xs) = moreRest xs (decodeVex2 m ps rex bs) := by
  match bs, h with
  | v1 :: bs, h =>
    simp only [List.cons_append, decodeVex2] at h ⊢
    split at h
    · rw [if_pos ‹_›, if_pos ‹_›]; exact decodeVexBody_append _ _ _ _ _ _ _ _ _ _ h
    · rw [if_neg ‹_›, if_neg ‹_›]; rfl

theorem decodeVex3_append (m : Mode) (ps : List Prefix) (rex : Option Rex) (bs xs : List Byte)
    (h : (decodeVex3 m ps rex bs).decided = true) :
    decodeVex3 m ps rex (bs ++ xs) = moreRest xs (decodeVex3 m ps rex bs) := by
  match bs, h with
  | v1 :: bs, h =>
    simp only [List.cons_append, decodeVex3] at h ⊢
    split at h
    · rw [if_pos ‹_›, if_pos ‹_›]
      match bs, h with
      | v2 :: bs, h => exact decodeVexBody_append _ _ _ _ _ _ _ _ _ _ h
    · rw [if_neg ‹_›, if_neg ‹_›]; rfl

theorem finishEvex_append (m : Mode) (ps : List Prefix) (rex : Option Rex) (p0 p1 p2 : Byte) (st : Stem) (reg : BitVec 3)
    (rm : Rm) (rest xs : List Byte) :
    finishEvex m ps rex p0 p1 p2 st reg rm (rest ++ xs) = moreRest xs (finishEvex m ps rex p0 p1 p2 st reg rm rest) := by
  unfold finishEvex
  dsimp only
  repeat' split
  all_goals rfl

theorem decodeEvex_append (m : Mode) (ps : List Prefix) (rex : Option Rex) (bs xs : List Byte)
    (h : (decodeEvex m ps rex bs).decided = true) :
    decodeEvex m ps rex (bs ++ xs) = moreRest xs (decodeEvex m ps rex bs) := by
  match bs, h with
  | p0 :: bs, h =>
    simp only [List.cons_append, decodeEvex] at h ⊢
    by_cases hr : vexRecognised m p0 = true
    · rw [if_pos hr] at h ⊢
      rw [if_pos hr]
      match bs, h with
      | p1 :: p2 :: op :: bs, h =>
        simp only [List.cons_append] at h ⊢
        cases hs : stemOf op with
        | none => rfl
        | some st =>
          simp only [hs] at h ⊢
          by_cases hp : p1.extractLsb' 0 2 ≠ 1#2 ∨ p0.extractLsb' 0 3 ≠ 1#3
          · rw [if_pos hp, if_pos hp]; rfl
          · rw [if_neg hp] at h ⊢
            rw [if_neg hp]
            cases ht : takeModRM m ps bs with
            | none => rw [ht] at h; cases h
            | some p =>
              obtain ⟨reg, rm, r⟩ := p
              rw [takeModRM_append xs ht]
              exact finishEvex_append m ps rex p0 p1 p2 st reg rm r xs
    · rw [if_neg hr, if_neg hr]; rfl

theorem decodeClass_append (m : Mode) (ps : List Prefix) (rex : Option Rex) (bs xs : List Byte)
    (h : (decodeClass m ps rex bs).decided = true) :
    decodeClass m ps rex (bs ++ xs) = moreRest xs (decodeClass m ps rex bs) := by
  match bs, h with
  | b :: bs, h =>
    simp only [List.cons_append, decodeClass] at h ⊢
    by_cases h1 : b = 0x0F#8
    · simp only [h1, if_true] at h ⊢; exact decodeLegacy_append _ _ _ _ _ h
    · simp only [h1, if_false] at h ⊢
      by_cases h2 : b = 0xC5#8
      · simp only [h2, if_true] at h ⊢; exact decodeVex2_append _ _ _ _ _ h
      · simp only [h2, if_false] at h ⊢
        by_cases h3 : b = 0xC4#8
        · simp only [h3, if_true] at h ⊢; exact decodeVex3_append _ _ _ _ _ h
        · simp only [h3, if_false] at h ⊢
          by_cases h4 : b = 0x62#8
          · simp only [h4, if_true] at h ⊢; exact decodeEvex_append _ _ _ _ _ h
          · simp only [h4, if_false]; rfl

theorem decodeRex_append (m : Mode) (ps : List Prefix) (bs xs : List Byte) (h : (decodeRex m ps bs).decided = true) :
    decodeRex m ps (bs ++ xs) = moreRest xs (decodeRex m ps bs) := by
  match bs, h with
  | b :: bs, h =>
    simp only [List.cons_append, decodeRex] at h ⊢
    by_cases hr : m = .long64 ∧ isRex b = true
    · rw [if_pos hr] at h ⊢
      rw [if_pos hr]
      match bs, h with
      | c :: bs, h =>
        simp only [List.cons_append] at h ⊢
        by_cases hc : (prefixOf c).isSome = true
        · rw [if_pos hc, if_pos hc]; rfl
        · rw [if_neg hc] at h ⊢
          rw [if_neg hc]
          exact decodeClass_append _ _ _ (c :: bs) _ h
    · rw [if_neg hr] at h ⊢
      rw [if_neg hr]
      exact decodeClass_append _ _ _ (b :: bs) _ h

/-- What the decoder answers on some bytes it answers with any bytes after them (R97). -/
theorem decode_append (m : Mode) (bs xs : List Byte) (h : (decode m bs).decided = true) :
    decode m (bs ++ xs) = moreRest xs (decode m bs) := by
  unfold decode at h ⊢
  have hne : (scanPrefixes bs).2 ≠ [] := by
    intro he; rw [he] at h; cases h
  rw [scanPrefixes_append bs xs hne]
  exact decodeRex_append m _ _ xs h

/-! ### The length the fetch finds -/

/-- The decoder needs every byte of an instruction. -/
theorem decode_take_more (m : Mode) (bs : List Byte) (i : Instr) (k n : Nat) (hk : k < n) (hn : n ≤ bs.length)
    (h : decode m (bs.take n) = .ok i []) : decode m (bs.take k) = .more := by
  have hs : bs.take n = bs.take k ++ (bs.take n).drop k := by
    have := (List.take_append_drop k (bs.take n)).symm
    rwa [List.take_take, Nat.min_eq_left (Nat.le_of_lt hk)] at this
  have hx : (bs.take n).drop k ≠ [] := by
    intro he
    have := congrArg List.length he
    simp [hn] at this
    omega
  cases hd : decode m (bs.take k) with
  | more => rfl
  | ud c =>
    rw [hs, decode_append m _ _ (by rw [hd]; rfl), hd] at h; cases h
  | refuse c =>
    rw [hs, decode_append m _ _ (by rw [hd]; rfl), hd] at h; cases h
  | ok j r =>
    rw [hs, decode_append m _ _ (by rw [hd]; rfl), hd] at h
    simp only [moreRest, DecodeResult.ok.injEq, List.append_eq_nil_iff] at h
    exact absurd h.2.2 hx

/-- The length of the fetch is the fewest bytes on which the decoder answers, or 15. -/
theorem fetchLength_spec (m : Mode) (bs : List Byte) :
    (∀ k < fetchLength m bs, (decode m (bs.take k)).decided = false) ∧
    fetchLength m bs ≤ maxLength ∧
    (fetchLength m bs < maxLength → (decode m (bs.take (fetchLength m bs))).decided = true) := by
  unfold fetchLength
  cases hf : (List.range maxLength).find? fun n => (decode m (bs.take n)).decided with
  | none =>
    simp only [List.find?_eq_none, List.mem_range] at hf
    refine ⟨fun k hk => by simpa using hf k hk, Nat.le_refl _, fun h => absurd h (Nat.lt_irrefl _)⟩
  | some n =>
    rw [List.find?_range_eq_some] at hf
    refine ⟨fun k hk => by simpa using hf.2.2 k hk, Nat.le_of_lt (List.mem_range.1 hf.2.1), fun _ => hf.1⟩

/-- Where an instruction of at most 15 bytes stands at the front, the length of the fetch is its own. -/
theorem fetchLength_of_decode (m : Mode) (bs : List Byte) (i : Instr) (n : Nat) (hn : n ≤ maxLength) (hb : n ≤ bs.length)
    (h : decode m (bs.take n) = .ok i []) : fetchLength m bs = n := by
  obtain ⟨h1, h2, h3⟩ := fetchLength_spec m bs
  rcases Nat.lt_trichotomy (fetchLength m bs) n with hlt | heq | hgt
  · have := h3 (by omega)
    rw [decode_take_more m bs i _ n hlt hb h] at this; cases this
  · exact heq
  · have := h1 n hgt
    rw [h] at this; cases this

/-- What the fetch can answer (R75). -/
theorem fetched_cases (s : State) :
    (∃ la, s.translate .cs s.rip (fetchLength s.mode s.instrBytes) .fetch = .ok la ∧
      s.fetched = .ok (s.instrBytes.take (fetchLength s.mode s.instrBytes))) ∨
    (s.translate .cs s.rip (fetchLength s.mode s.instrBytes) .fetch = .gp ∧ s.fetched = .error (raise .gp s)) ∨
    (∃ c a la, s.translate .cs s.rip (fetchLength s.mode s.instrBytes) .fetch = .pf c a la ∧
      s.fetched = .error (raise (.pf c a) s)) := by
  unfold State.fetched
  cases hx : s.translate .cs s.rip (fetchLength s.mode s.instrBytes) .fetch with
  | ok la => exact .inl ⟨la, rfl, rfl⟩
  | gp => exact .inr (.inl ⟨rfl, rfl⟩)
  | pf c a la => exact .inr (.inr ⟨c, a, la, rfl, rfl⟩)
  | ss =>
    unfold State.translate at hx
    split at hx
    · split at hx <;> cases hx
    · simp at hx

/-- There are 15 bytes to fetch from. -/
theorem instrBytes_length (s : State) : s.instrBytes.length = maxLength := by
  simp [State.instrBytes]

theorem instrBytes_getElem (s : State) (k : Nat) (h : k < s.instrBytes.length) :
    s.instrBytes[k] = s.byteAt (s.linAdd (s.linear .cs s.rip) k) := by
  simp [State.instrBytes]

end Sys2Proof.Laws
end

