-- ==== Sys2Proof/Laws/Lengths.lean ====
section
/-! SUPPORT. The parts of an encoding have the lengths of R96, and small facts about the fields of a byte. -/

namespace Sys2Proof.Laws

theorem bytes16_length (v : BitVec 16) : (bytes16 v).length = 2 := rfl

theorem bytes32_length (v : BitVec 32) : (bytes32 v).length = 4 := rfl

theorem disp_bytes_length (d : Disp) : d.bytes.length = d.length := by cases d <;> rfl

theorem disp16_bytes_length (d : Disp16) : d.bytes.length = d.length := by cases d <;> rfl

theorem encodeMem_length (reg : BitVec 3) (m : Mem) : (encodeMem reg m).length = 1 + m.length := by
  cases m <;>
    simp [encodeMem, Mem.length, disp_bytes_length, disp16_bytes_length, bytes16_length, bytes32_length, Nat.add_comm]

theorem encodeRm_length (reg : BitVec 3) (rm : Rm) : (encodeRm reg rm).length = rm.length := by
  cases rm with
  | reg r => rfl
  | mem m => exact encodeMem_length reg m

theorem encodeRmBcst_length (reg : BitVec 3) (rm : RmBcst) : (encodeRmBcst reg rm).length = rm.length := by
  cases rm with
  | reg r => rfl
  | mem m => exact encodeMem_length reg m
  | bcst m => exact encodeMem_length reg m

theorem encodePrefixes_length (ps : List Prefix) : (encodePrefixes ps).length = ps.length := by
  simp [encodePrefixes]

theorem encodeLegacy_length (st : Stem) (h : LegacyHead) (reg : BitVec 3) (rm : Rm) :
    (encodeLegacy st h reg rm).length = h.length + rm.length := by
  rcases h with ⟨ps, rex⟩
  cases rex <;> simp [encodeLegacy, LegacyHead.length, encodePrefixes_length, encodeRm_length] <;> omega

theorem encodeVex_length (st : Stem) (l : Bool) (h : VexHead) (reg : BitVec 3) (rm : Rm) :
    (encodeVex st l h reg rm).length = h.length + rm.length := by
  rcases h with ⟨ps, sp, v⟩
  cases sp <;>
    simp [encodeVex, encodeVexPrefix, VexHead.length, encodePrefixes_length, encodeRm_length] <;> omega

theorem encodeEvexC_length (st : Stem) (vl : VecLen) (h : EvexHead) (w : Bool) (reg : BitVec 3) (rm : Rm) :
    (encodeEvexC st vl h w reg rm).length = h.length + rm.length := by
  simp [encodeEvexC, encodeEvexPrefix, EvexHead.length, encodePrefixes_length, encodeRm_length]
  omega

theorem encodeEvexD_length (st : Stem) (vl : VecLen) (h : EvexHead) (reg : BitVec 3) (rm : RmBcst) :
    (encodeEvexD st vl h reg rm).length = h.length + rm.length := by
  simp [encodeEvexD, encodeEvexPrefix, EvexHead.length, encodePrefixes_length, encodeRmBcst_length]
  omega

/-! ### Fields of a byte -/

theorem byte233_hi (a : BitVec 2) (b c : BitVec 3) : hiField (byte233 a b c) = a := by
  revert a b c; decide

theorem byte233_mid (a : BitVec 2) (b c : BitVec 3) : midField (byte233 a b c) = b := by
  revert a b c; decide

theorem byte233_lo (a : BitVec 2) (b c : BitVec 3) : loField (byte233 a b c) = c := by
  revert a b c; decide

theorem prefixOf_byte (p : Prefix) : prefixOf p.byte = some p := by
  rcases p with _ | _ | _ | r | _ | _ <;> first | rfl | (cases r <;> rfl)

theorem stemOf_byte (st : Stem) : stemOf st.byte = some st := by cases st <;> rfl

end Sys2Proof.Laws
end

