-- ==== Sys2Proof/Laws/Memory.lean ====
section
/-! SUPPORT. Memory: reads after writes, and that every write keeps the canonical form. -/

namespace Sys2Proof.Laws

open Sys2Proof.Machine

theorem above_cons {a x : Nat} {u : Byte} {m : List Host.Cell} :
    Memory.above a ((x, u) :: m) = true ↔ a < x ∧ Memory.above a m = true := by
  simp [Memory.above]

theorem wf_cons {a : Nat} {v : Byte} {m : List Host.Cell} :
    Memory.wf ((a, v) :: m) = true ↔
      a < 2 ^ 64 ∧ v ≠ Memory.unlisted ∧ Memory.above a m = true ∧ Memory.wf m = true := by
  simp [Memory.wf, and_assoc]

theorem read_nil (b : Nat) : Memory.read [] b = Memory.unlisted := rfl

theorem read_cons (a b : Nat) (v : Byte) (m : List Host.Cell) :
    Memory.read ((a, v) :: m) b = if a = b then v else Memory.read m b := rfl

theorem read_of_above (m : List Host.Cell) (a b : Nat) (h : Memory.above a m = true) (hb : b ≤ a) :
    Memory.read m b = Memory.unlisted := by
  induction m with
  | nil => rfl
  | cons c m ih =>
    obtain ⟨h1, h2⟩ := above_cons.1 h
    rw [read_cons, if_neg (by omega), ih h2]

theorem above_mono (m : List Host.Cell) (a b : Nat) (hab : a ≤ b) (h : Memory.above b m = true) :
    Memory.above a m = true := by
  induction m with
  | nil => rfl
  | cons c m ih =>
    obtain ⟨h1, h2⟩ := above_cons.1 h
    exact above_cons.2 ⟨by omega, ih h2⟩

/-- What memory reads as after a write. -/
theorem read_write (m : List Host.Cell) (a b : Nat) (v : Byte) (hm : Memory.wf m = true) :
    Memory.read (Memory.write m a v) b = if b = a then v else Memory.read m b := by
  induction m with
  | nil =>
    unfold Memory.write
    by_cases hv : v = Memory.unlisted
    · rw [if_pos hv, read_nil, hv, ite_self]
    · rw [if_neg hv, read_cons, read_nil]
      simp only [eq_comm]
  | cons c m ih =>
    obtain ⟨x, u⟩ := c
    obtain ⟨-, -, habove, hwf⟩ := wf_cons.1 hm
    unfold Memory.write
    by_cases hlt : a < x
    · have hra : Memory.read ((x, u) :: m) a = Memory.unlisted :=
        read_of_above _ a a (above_cons.2 ⟨hlt, above_mono m a x (by omega) habove⟩) (Nat.le_refl a)
      rw [if_pos hlt]
      by_cases hv : v = Memory.unlisted
      · rw [if_pos hv]
        by_cases hb : b = a
        · rw [if_pos hb, hb, hra, hv]
        · rw [if_neg hb]
      · rw [if_neg hv, read_cons]
        simp only [eq_comm]
    · rw [if_neg hlt]
      by_cases hxa : x = a
      · subst hxa
        rw [if_pos rfl, read_cons]
        by_cases hv : v = Memory.unlisted
        · rw [if_pos hv]
          by_cases hb : b = x
          · rw [if_pos hb, hb, read_of_above m x x habove (Nat.le_refl x), hv]
          · rw [if_neg hb, if_neg fun h => hb h.symm]
        · rw [if_neg hv, read_cons]
          by_cases hb : b = x
          · rw [if_pos hb.symm, if_pos hb]
          · rw [if_neg hb, if_neg fun h => hb h.symm, if_neg fun h => hb h.symm]
      · rw [if_neg hxa, read_cons, read_cons, ih hwf]
        by_cases hb : b = a
        · rw [if_neg (show ¬ x = b by omega), if_pos hb, if_pos hb]
        · rw [if_neg hb, if_neg hb]

theorem above_write (m : List Host.Cell) (a b : Nat) (v : Byte) (h : Memory.above a m = true) (hab : a < b) :
    Memory.above a (Memory.write m b v) = true := by
  induction m with
  | nil =>
    unfold Memory.write
    split
    · rfl
    · exact above_cons.2 ⟨hab, rfl⟩
  | cons c m ih =>
    obtain ⟨h1, h2⟩ := above_cons.1 h
    unfold Memory.write
    split
    · split
      · exact h
      · exact above_cons.2 ⟨hab, h⟩
    · split
      · split
        · exact h2
        · exact above_cons.2 ⟨hab, h2⟩
      · exact above_cons.2 ⟨h1, ih h2⟩

/-- A write keeps the canonical form. -/
theorem write_wf (m : List Host.Cell) (a : Nat) (v : Byte) (ha : a < 2 ^ 64) (h : Memory.wf m = true) :
    Memory.wf (Memory.write m a v) = true := by
  induction m with
  | nil =>
    unfold Memory.write
    split
    · rfl
    · exact wf_cons.2 ⟨ha, by assumption, rfl, rfl⟩
  | cons c m ih =>
    obtain ⟨x, u⟩ := c
    obtain ⟨hx, hu, habove, hwf⟩ := wf_cons.1 h
    unfold Memory.write
    split
    · rename_i hlt
      split
      · exact h
      · exact wf_cons.2 ⟨ha, by assumption, above_cons.2 ⟨hlt, above_mono m a x (by omega) habove⟩, h⟩
    · split
      · rename_i hxb
        split
        · exact hwf
        · exact wf_cons.2 ⟨ha, by assumption, hxb ▸ habove, hwf⟩
      · exact wf_cons.2 ⟨hx, hu, above_write m x a v habove (by omega), ih hwf⟩

/-- A run of writes keeps the canonical form. -/
theorem writeBytes_wf (vs : List Byte) (m : List Host.Cell) (a : Nat) (ha : a + vs.length ≤ 2 ^ 64)
    (h : Memory.wf m = true) : Memory.wf (Memory.writeBytes m a vs) = true := by
  induction vs generalizing m a with
  | nil => exact h
  | cons v vs ih =>
    simp only [List.length_cons] at ha
    exact ih _ _ (by omega) (write_wf m a v (by omega) h)

/-- Equal memories read equally, and canonical memories that read equally are equal. -/
theorem eq_of_read_eq (m n : List Host.Cell) (hm : Memory.wf m = true) (hn : Memory.wf n = true)
    (h : ∀ a, Memory.read m a = Memory.read n a) : m = n := by
  induction m generalizing n with
  | nil =>
    cases n with
    | nil => rfl
    | cons c n =>
      obtain ⟨x, u⟩ := c
      have := h x
      rw [read_nil, read_cons, if_pos rfl] at this
      exact absurd this.symm (wf_cons.1 hn).2.1
  | cons c m ih =>
    obtain ⟨x, u⟩ := c
    obtain ⟨-, hu, hmx, hmw⟩ := wf_cons.1 hm
    cases n with
    | nil =>
      have := h x
      rw [read_nil, read_cons, if_pos rfl] at this
      exact absurd this hu
    | cons d n =>
      obtain ⟨y, v⟩ := d
      obtain ⟨-, hv, hny, hnw⟩ := wf_cons.1 hn
      have hxy : x = y := by
        rcases Nat.lt_trichotomy x y with hlt | heq | hgt
        · have := h x
          rw [read_cons, if_pos rfl, read_cons, if_neg (by omega), read_of_above n y x hny (by omega)] at this
          exact absurd this hu
        · exact heq
        · have := h y
          rw [read_cons, if_neg (by omega), read_cons, if_pos rfl, read_of_above m x y hmx (by omega)] at this
          exact absurd this.symm hv
      subst hxy
      have huv : u = v := by
        have := h x
        rwa [read_cons, if_pos rfl, read_cons, if_pos rfl] at this
      subst huv
      rw [ih n hmw hnw]
      intro a
      by_cases ha : x = a
      · rw [← ha, read_of_above m x x hmx (Nat.le_refl x), read_of_above n x x hny (Nat.le_refl x)]
      · have := h a
        rwa [read_cons, if_neg ha, read_cons, if_neg ha] at this

end Sys2Proof.Laws
end

