-- ==== Sys2Proof/Laws/PerInstr.lean ====
section
/-! SUPPORT. Facts of every instruction as syntax, constructor by constructor. -/

namespace Sys2Proof.Laws

/-- The encoding of an instruction has the instruction's length (R96). -/
def EncodedLength.Statement (i : Instr) : Prop := (encode i).length = i.length

theorem EncodedLength.punpckhbwMm (h : LegacyHead) (reg : BitVec 3) (rm : Rm) :
    EncodedLength.Statement (.punpckhbwMm h reg rm) := encodeLegacy_length _ h reg rm

theorem EncodedLength.punpckhbwXmm (h : LegacyHead) (reg : BitVec 3) (rm : Rm) :
    EncodedLength.Statement (.punpckhbwXmm h reg rm) := encodeLegacy_length _ h reg rm

theorem EncodedLength.punpckhwdMm (h : LegacyHead) (reg : BitVec 3) (rm : Rm) :
    EncodedLength.Statement (.punpckhwdMm h reg rm) := encodeLegacy_length _ h reg rm

theorem EncodedLength.punpckhwdXmm (h : LegacyHead) (reg : BitVec 3) (rm : Rm) :
    EncodedLength.Statement (.punpckhwdXmm h reg rm) := encodeLegacy_length _ h reg rm

theorem EncodedLength.punpckhdqMm (h : LegacyHead) (reg : BitVec 3) (rm : Rm) :
    EncodedLength.Statement (.punpckhdqMm h reg rm) := encodeLegacy_length _ h reg rm

theorem EncodedLength.punpckhdqXmm (h : LegacyHead) (reg : BitVec 3) (rm : Rm) :
    EncodedLength.Statement (.punpckhdqXmm h reg rm) := encodeLegacy_length _ h reg rm

theorem EncodedLength.punpckhqdqXmm (h : LegacyHead) (reg : BitVec 3) (rm : Rm) :
    EncodedLength.Statement (.punpckhqdqXmm h reg rm) := encodeLegacy_length _ h reg rm

theorem EncodedLength.vpunpckhbwVex128 (h : VexHead) (reg : BitVec 3) (rm : Rm) :
    EncodedLength.Statement (.vpunpckhbwVex128 h reg rm) := encodeVex_length _ _ h reg rm

theorem EncodedLength.vpunpckhwdVex128 (h : VexHead) (reg : BitVec 3) (rm : Rm) :
    EncodedLength.Statement (.vpunpckhwdVex128 h reg rm) := encodeVex_length _ _ h reg rm

theorem EncodedLength.vpunpckhdqVex128 (h : VexHead) (reg : BitVec 3) (rm : Rm) :
    EncodedLength.Statement (.vpunpckhdqVex128 h reg rm) := encodeVex_length _ _ h reg rm

theorem EncodedLength.vpunpckhqdqVex128 (h : VexHead) (reg : BitVec 3) (rm : Rm) :
    EncodedLength.Statement (.vpunpckhqdqVex128 h reg rm) := encodeVex_length _ _ h reg rm

theorem EncodedLength.vpunpckhbwVex256 (h : VexHead) (reg : BitVec 3) (rm : Rm) :
    EncodedLength.Statement (.vpunpckhbwVex256 h reg rm) := encodeVex_length _ _ h reg rm

theorem EncodedLength.vpunpckhwdVex256 (h : VexHead) (reg : BitVec 3) (rm : Rm) :
    EncodedLength.Statement (.vpunpckhwdVex256 h reg rm) := encodeVex_length _ _ h reg rm

theorem EncodedLength.vpunpckhdqVex256 (h : VexHead) (reg : BitVec 3) (rm : Rm) :
    EncodedLength.Statement (.vpunpckhdqVex256 h reg rm) := encodeVex_length _ _ h reg rm

theorem EncodedLength.vpunpckhqdqVex256 (h : VexHead) (reg : BitVec 3) (rm : Rm) :
    EncodedLength.Statement (.vpunpckhqdqVex256 h reg rm) := encodeVex_length _ _ h reg rm

theorem EncodedLength.vpunpckhbwEvex128 (h : EvexHead) (w : Bool) (reg : BitVec 3) (rm : Rm) :
    EncodedLength.Statement (.vpunpckhbwEvex128 h w reg rm) := encodeEvexC_length _ _ h w reg rm

theorem EncodedLength.vpunpckhwdEvex128 (h : EvexHead) (w : Bool) (reg : BitVec 3) (rm : Rm) :
    EncodedLength.Statement (.vpunpckhwdEvex128 h w reg rm) := encodeEvexC_length _ _ h w reg rm

theorem EncodedLength.vpunpckhdqEvex128 (h : EvexHead) (reg : BitVec 3) (rm : RmBcst) :
    EncodedLength.Statement (.vpunpckhdqEvex128 h reg rm) := encodeEvexD_length _ _ h reg rm

theorem EncodedLength.vpunpckhqdqEvex128 (h : EvexHead) (reg : BitVec 3) (rm : RmBcst) :
    EncodedLength.Statement (.vpunpckhqdqEvex128 h reg rm) := encodeEvexD_length _ _ h reg rm

theorem EncodedLength.vpunpckhbwEvex256 (h : EvexHead) (w : Bool) (reg : BitVec 3) (rm : Rm) :
    EncodedLength.Statement (.vpunpckhbwEvex256 h w reg rm) := encodeEvexC_length _ _ h w reg rm

theorem EncodedLength.vpunpckhwdEvex256 (h : EvexHead) (w : Bool) (reg : BitVec 3) (rm : Rm) :
    EncodedLength.Statement (.vpunpckhwdEvex256 h w reg rm) := encodeEvexC_length _ _ h w reg rm

theorem EncodedLength.vpunpckhdqEvex256 (h : EvexHead) (reg : BitVec 3) (rm : RmBcst) :
    EncodedLength.Statement (.vpunpckhdqEvex256 h reg rm) := encodeEvexD_length _ _ h reg rm

theorem EncodedLength.vpunpckhqdqEvex256 (h : EvexHead) (reg : BitVec 3) (rm : RmBcst) :
    EncodedLength.Statement (.vpunpckhqdqEvex256 h reg rm) := encodeEvexD_length _ _ h reg rm

theorem EncodedLength.vpunpckhbwEvex512 (h : EvexHead) (w : Bool) (reg : BitVec 3) (rm : Rm) :
    EncodedLength.Statement (.vpunpckhbwEvex512 h w reg rm) := encodeEvexC_length _ _ h w reg rm

theorem EncodedLength.vpunpckhwdEvex512 (h : EvexHead) (w : Bool) (reg : BitVec 3) (rm : Rm) :
    EncodedLength.Statement (.vpunpckhwdEvex512 h w reg rm) := encodeEvexC_length _ _ h w reg rm

theorem EncodedLength.vpunpckhdqEvex512 (h : EvexHead) (reg : BitVec 3) (rm : RmBcst) :
    EncodedLength.Statement (.vpunpckhdqEvex512 h reg rm) := encodeEvexD_length _ _ h reg rm

theorem EncodedLength.vpunpckhqdqEvex512 (h : EvexHead) (reg : BitVec 3) (rm : RmBcst) :
    EncodedLength.Statement (.vpunpckhqdqEvex512 h reg rm) := encodeEvexD_length _ _ h reg rm

end Sys2Proof.Laws
end

