-- ==== Sys2Proof/Tests/Slice0.lean ====
section
/-! SUPPORT. Tests: well-formedness, one decoded word for every row, one step for every row, and for every statement with hypotheses
a concrete case that meets them. Expected values are the spec's: its examples (R145 to R194) and 95_test_vectors.md. -/

namespace Sys2Proof.Tests

set_option Elab.async false

open Sys2Proof.Machine

/-! ### Helpers -/

/-- The outcome is a next state with a property. -/
def nextIs (o : Host.Outcome State Fault Refusal) (p : State → Bool) : Bool :=
  match o with
  | .next t => p t
  | .fault _ => false
  | .refused _ => false

/-- The outcome is a fault with this vector, error code and CR2. -/
def faultIs (o : Host.Outcome State Fault Refusal) (vector : Nat) (code : Option (BitVec 32)) (cr2 : Word) : Bool :=
  match o with
  | .next _ => false
  | .fault f => f.vector == vector && f.code == code && f.final.cr2 == cr2
  | .refused _ => false

/-- The outcome is this refusal. -/
def refusedAs (o : Host.Outcome State Fault Refusal) (r : Refusal) : Bool :=
  match o with
  | .next _ => false
  | .fault _ => false
  | .refused q => q == r

theorem nextIs_elim {o : Host.Outcome State Fault Refusal} {p : State → Bool} (h : nextIs o p = true) :
    ∃ t, o = .next t ∧ p t = true := by
  cases o with
  | next t => exact ⟨t, rfl, h⟩
  | fault f => cases h
  | refused r => cases h

theorem faultIs_elim {o : Host.Outcome State Fault Refusal} {v : Nat} {c : Option (BitVec 32)} {a : Word}
    (h : faultIs o v c a = true) : ∃ f, o = .fault f ∧ f.vector = v ∧ f.code = c := by
  cases o with
  | next t => cases h
  | fault f => simp only [faultIs, Bool.and_eq_true, beq_iff_eq] at h; exact ⟨f, rfl, h.1.1, h.1.2⟩
  | refused r => cases h

theorem refusedAs_elim {o : Host.Outcome State Fault Refusal} {r : Refusal} (h : refusedAs o r = true) : o = .refused r := by
  cases o with
  | next t => cases h
  | fault f => cases h
  | refused q => simp only [refusedAs, beq_iff_eq] at h; rw [h]

/-- `seq(b, n)` of 95_test_vectors.md: byte `i` holds `b + i`. -/
def seq (b n : Nat) : Vec512 := ofElems 512 8 (fun i => BitVec.ofNat 8 (b + i)) n

/-- `n` bytes `0xEE` (42_vpunpckh_evex.md). -/
def fillEE (n : Nat) : Vec512 := ofElems 512 8 (fun _ => 0xEE#8) n

/-- The conventions of 95_test_vectors.md: 64-bit mode at privilege level 3 with everything enabled. -/
def base : State := { State.reset.launch with rip := 0x400000#64, cpl := 3#2 }

/-- Bytes placed in memory. -/
def put (s : State) (a : Nat) (bs : List Byte) : State := { s with mem := Memory.writeBytes s.mem a bs }

def setZ (s : State) (r : BitVec 5) (v : Vec512) : State := { s with zmm := s.zmm.set r.toNat v }

def setM (s : State) (r : BitVec 3) (v : Word) : State := { s with st := s.st.set r.toNat (v.setWidth 80) }

def setG (s : State) (r : BitVec 4) (v : Word) : State := { s with gpr := s.gpr.set r.toNat v }

def setK (s : State) (r : BitVec 3) (v : Word) : State := { s with k := s.k.set r.toNat v }

/-- A step with the bytes of an instruction at RIP. -/
def run (s : State) (bs : List Byte) : Host.Outcome State Fault Refusal := step (put s s.rip.toNat bs)

def mmxState : State := setM (setM base 0#3 0x0706050403020100#64) 1#3 0x1716151413121110#64

def sseState : State := setZ (setZ base 0#5 (seq 0 16 ||| (fillEE 48 <<< 128))) 1#5 (seq 0x80 16)

def vexState : State := setZ (setZ (setZ base 1#5 (fillEE 64)) 2#5 (seq 0 32)) 3#5 (seq 0x80 32)

def evexState (k1 : Word) : State :=
  setK (setG (setZ (setZ (setZ base 1#5 (fillEE 64)) 2#5 (seq 0 64)) 3#5 (seq 0x80 64)) 0#4 0x2000#64) 1#3 k1

/-! ### Well-formedness: an ill-formed term for each check -/

/-- R104: rm = 100 is a SIB byte. -/
theorem test_illFormed_base_rm100 : ((Mem.base 4#3 (.d8 0#8)).wf .long64 []) = false := by decide

/-- R104: mod = 00, rm = 101 has no base. -/
theorem test_illFormed_base_rm101 : ((Mem.base 5#3 .none).wf .long64 []) = false := by decide

/-- R107: no such form with address size 16. -/
theorem test_illFormed_base_size16 : ((Mem.base 0#3 .none).wf .real []) = false := by decide

/-- R105: base = 101 with mod = 00 has no base. -/
theorem test_illFormed_sib_base101 : ((Mem.sib 0#2 0#3 5#3 .none).wf .long64 []) = false := by decide

/-- R107: no SIB byte with address size 16. -/
theorem test_illFormed_sib_size16 : ((Mem.sib 0#2 0#3 0#3 .none).wf .prot32 [.addrSize]) = false := by decide

/-- R107. -/
theorem test_illFormed_sibNoBase_size16 : ((Mem.sibNoBase 0#2 0#3 0#32).wf .prot16 []) = false := by decide

/-- R106: 64-bit mode only. -/
theorem test_illFormed_ripRel_prot32 : ((Mem.ripRel 0#32).wf .prot32 []) = false := by decide

/-- R104, R106: in 64-bit mode this encoding is RIP-relative. -/
theorem test_illFormed_abs32_long64 : ((Mem.abs32 0#32).wf .long64 [.addrSize]) = false := by decide

/-- R107. -/
theorem test_illFormed_abs32_size16 : ((Mem.abs32 0#32).wf .real []) = false := by decide

/-- R107: mod = 00, rm = 110 is disp16 alone. -/
theorem test_illFormed_base16_rm110 : ((Mem.base16 6#3 .none).wf .real []) = false := by decide

/-- R107: never in 64-bit mode. -/
theorem test_illFormed_base16_long64 : ((Mem.base16 0#3 .none).wf .long64 []) = false := by decide

/-- R107. -/
theorem test_illFormed_abs16_prot32 : ((Mem.abs16 0#16).wf .prot32 []) = false := by decide

/-- R103. -/
theorem test_illFormed_rm_mem : ((Rm.mem (.base 4#3 .none)).wf .long64 []) = false := by decide

/-- R103. -/
theorem test_illFormed_rmBcst_mem : ((RmBcst.mem (.base 4#3 .none)).wf .long64 []) = false := by decide

/-- R117. -/
theorem test_illFormed_rmBcst_bcst : ((RmBcst.bcst (.base 4#3 .none)).wf .long64 []) = false := by decide

/-- R99. -/
theorem test_illFormed_legacy_lock : (LegacyHead.wf .long64 false ⟨[.lock], none⟩) = false := by decide

/-- R98. -/
theorem test_illFormed_legacy_rep : (LegacyHead.wf .long64 true ⟨[.opSize, .rep], none⟩) = false := by decide

/-- R98. -/
theorem test_illFormed_legacy_repne : (LegacyHead.wf .long64 false ⟨[.repne], none⟩) = false := by decide

/-- R98: 66 selects the 128-bit form. -/
theorem test_illFormed_legacy_mmx_66 : (LegacyHead.wf .long64 false ⟨[.opSize], none⟩) = false := by decide

/-- R98. -/
theorem test_illFormed_legacy_xmm_no66 : (LegacyHead.wf .long64 true ⟨[], none⟩) = false := by decide

/-- R100: 64-bit mode only. -/
theorem test_illFormed_legacy_rex_prot32 : (LegacyHead.wf .prot32 false ⟨[], some ⟨false, false, false, false⟩⟩) = false := by decide

/-- R111. -/
theorem test_illFormed_vex_66 : (VexHead.wf .long64 ⟨[.opSize], .two false, 2#4⟩) = false := by decide

/-- R99. -/
theorem test_illFormed_vex_lock : (VexHead.wf .long64 ⟨[.lock], .two false, 2#4⟩) = false := by decide

/-- R212. -/
theorem test_illFormed_vex_real : (VexHead.wf .real ⟨[], .two false, 2#4⟩) = false := by decide

/-- R111. -/
theorem test_illFormed_vex_r_prot32 : (VexHead.wf .prot32 ⟨[], .two true, 2#4⟩) = false := by decide

/-- R111, D12. -/
theorem test_illFormed_vex_b_prot32 : (VexHead.wf .prot32 ⟨[], .three false false true false, 2#4⟩) = false := by decide

/-- R111. -/
theorem test_illFormed_vex_x_prot32 : (VexHead.wf .prot32 ⟨[], .three false true false false, 2#4⟩) = false := by decide

/-- R111, D12. -/
theorem test_illFormed_vex_v3_prot16 : (VexHead.wf .prot16 ⟨[], .two false, 8#4⟩) = false := by decide

/-- R113: aaa = 000 is no writemask. -/
theorem test_illFormed_mask_merging0 : ((Mask.merging 0#3).wf) = false := by decide

/-- R116. -/
theorem test_illFormed_mask_zeroing0 : ((Mask.zeroing 0#3).wf) = false := by decide

/-- R116. -/
theorem test_illFormed_evex_mask : (EvexHead.wf .long64 ⟨[], false, false, false, false, 2#4, false, .zeroing 0#3⟩) = false := by decide

/-- R115. -/
theorem test_illFormed_evex_66 : (EvexHead.wf .long64 ⟨[.opSize], false, false, false, false, 2#4, false, .none⟩) = false := by decide

/-- R115. -/
theorem test_illFormed_evex_rep : (EvexHead.wf .long64 ⟨[.rep], false, false, false, false, 2#4, false, .none⟩) = false := by decide

/-- R212. -/
theorem test_illFormed_evex_v86 : (EvexHead.wf .v86 ⟨[], false, false, false, false, 2#4, false, .none⟩) = false := by decide

/-- R115. -/
theorem test_illFormed_evex_r_prot32 : (EvexHead.wf .prot32 ⟨[], true, false, false, false, 2#4, false, .none⟩) = false := by decide

/-- R115. -/
theorem test_illFormed_evex_x_prot32 : (EvexHead.wf .prot32 ⟨[], false, true, false, false, 2#4, false, .none⟩) = false := by decide

/-- R115, D12. -/
theorem test_illFormed_evex_b_prot32 : (EvexHead.wf .prot32 ⟨[], false, false, true, false, 2#4, false, .none⟩) = false := by decide

/-- R115, D12. -/
theorem test_illFormed_evex_r'_prot32 : (EvexHead.wf .prot32 ⟨[], false, false, false, true, 2#4, false, .none⟩) = false := by decide

/-- R115, D12. -/
theorem test_illFormed_evex_v3_prot32 : (EvexHead.wf .prot32 ⟨[], false, false, false, false, 8#4, false, .none⟩) = false := by decide

/-- R115, D12. -/
theorem test_illFormed_evex_v'_prot32 : (EvexHead.wf .prot32 ⟨[], false, false, false, false, 2#4, true, .none⟩) = false := by decide

/-- R96: 16 bytes. -/
theorem test_illFormed_length16 : ((Instr.punpckhbwMm ⟨List.replicate 13 (.seg .ds), none⟩ 0#3 (.reg 1#3)).wf .long64) = false := by decide

/-- R104, through the instruction. -/
theorem test_illFormed_instr_operand : ((Instr.vpunpckhdqEvex512 ⟨[], false, false, false, false, 2#4, false, .none⟩ 1#3 (.bcst (.base 4#3 .none))).wf .long64) = false := by decide

/-- R6: AVX512F means 512. -/
theorem test_illFormed_config_maxvl : ({ Config.allFeatures with maxvl := .v256 : Config }.wf) = false := by decide

/-- R6: AVX2 implies AVX. -/
theorem test_illFormed_config_avx2 : ({ Config.allFeatures with feat := ⟨true, true, false, true, true, true, true⟩ : Config }.wf) = false := by decide

/-- R6: AVX512BW means 64. -/
theorem test_illFormed_config_kw : ({ Config.allFeatures with kw := .k16 : Config }.wf) = false := by decide

theorem test_wellFormed_config : Config.allFeatures.wf = true := by decide

/-- R96: 15 bytes are allowed. -/
theorem test_wellFormed_length15 :
    (Instr.punpckhbwMm ⟨List.replicate 12 (.seg .ds), none⟩ 0#3 (.reg 1#3)).wf .long64 = true := by decide

/-! ### Decoding: a word of every row, written out from its encoding -/

theorem test_decode_punpckhbwMm : decode .long64 [0x0F#8, 0x68#8, 0xC1#8]
    = .ok (.punpckhbwMm ⟨[], none⟩ 0#3 (.reg 1#3)) [] := by decide +kernel

theorem test_decode_punpckhwdMm : decode .long64 [0x0F#8, 0x69#8, 0xC1#8]
    = .ok (.punpckhwdMm ⟨[], none⟩ 0#3 (.reg 1#3)) [] := by decide +kernel

theorem test_decode_punpckhdqMm : decode .long64 [0x0F#8, 0x6A#8, 0xC1#8]
    = .ok (.punpckhdqMm ⟨[], none⟩ 0#3 (.reg 1#3)) [] := by decide +kernel

theorem test_decode_punpckhbwXmm : decode .long64 [0x66#8, 0x0F#8, 0x68#8, 0xC1#8]
    = .ok (.punpckhbwXmm ⟨[.opSize], none⟩ 0#3 (.reg 1#3)) [] := by decide +kernel

theorem test_decode_punpckhwdXmm : decode .long64 [0x66#8, 0x0F#8, 0x69#8, 0xC1#8]
    = .ok (.punpckhwdXmm ⟨[.opSize], none⟩ 0#3 (.reg 1#3)) [] := by decide +kernel

theorem test_decode_punpckhdqXmm : decode .long64 [0x66#8, 0x0F#8, 0x6A#8, 0xC1#8]
    = .ok (.punpckhdqXmm ⟨[.opSize], none⟩ 0#3 (.reg 1#3)) [] := by decide +kernel

theorem test_decode_punpckhqdqXmm : decode .long64 [0x66#8, 0x0F#8, 0x6D#8, 0xC1#8]
    = .ok (.punpckhqdqXmm ⟨[.opSize], none⟩ 0#3 (.reg 1#3)) [] := by decide +kernel

theorem test_decode_vpunpckhbwVex128 : decode .long64 [0xC5#8, 0xE9#8, 0x68#8, 0xCB#8]
    = .ok (.vpunpckhbwVex128 ⟨[], .two false, 2#4⟩ 1#3 (.reg 3#3)) [] := by decide +kernel

theorem test_decode_vpunpckhwdVex128 : decode .long64 [0xC5#8, 0xE9#8, 0x69#8, 0xCB#8]
    = .ok (.vpunpckhwdVex128 ⟨[], .two false, 2#4⟩ 1#3 (.reg 3#3)) [] := by decide +kernel

theorem test_decode_vpunpckhdqVex128 : decode .long64 [0xC5#8, 0xE9#8, 0x6A#8, 0xCB#8]
    = .ok (.vpunpckhdqVex128 ⟨[], .two false, 2#4⟩ 1#3 (.reg 3#3)) [] := by decide +kernel

theorem test_decode_vpunpckhqdqVex128 : decode .long64 [0xC5#8, 0xE9#8, 0x6D#8, 0xCB#8]
    = .ok (.vpunpckhqdqVex128 ⟨[], .two false, 2#4⟩ 1#3 (.reg 3#3)) [] := by decide +kernel

theorem test_decode_vpunpckhbwVex256 : decode .long64 [0xC5#8, 0xED#8, 0x68#8, 0xCB#8]
    = .ok (.vpunpckhbwVex256 ⟨[], .two false, 2#4⟩ 1#3 (.reg 3#3)) [] := by decide +kernel

theorem test_decode_vpunpckhwdVex256 : decode .long64 [0xC5#8, 0xED#8, 0x69#8, 0xCB#8]
    = .ok (.vpunpckhwdVex256 ⟨[], .two false, 2#4⟩ 1#3 (.reg 3#3)) [] := by decide +kernel

theorem test_decode_vpunpckhdqVex256 : decode .long64 [0xC5#8, 0xED#8, 0x6A#8, 0xCB#8]
    = .ok (.vpunpckhdqVex256 ⟨[], .two false, 2#4⟩ 1#3 (.reg 3#3)) [] := by decide +kernel

theorem test_decode_vpunpckhqdqVex256 : decode .long64 [0xC5#8, 0xED#8, 0x6D#8, 0xCB#8]
    = .ok (.vpunpckhqdqVex256 ⟨[], .two false, 2#4⟩ 1#3 (.reg 3#3)) [] := by decide +kernel

theorem test_decode_vpunpckhbwEvex128 : decode .long64 [0x62#8, 0xF1#8, 0x6D#8, 0x09#8, 0x68#8, 0xCB#8]
    = .ok (.vpunpckhbwEvex128 ⟨[], false, false, false, false, 2#4, false, .merging 1#3⟩ false 1#3 (.reg 3#3)) [] := by decide +kernel

theorem test_decode_vpunpckhwdEvex128 : decode .long64 [0x62#8, 0xF1#8, 0x6D#8, 0x89#8, 0x69#8, 0xCB#8]
    = .ok (.vpunpckhwdEvex128 ⟨[], false, false, false, false, 2#4, false, .zeroing 1#3⟩ false 1#3 (.reg 3#3)) [] := by decide +kernel

theorem test_decode_vpunpckhdqEvex128 : decode .long64 [0x62#8, 0xF1#8, 0x6D#8, 0x19#8, 0x6A#8, 0x08#8]
    = .ok (.vpunpckhdqEvex128 ⟨[], false, false, false, false, 2#4, false, .merging 1#3⟩ 1#3 (.bcst (.base 0#3 .none))) [] := by decide +kernel

theorem test_decode_vpunpckhqdqEvex128 : decode .long64 [0x62#8, 0xF1#8, 0xED#8, 0x08#8, 0x6D#8, 0xCB#8]
    = .ok (.vpunpckhqdqEvex128 ⟨[], false, false, false, false, 2#4, false, .none⟩ 1#3 (.reg 3#3)) [] := by decide +kernel

theorem test_decode_vpunpckhbwEvex256 : decode .long64 [0x62#8, 0xF1#8, 0x6D#8, 0x29#8, 0x68#8, 0xCB#8]
    = .ok (.vpunpckhbwEvex256 ⟨[], false, false, false, false, 2#4, false, .merging 1#3⟩ false 1#3 (.reg 3#3)) [] := by decide +kernel

theorem test_decode_vpunpckhwdEvex256 : decode .long64 [0x62#8, 0xF1#8, 0x6D#8, 0xA9#8, 0x69#8, 0xCB#8]
    = .ok (.vpunpckhwdEvex256 ⟨[], false, false, false, false, 2#4, false, .zeroing 1#3⟩ false 1#3 (.reg 3#3)) [] := by decide +kernel

theorem test_decode_vpunpckhdqEvex256 : decode .long64 [0x62#8, 0xF1#8, 0x6D#8, 0x28#8, 0x6A#8, 0xCB#8]
    = .ok (.vpunpckhdqEvex256 ⟨[], false, false, false, false, 2#4, false, .none⟩ 1#3 (.reg 3#3)) [] := by decide +kernel

theorem test_decode_vpunpckhqdqEvex256 : decode .long64 [0x62#8, 0xF1#8, 0xED#8, 0x38#8, 0x6D#8, 0x08#8]
    = .ok (.vpunpckhqdqEvex256 ⟨[], false, false, false, false, 2#4, false, .none⟩ 1#3 (.bcst (.base 0#3 .none))) [] := by decide +kernel

theorem test_decode_vpunpckhbwEvex512 : decode .long64 [0x62#8, 0xF1#8, 0x6D#8, 0xC9#8, 0x68#8, 0xCB#8]
    = .ok (.vpunpckhbwEvex512 ⟨[], false, false, false, false, 2#4, false, .zeroing 1#3⟩ false 1#3 (.reg 3#3)) [] := by decide +kernel

theorem test_decode_vpunpckhwdEvex512 : decode .long64 [0x62#8, 0xF1#8, 0x6D#8, 0xC9#8, 0x69#8, 0xCB#8]
    = .ok (.vpunpckhwdEvex512 ⟨[], false, false, false, false, 2#4, false, .zeroing 1#3⟩ false 1#3 (.reg 3#3)) [] := by decide +kernel

theorem test_decode_vpunpckhdqEvex512 : decode .long64 [0x62#8, 0xF1#8, 0x6D#8, 0xD9#8, 0x6A#8, 0x08#8]
    = .ok (.vpunpckhdqEvex512 ⟨[], false, false, false, false, 2#4, false, .zeroing 1#3⟩ 1#3 (.bcst (.base 0#3 .none))) [] := by decide +kernel

theorem test_decode_vpunpckhqdqEvex512 : decode .long64 [0x62#8, 0xF1#8, 0xED#8, 0x49#8, 0x6D#8, 0xCB#8]
    = .ok (.vpunpckhqdqEvex512 ⟨[], false, false, false, false, 2#4, false, .merging 1#3⟩ 1#3 (.reg 3#3)) [] := by decide +kernel

/-- The fields of 62 01 2D 40 68 CB, stored inverted: registers 25, 26 and 27 (R114, 95_test_vectors.md section 2.4). -/
theorem test_decode_highRegisters : decode .long64 [0x62#8, 0x01#8, 0x2D#8, 0x40#8, 0x68#8, 0xCB#8]
    = .ok (.vpunpckhbwEvex512 ⟨[], true, true, true, true, 10#4, true, .none⟩ false 1#3 (.reg 3#3)) [] := by decide +kernel

/-- The three-byte VEX spelling with W = 1 (R110, R112). -/
theorem test_decode_vex3 : decode .long64 [0xC4#8, 0xE1#8, 0xE9#8, 0x68#8, 0xCB#8]
    = .ok (.vpunpckhbwVex128 ⟨[], .three false false false true, 2#4⟩ 1#3 (.reg 3#3)) [] := by decide +kernel

/-- A REX prefix (R100, R101). -/
theorem test_decode_rex : decode .long64 [0x66#8, 0x45#8, 0x0F#8, 0x6D#8, 0xC1#8]
    = .ok (.punpckhqdqXmm ⟨[.opSize], some ⟨false, true, false, true⟩⟩ 0#3 (.reg 1#3)) [] := by decide +kernel

/-- Sixteen-bit addressing: mod = 10, rm = 110 is BP and a 16-bit displacement (R107). -/
theorem test_decode_base16 : decode .real [0x0F#8, 0x68#8, 0x86#8, 0x34#8, 0x12#8]
    = .ok (.punpckhbwMm ⟨[], none⟩ 0#3 (.mem (.base16 6#3 (.d16 0x1234#16)))) [] := by decide +kernel

/-! ### One step of every row -/

theorem test_step_punpckhbwMm : nextIs (run mmxState [0x0F#8, 0x68#8, 0xC1#8])
    (fun t => t.readMm 0#3 == 0x1707160615051404#64 && t.st[0].extractLsb' 64 16 == 0xFFFF#16 && t.top == 0#3 && t.rip == 0x400003#64) = true := by decide +kernel

theorem test_step_punpckhwdMm : nextIs (run mmxState [0x0F#8, 0x69#8, 0xC1#8])
    (fun t => t.readMm 0#3 == 0x1716070615140504#64 && t.st[0].extractLsb' 64 16 == 0xFFFF#16 && t.top == 0#3 && t.rip == 0x400003#64) = true := by decide +kernel

theorem test_step_punpckhdqMm : nextIs (run mmxState [0x0F#8, 0x6A#8, 0xC1#8])
    (fun t => t.readMm 0#3 == 0x1716151407060504#64 && t.st[0].extractLsb' 64 16 == 0xFFFF#16 && t.top == 0#3 && t.rip == 0x400003#64) = true := by decide +kernel

theorem test_step_punpckhbwXmm : nextIs (run sseState [0x66#8, 0x0F#8, 0x68#8, 0xC1#8])
    (fun t => t.readVec 512 0#5 == (0x8F0F8E0E8D0D8C0C8B0B8A0A89098808#512 ||| (fillEE 48 <<< 128)) && t.rip == 0x400004#64) = true := by decide +kernel

theorem test_step_punpckhwdXmm : nextIs (run sseState [0x66#8, 0x0F#8, 0x69#8, 0xC1#8])
    (fun t => t.readVec 512 0#5 == (0x8F8E0F0E8D8C0D0C8B8A0B0A89880908#512 ||| (fillEE 48 <<< 128)) && t.rip == 0x400004#64) = true := by decide +kernel

theorem test_step_punpckhdqXmm : nextIs (run sseState [0x66#8, 0x0F#8, 0x6A#8, 0xC1#8])
    (fun t => t.readVec 512 0#5 == (0x8F8E8D8C0F0E0D0C8B8A89880B0A0908#512 ||| (fillEE 48 <<< 128)) && t.rip == 0x400004#64) = true := by decide +kernel

theorem test_step_punpckhqdqXmm : nextIs (run sseState [0x66#8, 0x0F#8, 0x6D#8, 0xC1#8])
    (fun t => t.readVec 512 0#5 == (0x8F8E8D8C8B8A89880F0E0D0C0B0A0908#512 ||| (fillEE 48 <<< 128)) && t.rip == 0x400004#64) = true := by decide +kernel

theorem test_step_vpunpckhbwVex128 : nextIs (run vexState [0xC5#8, 0xE9#8, 0x68#8, 0xCB#8])
    (fun t => t.readVec 512 1#5 == 0x8F0F8E0E8D0D8C0C8B0B8A0A89098808#512 && t.rip == 0x400004#64) = true := by decide +kernel

theorem test_step_vpunpckhwdVex128 : nextIs (run vexState [0xC5#8, 0xE9#8, 0x69#8, 0xCB#8])
    (fun t => t.readVec 512 1#5 == 0x8F8E0F0E8D8C0D0C8B8A0B0A89880908#512 && t.rip == 0x400004#64) = true := by decide +kernel

theorem test_step_vpunpckhdqVex128 : nextIs (run vexState [0xC5#8, 0xE9#8, 0x6A#8, 0xCB#8])
    (fun t => t.readVec 512 1#5 == 0x8F8E8D8C0F0E0D0C8B8A89880B0A0908#512 && t.rip == 0x400004#64) = true := by decide +kernel

theorem test_step_vpunpckhqdqVex128 : nextIs (run vexState [0xC5#8, 0xE9#8, 0x6D#8, 0xCB#8])
    (fun t => t.readVec 512 1#5 == 0x8F8E8D8C8B8A89880F0E0D0C0B0A0908#512 && t.rip == 0x400004#64) = true := by decide +kernel

theorem test_step_vpunpckhbwVex256 : nextIs (run vexState [0xC5#8, 0xED#8, 0x68#8, 0xCB#8])
    (fun t => t.readVec 512 1#5 == 0x9F1F9E1E9D1D9C1C9B1B9A1A991998188F0F8E0E8D0D8C0C8B0B8A0A89098808#512) = true := by decide +kernel

theorem test_step_vpunpckhwdVex256 : nextIs (run vexState [0xC5#8, 0xED#8, 0x69#8, 0xCB#8])
    (fun t => t.readVec 512 1#5 == 0x9F9E1F1E9D9C1D1C9B9A1B1A999819188F8E0F0E8D8C0D0C8B8A0B0A89880908#512) = true := by decide +kernel

theorem test_step_vpunpckhdqVex256 : nextIs (run vexState [0xC5#8, 0xED#8, 0x6A#8, 0xCB#8])
    (fun t => t.readVec 512 1#5 == 0x9F9E9D9C1F1E1D1C9B9A99981B1A19188F8E8D8C0F0E0D0C8B8A89880B0A0908#512) = true := by decide +kernel

theorem test_step_vpunpckhqdqVex256 : nextIs (run vexState [0xC5#8, 0xED#8, 0x6D#8, 0xCB#8])
    (fun t => t.readVec 512 1#5 == 0x9F9E9D9C9B9A99981F1E1D1C1B1A19188F8E8D8C8B8A89880F0E0D0C0B0A0908#512) = true := by decide +kernel

theorem test_step_vpunpckhbwEvex128 : nextIs (run (evexState 0x00FF#64) [0x62#8, 0xF1#8, 0x6D#8, 0x09#8, 0x68#8, 0xCB#8])
    (fun t => t.readVec 512 1#5 == 0xEEEEEEEEEEEEEEEE8B0B8A0A89098808#512) = true := by decide +kernel

theorem test_step_vpunpckhwdEvex128 : nextIs (run (evexState 0xA5#64) [0x62#8, 0xF1#8, 0x6D#8, 0x89#8, 0x69#8, 0xCB#8])
    (fun t => t.readVec 512 1#5 == 0x8F8E00008D8C000000000B0A00000908#512) = true := by decide +kernel

theorem test_step_vpunpckhdqEvex128 : nextIs (run (put (evexState 0x6#64) 0x2000 [0xAA#8, 0xBB#8, 0xCC#8, 0xDD#8]) [0x62#8, 0xF1#8, 0x6D#8, 0x19#8, 0x6A#8, 0x08#8])
    (fun t => t.readVec 512 1#5 == 0xEEEEEEEE0F0E0D0CDDCCBBAAEEEEEEEE#512) = true := by decide +kernel

theorem test_step_vpunpckhqdqEvex128 : nextIs (run (evexState 0x0#64) [0x62#8, 0xF1#8, 0xED#8, 0x08#8, 0x6D#8, 0xCB#8])
    (fun t => t.readVec 512 1#5 == 0x8F8E8D8C8B8A89880F0E0D0C0B0A0908#512) = true := by decide +kernel

theorem test_step_vpunpckhbwEvex256 : nextIs (run (evexState 0xFFFF0000#64) [0x62#8, 0xF1#8, 0x6D#8, 0x29#8, 0x68#8, 0xCB#8])
    (fun t => t.readVec 512 1#5 == 0x9F1F9E1E9D1D9C1C9B1B9A1A99199818EEEEEEEEEEEEEEEEEEEEEEEEEEEEEEEE#512) = true := by decide +kernel

theorem test_step_vpunpckhwdEvex256 : nextIs (run (evexState 0x00F0#64) [0x62#8, 0xF1#8, 0x6D#8, 0xA9#8, 0x69#8, 0xCB#8])
    (fun t => t.readVec 512 1#5 == 0x000000000000000000000000000000008F8E0F0E8D8C0D0C0000000000000000#512) = true := by decide +kernel

theorem test_step_vpunpckhdqEvex256 : nextIs (run (evexState 0x0#64) [0x62#8, 0xF1#8, 0x6D#8, 0x28#8, 0x6A#8, 0xCB#8])
    (fun t => t.readVec 512 1#5 == 0x9F9E9D9C1F1E1D1C9B9A99981B1A19188F8E8D8C0F0E0D0C8B8A89880B0A0908#512) = true := by decide +kernel

theorem test_step_vpunpckhqdqEvex256 : nextIs (run (put (evexState 0x0#64) 0x2000 [0x88#8, 0x77#8, 0x66#8, 0x55#8, 0x44#8, 0x33#8, 0x22#8, 0x11#8]) [0x62#8, 0xF1#8, 0xED#8, 0x38#8, 0x6D#8, 0x08#8])
    (fun t => t.readVec 512 1#5 == 0x11223344556677881F1E1D1C1B1A191811223344556677880F0E0D0C0B0A0908#512) = true := by decide +kernel

theorem test_step_vpunpckhbwEvex512 : nextIs (run (evexState 0x8000000000000001#64) [0x62#8, 0xF1#8, 0x6D#8, 0xC9#8, 0x68#8, 0xCB#8])
    (fun t => t.readVec 512 1#5 == 0xBF000000000000000000000000000000000000000000000000000000000000000000000000000000000000000000000000000000000000000000000000000008#512) = true := by decide +kernel

theorem test_step_vpunpckhwdEvex512 : nextIs (run (evexState 0x0000FFFF#64) [0x62#8, 0xF1#8, 0x6D#8, 0xC9#8, 0x69#8, 0xCB#8])
    (fun t => t.readVec 512 1#5 == 0x9F9E1F1E9D9C1D1C9B9A1B1A999819188F8E0F0E8D8C0D0C8B8A0B0A89880908#512) = true := by decide +kernel

theorem test_step_vpunpckhdqEvex512 : nextIs (run (put (evexState 0x00FF#64) 0x2000 [0xAA#8, 0xBB#8, 0xCC#8, 0xDD#8]) [0x62#8, 0xF1#8, 0x6D#8, 0xD9#8, 0x6A#8, 0x08#8])
    (fun t => t.readVec 512 1#5 == 0xDDCCBBAA1F1E1D1CDDCCBBAA1B1A1918DDCCBBAA0F0E0D0CDDCCBBAA0B0A0908#512) = true := by decide +kernel

theorem test_step_vpunpckhqdqEvex512 : nextIs (run (evexState 0x55#64) [0x62#8, 0xF1#8, 0xED#8, 0x49#8, 0x6D#8, 0xCB#8])
    (fun t => t.readVec 512 1#5 == 0xEEEEEEEEEEEEEEEE3F3E3D3C3B3A3938EEEEEEEEEEEEEEEE2F2E2D2C2B2A2928EEEEEEEEEEEEEEEE1F1E1D1C1B1A1918EEEEEEEEEEEEEEEE0F0E0D0C0B0A0908#512) = true := by decide +kernel

/-! ### Cases that meet the hypotheses of the statements

Each theorem shows a concrete state and operands for one statement of Obligations.lean; its name begins with the statement's. -/

def hMm : LegacyHead := ⟨[], none⟩

def hXmm : LegacyHead := ⟨[.opSize], none⟩

def hVex : VexHead := ⟨[], .two false, 2#4⟩

def hEvex : EvexHead := ⟨[], false, false, false, false, 2#4, false, .merging 1#3⟩

/-- The operand `[rax]`. -/
def atRax : Mem := .base 0#3 .none

/-- The operand `[rbp+0]`, through SS. -/
def atRbp : Mem := .base 5#3 (.d8 0#8)

/-- Bytes 1, 2, 3 … at 0x2000, with RAX and RBP at an address. -/
def memAt (a : Word) : State :=
  setG (setG (put base 0x2000 ((List.range 80).map fun k => BitVec.ofNat 8 (k + 1))) 0#4 a) 5#4 a

/-- As `memAt`, in 32-bit protected mode at privilege level 3 with segment limits 0x2FFF. -/
def protAt (a : Word) : State :=
  let s := memAt a
  { s with
    efer := 0#64
    cs := { s.cs with l := false, d := true }
    ds := { s.ds with limit := 0x2FFF#32 }
    ss := { s.ss with limit := 0x2FFF#32 } }

/-- In virtual-8086 mode. -/
def v86At (a : Word) : State :=
  let s := memAt a
  { s with rflags := 0x20002#64 }

/-- In real mode. -/
def realAt (a : Word) : State :=
  let s := memAt a
  { s with cr0 := 0x20#64 }

/-- With the page at 0x3000 not present, the page at 0x4000 for the supervisor only, and alignment checking off. -/
def pagedAt (a : Word) : State :=
  let s := memAt a
  { s with cfg := { s.cfg with pages := ⟨[(3, { Page.unrestricted with present := false }),
      (4, { Page.unrestricted with userRead := false })], Page.unrestricted, true⟩ } }

/-- With alignment checking on (R65). -/
def checkedAt (a : Word) : State :=
  let s := memAt a
  { s with rflags := 0x40002#64, cr0 := s.cr0 ||| 0x40000#64 }

/-- With a side-effecting range at 0x2040 (R71). -/
def deviceAt (a : Word) : State :=
  let s := memAt a
  { s with cfg := { s.cfg with sideEffecting := [(0x2040, 16)] } }

theorem enabled_mmx {i : Instr} {s : State} (h : formClass i = .mmx) (e : MmxEnabled s) : Enabled i s := by
  obtain ⟨h1, h2, h3, h4⟩ := e
  exact ⟨by simp [UdByState, h, h1, h4], h2, fun _ => h3⟩

theorem enabled_sse {i : Instr} {s : State} (h : formClass i = .sse) (e : SseEnabled s) : Enabled i s := by
  obtain ⟨h1, h2, h3, h4⟩ := e
  exact ⟨by simp [UdByState, h, h1, h2, h4], h3, by simp [h]⟩

theorem enabled_evex {i : Instr} {s : State} (h : formClass i = .evex) (e : EvexEnabled (rowFeatures i) s) : Enabled i s := by
  obtain ⟨h1, h2, h3, h4, h5, h6, h7⟩ := e
  refine ⟨?_, h5, by simp [h]⟩
  rcases h1 with h1 | h1 | h1 <;> simp [UdByState, h, h1, h2, h3, h4, h6] <;> exact h7

theorem enabled_vex {i : Instr} {s : State} {f : Feature} (h : formClass i = .vex) (hf : rowFeatures i = [f])
    (e : VexEnabled f s) : Enabled i s := by
  obtain ⟨h1, h2, h3, h4, h5⟩ := e
  refine ⟨?_, h4, by simp [h]⟩
  rcases h1 with h1 | h1 | h1 <;> simp [UdByState, h, hf, h1, h2, h3, h5]

theorem InterleaveHighByElements_64 : (64 = 64 ∨ 64 = 128) ∧ 0 < 32 ∧ 32 ∣ 64 / 2 ∧
    elem 0x8877665544332211#64 (64 / 2) 1 = elem 0x8877665500000000#64 (64 / 2) 1 := by decide

theorem InterleaveHighByElements_128 : (128 = 64 ∨ 128 = 128) ∧ 0 < 8 ∧ 8 ∣ 128 / 2 ∧
    elem (1#128 <<< 64) (128 / 2) 1 = elem (1#128 <<< 64 ||| 7#128) (128 / 2) 1 := by decide

theorem UnpackHighByLanes_512 : (512 = 128 ∨ 512 = 256 ∨ 512 = 512) ∧ 0 < 64 ∧ 64 ∣ 64 ∧ 3 < 512 / 128 := by decide

theorem ZeroAndEqualSources_128 : (128 = 64 ∨ 128 = 128) ∧ 0 < 8 ∧ 8 ∣ 128 / 2 ∧ 7 < 128 / 8 / 2 := by decide

theorem ReadsAreLittleEndian_512 : 63 < 512 / 8 ∧ 8 ∣ 32 ∧ 0 < 32 ∧ 32 * (15 + 1) ≤ 512 ∧ 8 ∣ 512 := by decide

theorem MmxFormsComplete_reg : MmxEnabled mmxState ∧ MmxSupplies mmxState hMm (.reg 1#3) 0x1716151413121110#64 :=
  ⟨⟨by decide +kernel, by decide +kernel, by decide +kernel, by decide +kernel⟩,
    show _ = _ by decide +kernel⟩

theorem MmxFormsComplete_mem : MmxEnabled (memAt 0x2001#64) ∧
    MmxSupplies (memAt 0x2001#64) hMm (.mem atRax) 0x0908070605040302#64 :=
  ⟨by unfold MmxEnabled; decide +kernel, 0x2001#64, by unfold Readable; decide +kernel, by unfold BytesAt; decide +kernel⟩

theorem SseFormsComplete_reg : SseEnabled sseState ∧
    SseSupplies sseState hXmm (.reg 1#3) 0x8F8E8D8C8B8A89888786858483828180#128 :=
  ⟨by unfold SseEnabled; decide +kernel, show _ = _ by decide +kernel⟩

theorem SseFormsComplete_mem : SseEnabled (memAt 0x2000#64) ∧
    SseSupplies (memAt 0x2000#64) hXmm (.mem atRax) 0x100F0E0D0C0B0A090807060504030201#128 :=
  ⟨by unfold SseEnabled; decide +kernel, 0x2000#64, by unfold Readable; decide +kernel, by unfold BytesAt; decide +kernel⟩

theorem Vex128FormsComplete_reg : VexEnabled .avx vexState ∧
    VexSupplies vexState 128 hVex (.reg 3#3) 0x8F8E8D8C8B8A89888786858483828180#128 :=
  ⟨by unfold VexEnabled protectedOrLong; decide +kernel, show _ = _ by decide +kernel⟩

theorem Vex128FormsComplete_mem : VexEnabled .avx (memAt 0x2001#64) ∧
    VexSupplies (memAt 0x2001#64) 128 hVex (.mem atRax) 0x11100F0E0D0C0B0A0908070605040302#128 :=
  ⟨by unfold VexEnabled protectedOrLong; decide +kernel, 0x2001#64, by unfold Readable; decide +kernel,
    by unfold BytesAt; decide +kernel⟩

theorem Vex256FormsComplete_reg : vexState.cfg.wf = true ∧ VexEnabled .avx2 vexState ∧
    VexSupplies vexState 256 hVex (.reg 3#3) (vexState.readVec 256 3#5) :=
  ⟨by decide +kernel, by unfold VexEnabled protectedOrLong; decide +kernel, rfl⟩

theorem Vex256FormsComplete_mem : (memAt 0x2001#64).cfg.wf = true ∧ VexEnabled .avx2 (memAt 0x2001#64) ∧
    VexSupplies (memAt 0x2001#64) 256 hVex (.mem atRax) ((memAt 0x2001#64).memRead 256 0x2001#64) :=
  ⟨by decide +kernel, by unfold VexEnabled protectedOrLong; decide +kernel, 0x2001#64, by unfold Readable; decide +kernel,
    by unfold BytesAt; decide +kernel⟩

theorem EvexByteWordFormsComplete_reg :
    (16, Instr.vpunpckhwdEvex512 hEvex true 1#3 (.reg 3#3)) ∈ evexRowsC .v512 hEvex true 1#3 (.reg 3#3) ∧
    EvexEnabled [.avx512bw] (evexState 5#64) ∧
    EvexSupplies (evexState 5#64) 512 hEvex (.reg 3#3) ((evexState 5#64).readVec 512 3#5) :=
  ⟨by decide, by unfold EvexEnabled protectedOrLong; decide +kernel, rfl⟩

theorem EvexByteWordFormsComplete_mem :
    (8, Instr.vpunpckhbwEvex128 hEvex true 1#3 (.mem atRax)) ∈ evexRowsC .v128 hEvex true 1#3 (.mem atRax) ∧
    EvexEnabled [.avx512vl, .avx512bw] (memAt 0x2001#64) ∧
    EvexSupplies (memAt 0x2001#64) 128 hEvex (.mem atRax) 0x11100F0E0D0C0B0A0908070605040302#128 :=
  ⟨by decide, by unfold EvexEnabled protectedOrLong; decide +kernel, 0x2001#64, by unfold Readable; decide +kernel,
    by unfold BytesAt; decide +kernel⟩

theorem EvexDoubleQuadFormsComplete_reg :
    (64, Instr.vpunpckhqdqEvex256 hEvex 1#3 (.reg 3#3)) ∈ evexRowsD .v256 hEvex 1#3 (.reg 3#3) ∧
    EvexEnabled [.avx512vl, .avx512f] (evexState 5#64) ∧
    EvexBcstSupplies (evexState 5#64) 64 256 hEvex (.reg 3#3) ((evexState 5#64).readVec 256 3#5) :=
  ⟨by decide, by unfold EvexEnabled protectedOrLong; decide +kernel, rfl⟩

theorem EvexDoubleQuadFormsComplete_mem :
    (32, Instr.vpunpckhdqEvex512 hEvex 1#3 (.mem atRax)) ∈ evexRowsD .v512 hEvex 1#3 (.mem atRax) ∧
    EvexEnabled [.avx512f] (memAt 0x2001#64) ∧
    EvexBcstSupplies (memAt 0x2001#64) 32 512 hEvex (.mem atRax) ((memAt 0x2001#64).memRead 512 0x2001#64) :=
  ⟨by decide, by unfold EvexEnabled protectedOrLong; decide +kernel, 0x2001#64, by unfold Readable; decide +kernel,
    by unfold BytesAt; decide +kernel⟩

theorem EvexDoubleQuadFormsComplete_bcst :
    (32, Instr.vpunpckhdqEvex512 hEvex 1#3 (.bcst atRax)) ∈ evexRowsD .v512 hEvex 1#3 (.bcst atRax) ∧
    EvexEnabled [.avx512f] (memAt 0x2001#64) ∧
    EvexBcstSupplies (memAt 0x2001#64) 32 512 hEvex (.bcst atRax) (broadcast 32 512 0x05040302#32) :=
  ⟨by decide, by unfold EvexEnabled protectedOrLong; decide +kernel, 0x05040302#32,
    ⟨0x2001#64, by unfold Readable; decide +kernel, by unfold BytesAt; decide +kernel⟩, by decide +kernel⟩

/-- A form that completes, and one that faults; and a 64-bit address without a 67 prefix. -/
theorem RipAdvancesByLength_cases :
    (∃ t, exec (.punpckhbwMm hMm 0#3 (.reg 1#3)) mmxState = .next t ∧ (t.rip == 0x400003#64) = true) ∧
    (∃ f, exec (.punpckhbwXmm hXmm 0#3 (.mem atRax)) (memAt 0x2008#64) = .fault f ∧ f.vector = 13 ∧ f.code = some 0#32) ∧
    base.mode = .long64 ∧ Prefix.addrSize ∉ (legacyContext hMm (.reg 1#3)).prefixes :=
  ⟨nextIs_elim (by decide +kernel), faultIs_elim (a := 0#64) (by decide +kernel), by decide +kernel, by decide⟩

theorem InstructionsLeaveTheRestAlone_mmx : ∃ t, exec (.punpckhbwMm hMm 0#3 (.reg 1#3)) mmxState = .next t ∧
    (t.fsw == 0#16) = true := nextIs_elim (by decide +kernel)

theorem InstructionsLeaveTheRestAlone_vex : ∃ t, exec (.vpunpckhbwVex128 hVex 1#3 (.reg 3#3)) vexState = .next t ∧
    (t.k == vexState.k) = true := nextIs_elim (by decide +kernel)

theorem FlagsUntouched_cases : (endState (exec (.punpckhbwMm hMm 0#3 (.reg 1#3)) mmxState)).isSome = true ∧
    bitAt 0x40002#64 17 = bitAt 0x40AD7#64 17 ∧ bitAt 0x40002#64 18 = bitAt 0x40AD7#64 18 := by decide +kernel

/-- Both sides of R212 to R214: in real mode the VEX form is `#UD`. -/
theorem UdExactlyByState_cases : UdByState (.vpunpckhbwVex128 hVex 1#3 (.reg 3#3)) (realAt 0#64) ∧
    UdByState (.punpckhbwXmm hXmm 0#3 (.reg 1#3)) State.reset ∧ ¬ UdByState (.punpckhbwMm hMm 0#3 (.reg 1#3)) State.reset :=
  ⟨.inl (by decide +kernel), .inr (.inl (by decide +kernel)),
    show ¬ (_ = true ∨ _ = false) by decide +kernel⟩

theorem NmExactlyByTaskSwitched_case : ∃ f, exec (.vpunpckhbwVex128 hVex 1#3 (.reg 3#3)) { base with cr0 := base.cr0 ||| 8#64 } = .fault f ∧
    f.vector = 7 ∧ f.code = none := faultIs_elim (a := 0#64) (by decide +kernel)

theorem MfExactlyByPendingX87Error_cases :
    (∃ f, exec (.punpckhbwMm hMm 0#3 (.reg 1#3)) { base with fsw := 0x80#16 } = .fault f ∧ f.vector = 16 ∧ f.code = none) ∧
    exec (.punpckhbwMm hMm 0#3 (.reg 1#3)) { base with fsw := 0x80#16, cr0 := base.cr0 &&& ~~~ 0x20#64 } = .refused .externalX87Error :=
  ⟨faultIs_elim (a := 0#64) (by decide +kernel), refusedAs_elim (by decide +kernel)⟩

/-- The clauses of the operand checks: SS and another segment at the last offset and past it, a missing page after and before the
alignment test, misalignment, alignment checking, a side-effecting range, and a read. -/
theorem OperandChecksInOrder_cases :
    Enabled (.punpckhbwMm hMm 0#3 (.mem atRax)) (memAt 0x2000#64) ∧
    memOperand (.punpckhbwMm hMm 0#3 (.mem atRax)) = some (64, .mmx, legacyContext hMm (.mem atRax), atRax) ∧
    Enabled (.punpckhbwXmm hXmm 0#3 (.mem atRax)) (memAt 0x2000#64) ∧
    memOperand (.punpckhbwXmm hXmm 0#3 (.mem atRax)) = some (128, .legacy128, legacyContext hXmm (.mem atRax), atRax) ∧
    (protAt 0x2FF9#64).translate .ss 0x2FF9#64 8 .dataRead = .ss ∧ (protAt 0x2FF9#64).translate .ds 0x2FF9#64 8 .dataRead = .gp ∧
    (protAt 0x2FF8#64).translate .ds 0x2FF8#64 8 .dataRead = .ok 0x2FF8#64 ∧
    (pagedAt 0x2FF9#64).translate .ds 0x2FF9#64 8 .dataRead = .pf 4#32 0x3000#64 0x2FF9#64 ∧
    gpByAlignment .legacy128 0x2FF9#64 = true ∧ gpByAlignment .legacy128 0x3000#64 = false ∧
    acByAlignment .mmx (checkedAt 0x2004#64) 0x2004#64 = true ∧ (deviceAt 0x2039#64).sideEffect 0x2039#64 8 = true ∧
    (deviceAt 0x2038#64).sideEffect 0x2038#64 8 = false :=
  ⟨enabled_mmx rfl (by unfold MmxEnabled; decide +kernel), rfl, enabled_sse rfl (by unfold SseEnabled; decide +kernel), rfl,
    by decide +kernel, by decide +kernel, by decide +kernel, by decide +kernel, by decide, by decide, by decide +kernel,
    by decide +kernel, by decide +kernel⟩

theorem LegacyOperandsMustBeAligned_case : SseEnabled (pagedAt 0x3001#64) ∧
    (pagedAt 0x3001#64).segmentOk (operandSeg (legacyContext hXmm (.mem atRax)) atRax)
      ((pagedAt 0x3001#64).effectiveAddress (legacyContext hXmm (.mem atRax)) atRax) 16 .dataRead = true ∧
    ((pagedAt 0x3001#64).linear (operandSeg (legacyContext hXmm (.mem atRax)) atRax)
      ((pagedAt 0x3001#64).effectiveAddress (legacyContext hXmm (.mem atRax)) atRax)).toNat % 16 ≠ 0 :=
  ⟨by unfold SseEnabled; decide +kernel, by decide +kernel, by decide +kernel⟩

theorem VexAndEvexVectorsNeedNoAlignment_vex : Enabled (.vpunpckhbwVex256 hVex 1#3 (.mem atRax)) (checkedAt 0x2001#64) ∧
    memOperand (.vpunpckhbwVex256 hVex 1#3 (.mem atRax)) = some (256, .free, vexContext hVex (.mem atRax), atRax) ∧
    (checkedAt 0x2001#64).translate .ds 0x2001#64 (256 / 8) .dataRead = .ok 0x2001#64 ∧
    (checkedAt 0x2001#64).sideEffect 0x2001#64 (256 / 8) = false :=
  ⟨enabled_vex (f := .avx2) rfl rfl (by unfold VexEnabled protectedOrLong; decide +kernel), rfl, by decide +kernel,
    by decide +kernel⟩

theorem AlignmentCheckExactly_mmx : (checkedAt 0x2004#64).acOn = true ∧
    Enabled (.punpckhbwMm hMm 0#3 (.mem atRax)) (checkedAt 0x2004#64) ∧
    (checkedAt 0x2004#64).translate .ds 0x2004#64 8 .dataRead = .ok 0x2004#64 ∧
    ∃ f, exec (.punpckhbwMm hMm 0#3 (.mem atRax)) (checkedAt 0x2004#64) = .fault f ∧ f.vector = 17 ∧ f.code = some 0#32 :=
  ⟨by decide +kernel, enabled_mmx rfl (by unfold MmxEnabled; decide +kernel), by decide +kernel,
    faultIs_elim (a := 0#64) (by decide +kernel)⟩

theorem AlignmentCheckExactly_element : (checkedAt 0x2002#64).acOn = true ∧
    Enabled (.vpunpckhdqEvex512 hEvex 1#3 (.bcst atRax)) (checkedAt 0x2002#64) ∧
    (checkedAt 0x2002#64).translate .ds 0x2002#64 4 .dataRead = .ok 0x2002#64 ∧
    ∃ f, exec (.vpunpckhdqEvex512 hEvex 1#3 (.bcst atRax)) (checkedAt 0x2002#64) = .fault f ∧ f.vector = 17 ∧
      f.code = some 0#32 :=
  ⟨by decide +kernel, enabled_evex rfl (show EvexEnabled [.avx512f] _ by unfold EvexEnabled protectedOrLong; decide +kernel),
    by decide +kernel, faultIs_elim (a := 0#64) (by decide +kernel)⟩

/-- The failing byte is the first of the page at 0x3000 (not present), or the operand's own first byte (a protection violation, at
0x4000), and a fetch there; and the lowest address of an operand that wraps with both pages missing. -/
theorem PageFaultNamesFirstByte_cases :
    (pagedAt 0#64).translate .ds 0x2FFF#64 64 .dataRead = .pf 4#32 0x3000#64 0x2FFF#64 ∧
    (pagedAt 0#64).translate .ds 0x4000#64 1 .dataRead = .pf 5#32 0x4000#64 0x4000#64 ∧
    (pagedAt 0#64).translate .cs 0x3000#64 1 .fetch = .pf 0x14#32 0x3000#64 0x3000#64 ∧
    (pagedAt 0#64).segmentOk .ds 0x2FFF#64 64 .dataRead = true ∧
    (pagedAt 0#64).pageFault .dataRead ((pagedAt 0#64).linAdd 0x2FFF#64 1) = some 4#32 ∧
    (pagedAt 0#64).pageFault .dataRead 0x2FFF#64 = none ∧ (pagedAt 0#64).pageFault .fetch 0x4000#64 = none ∧
    (realAt 0#64).pagingOn = false ∧ (0x2FFF#64).toNat + 64 ≤ 2 ^ 64 ∧
    { base with cfg := { base.cfg with pages := ⟨[], { Page.unrestricted with present := false }, true⟩ } : State }.translate
      .ds 0xFFFFFFFFFFFFFFFC#64 8 .dataRead = .pf 4#32 0#64 0xFFFFFFFFFFFFFFFC#64 := by decide +kernel

/-- The modes of the segment checks, at the last offset that passes and the first that does not. -/
theorem SegmentChecks_cases : 0 < 8 ∧ base.mode = .long64 ∧ (realAt 0#64).mode = .real ∧ (v86At 0#64).mode = .v86 ∧
    (protAt 0#64).mode = .prot32 ∧
    base.translate .ds 0x7FFFFFFFFFF8#64 8 .dataRead = .ok 0x7FFFFFFFFFF8#64 ∧
    base.translate .ds 0x7FFFFFFFFFF9#64 8 .dataRead = .gp ∧
    base.translate .ss 0x7FFFFFFFFFF9#64 8 .dataRead = .ss ∧
    (realAt 0#64).translate .ds 0xFFF8#64 8 .dataRead = .ok 0xFFF8#64 ∧ (realAt 0#64).translate .ds 0xFFF9#64 8 .dataRead = .gp ∧
    (v86At 0#64).translate .ss 0xFFF8#64 8 .dataRead = .ok 0xFFF8#64 ∧ (v86At 0#64).translate .ss 0xFFF9#64 8 .dataRead = .ss ∧
    (realAt 0#64).translate .cs 0xFFFD#64 3 .fetch = .ok 0xFFFFFFFD#64 ∧ (realAt 0#64).translate .cs 0xFFFE#64 3 .fetch = .gp ∧
    (0 < 48 ∧ 48 ≤ 64) ∧ canonical 48 0xFFFF800000000000#64 = true ∧ canonical 48 0xFFFF7FFFFFFFFFFF#64 = false := by
  decide +kernel

theorem RealModeReportsNoCode_cases :
    (∃ f, exec (.punpckhbwMm hMm 0#3 (.mem (.abs16 0xFFFF#16))) (realAt 0#64) = .fault f ∧ f.vector = 13 ∧ f.code = none) ∧
    (∃ f, exec (.punpckhbwMm hMm 0#3 (.mem (.base16 6#3 (.d8 0#8)))) (v86At 0xFFFF#64) = .fault f ∧ f.vector = 12 ∧
      f.code = some 0#32) ∧ (realAt 0#64).mode = .real ∧ (v86At 0xFFFF#64).mode = .v86 :=
  ⟨faultIs_elim (a := 0#64) (by decide +kernel), faultIs_elim (a := 0#64) (by decide +kernel), by decide +kernel,
    by decide +kernel⟩

/-- A `#GP(0)` and a `#PF` of a step. -/
theorem FaultsArePrecise_cases :
    (∃ f, run (memAt 0x2008#64) [0x66#8, 0x0F#8, 0x68#8, 0x00#8] = .fault f ∧ f.vector = 13 ∧ f.code = some 0#32) ∧
    (∃ f, run (pagedAt 0x3004#64) [0x0F#8, 0x68#8, 0x00#8] = .fault f ∧ f.vector = 14 ∧ f.code = some 4#32) :=
  ⟨faultIs_elim (a := 0#64) (by decide +kernel), faultIs_elim (a := 0x3004#64) (by decide +kernel)⟩

theorem FaultVectorsAndCodes_cases :
    (∃ f, exec (.punpckhbwXmm hXmm 0#3 (.reg 1#3)) State.reset = .fault f ∧ f.vector = 6 ∧ f.code = none) ∧
    (∃ f, exec (.punpckhbwMm hMm 0#3 (.mem atRbp)) (memAt 0x800000000000#64) = .fault f ∧ f.vector = 12 ∧ f.code = some 0#32) ∧
    (∃ f, exec (.punpckhbwMm hMm 0#3 (.mem atRax)) (pagedAt 0x2FF9#64) = .fault f ∧ f.vector = 14 ∧ f.code = some 4#32) :=
  ⟨faultIs_elim (a := 0#64) (by decide +kernel), faultIs_elim (a := 0#64) (by decide +kernel),
    faultIs_elim (a := 0x3000#64) (by decide +kernel)⟩

/-- With an all-zero mask the operand is still read and checked; and a read that passes, and one that is refused. -/
theorem MasksSuppressNoFault_cases : formClass (.vpunpckhbwEvex512 hEvex false 1#3 (.mem atRax)) = .evex ∧
    (∃ f, exec (.vpunpckhbwEvex512 hEvex false 1#3 (.mem atRax)) (pagedAt 0x2FFF#64) = .fault f ∧ f.vector = 14 ∧
      f.code = some 4#32) ∧
    (∃ t, exec (.vpunpckhbwEvex512 hEvex false 1#3 (.mem atRax)) (memAt 0x2000#64) = .next t ∧ (t.k == base.k) = true) ∧
    exec (.vpunpckhbwEvex512 hEvex false 1#3 (.mem atRax)) (deviceAt 0x2010#64) = .refused .sideEffectingRegion :=
  ⟨rfl, faultIs_elim (a := 0x3000#64) (by decide +kernel), nextIs_elim (by decide +kernel), refusedAs_elim (by decide +kernel)⟩

theorem OnlyLowMaskBitsAreRead_case :
    (64, Instr.vpunpckhqdqEvex128 hEvex 1#3 (.reg 3#3)) ∈
      evexRowsC .v128 hEvex false 1#3 (.reg 3#3) ++ evexRowsD .v128 hEvex 1#3 (.reg 3#3) ∧
    ∀ j < 128 / 64, bitAt (evexState 0xFFFD#64).k[hEvex.mask.aaa.toNat] j = bitAt (evexState 1#64).k[hEvex.mask.aaa.toNat] j :=
  ⟨by decide, by decide +kernel⟩

theorem RefusalsAreTheTwoOfTheSpec_case :
    exec (.punpckhbwMm hMm 0#3 (.mem atRax)) (deviceAt 0x2039#64) = .refused .sideEffectingRegion :=
  refusedAs_elim (by decide +kernel)

theorem UnmaskedEvexEqualsVex_case :
    (∃ t, exec (.vpunpckhdqEvex256 ⟨[], false, false, false, false, 2#4, false, .none⟩ 1#3 (.reg 3#3)) vexState = .next t ∧
      (t.rip == 0x400006#64) = true) ∧
    (∃ u, exec (.vpunpckhdqVex256 ⟨[], .three false false false true, 2#4⟩ 1#3 (.reg 3#3)) vexState = .next u ∧
      (u.rip == 0x400005#64) = true) :=
  ⟨nextIs_elim (by decide +kernel), nextIs_elim (by decide +kernel)⟩

theorem PartialFetchIsNotObservable_case :
    (64, Instr.punpckhqdqXmm hXmm 0#3 (.mem atRax)) ∈ sseRows hXmm 0#3 (.mem atRax) ∧
    (endState (exec (.punpckhqdqXmm hXmm 0#3 (.mem atRax)) (memAt 0x2000#64))).isSome = true := by decide +kernel

/-- The spellings where they complete, and where both fault. -/
theorem VexSpellingsAgree_case :
    (∃ t, exec (.vpunpckhbwVex128 hVex 1#3 (.reg 3#3)) vexState = .next t ∧ (t.rip == 0x400004#64) = true) ∧
    (∃ u, exec (.vpunpckhbwVex128 ⟨[], .three false false false true, 2#4⟩ 1#3 (.reg 3#3)) vexState = .next u ∧
      (u.rip == 0x400005#64) = true) ∧
    (∃ f, exec (.vpunpckhbwVex128 hVex 1#3 (.reg 3#3)) State.reset = .fault f ∧ f.vector = 6 ∧ f.code = none) :=
  ⟨nextIs_elim (by decide +kernel), nextIs_elim (by decide +kernel), faultIs_elim (a := 0#64) (by decide +kernel)⟩

theorem RexIgnoredOnMmRegisters_case :
    ((8, Instr.punpckhbwMm ⟨[], some ⟨false, true, false, true⟩⟩ 0#3 (.reg 1#3)),
      (8, Instr.punpckhbwMm ⟨[], some ⟨true, false, false, false⟩⟩ 0#3 (.reg 1#3))) ∈
    (mmxRows ⟨[], some ⟨false, true, false, true⟩⟩ 0#3 (.reg 1#3)).zip
      (mmxRows ⟨[], some ⟨true, false, false, false⟩⟩ 0#3 (.reg 1#3)) := by decide

theorem AddressSizes_cases : addressSize .long64 [.addrSize] = .a32 ∧ Prefix.addrSize ∈ [Prefix.seg .ds, .addrSize] ∧
    Prefix.addrSize ∉ [Prefix.opSize] := by decide

theorem SibAddresses_cases :
    (addressSize base.mode [] = .a64 ∧ 64 = 64 ∨ addressSize base.mode [] = .a32 ∧ 64 = 32) ∧
    (addressSize base.mode [.addrSize] = .a64 ∧ 32 = 64 ∨ addressSize base.mode [.addrSize] = .a32 ∧ 32 = 32) := by decide +kernel

theorem RipRelativeAddresses_cases : base.mode = .long64 ∧ Prefix.addrSize ∉ [Prefix.seg .fs] ∧
    Prefix.addrSize ∈ [Prefix.addrSize] := by decide +kernel

theorem SixteenBitAddresses_case : (5#3 : BitVec 3) ≠ 6#3 := by decide

theorem OperandSegments_cases : base.mode = .long64 ∧ (num4 false 4#3).toNat = 4 ∧ (num4 false 5#3).toNat = 5 ∧
    ((num4 true 4#3).toNat ≠ 4 ∧ (num4 true 4#3).toNat ≠ 5) ∧ (∀ q ∈ [Prefix.opSize, .addrSize], ∀ g, q ≠ .seg g) ∧
    ([Prefix.seg .fs, .seg .gs, .addrSize] = [Prefix.seg .fs] ++ Prefix.seg .gs :: [.addrSize]) ∧
    base.translate .ss 0x7FFFFFFFFFF9#64 8 .dataRead = .ss ∧
    ((protAt 0#64).mode ≠ .long64 ∧ (protAt 0#64).translate .ds 0x2FF8#64 8 .dataRead = .ok 0x2FF8#64) :=
  ⟨by decide +kernel, by decide, by decide, by decide, by simp, rfl, by decide +kernel +revert, by decide +kernel⟩

/-- A memory operand of each class, without and with REX, in both spellings of VEX, and under EVEX. -/
theorem RegisterNumbers_cases : ∀ i ∈ [Instr.punpckhbwMm hMm 0#3 (.mem atRax),
      .punpckhbwXmm ⟨[.opSize], some ⟨false, true, false, true⟩⟩ 0#3 (.mem atRax), .vpunpckhbwVex128 hVex 1#3 (.mem atRax),
      .vpunpckhbwVex256 ⟨[], .three false true true false, 2#4⟩ 1#3 (.mem atRax),
      .vpunpckhdqEvex512 hEvex 1#3 (.bcst atRax)], (memOperand i).isSome = true := by decide

theorem CompressedDisplacement_cases :
    memOperand (.vpunpckhqdqEvex512 hEvex 1#3 (.bcst atRax)) = some (64, .element 8, evexContext hEvex 8 6, atRax) ∧
    formClass (.vpunpckhqdqEvex512 hEvex 1#3 (.bcst atRax)) = .evex ∧
    memOperand (.vpunpckhbwVex256 hVex 1#3 (.mem atRax)) = some (256, .free, vexContext hVex (.mem atRax), atRax) ∧
    formClass (.vpunpckhbwVex256 hVex 1#3 (.mem atRax)) ≠ .evex ∧ addressSize base.mode [] = .a64 :=
  ⟨rfl, rfl, rfl, by decide, by decide +kernel⟩

theorem DecodeOfEncode_cases :
    (Instr.vpunpckhdqEvex512 ⟨[.seg .fs, .addrSize], true, true, true, true, 10#4, true, .zeroing 7#3⟩ 1#3
      (.bcst (.sib 3#2 4#3 5#3 (.d32 0xFFFFFFFF#32)))).wf .long64 = true ∧
    (Instr.punpckhbwMm ⟨[], none⟩ 0#3 (.mem (.base16 6#3 (.d16 0x1234#16)))).wf .v86 = true := by decide

theorem EncodeOfDecode_case : decode .prot32 [0xC5#8, 0xE9#8, 0x68#8, 0x0D#8, 1#8, 2#8, 3#8, 4#8, 0x90#8]
    = .ok (.vpunpckhbwVex128 hVex 1#3 (.mem (.abs32 0x04030201#32))) [0x90#8] := by decide +kernel

/-- Bytes of at most 15, and thirteen prefixes more than that allows. -/
theorem DecodedIsWellFormed_cases :
    decode .long64 [0x0F#8, 0x68#8, 0xC1#8, 0x90#8] = .ok (.punpckhbwMm hMm 0#3 (.reg 1#3)) [0x90#8] ∧
    decode .long64 (List.replicate 13 0x3E#8 ++ [0x0F#8, 0x68#8, 0xC1#8])
      = .ok (.punpckhbwMm ⟨List.replicate 13 (.seg .ds), none⟩ 0#3 (.reg 1#3)) [] := by decide +kernel

theorem ForbiddenPrefixes_cases : (Instr.punpckhbwMm hMm 0#3 (.reg 1#3)).fieldsWf .real = true ∧
    (Instr.punpckhbwXmm hXmm 0#3 (.reg 1#3)).fieldsWf .prot16 = true ∧
    (Instr.vpunpckhbwVex128 hVex 1#3 (.reg 3#3)).fieldsWf .prot32 = true ∧
    (Instr.vpunpckhbwEvex512 hEvex false 1#3 (.mem atRax)).fieldsWf .long64 = true ∧
    encode (.vpunpckhbwVex128 ⟨[.seg .fs], .two false, 2#4⟩ 1#3 (.reg 3#3))
      = encodePrefixes [.seg .fs] ++ 0xC5#8 :: [0xE9#8, 0x68#8, 0xCB#8] ∧
    (Instr.vpunpckhbwVex128 ⟨[.seg .fs], .two false, 2#4⟩ 1#3 (.reg 3#3)).fieldsWf .long64 = true ∧
    decode .long64 [0x64#8, 0x48#8, 0xC5#8, 0xE9#8, 0x68#8, 0xCB#8] = .ud .prefixBeforeVex ∧
    decode .long64 [0x40#8, 0x62#8, 0xF1#8, 0x6D#8, 0x08#8, 0x68#8, 0xCB#8] = .ud .prefixBeforeVex ∧
    decode .prot32 [0x48#8, 0xC5#8, 0xE9#8, 0x68#8, 0xCB#8] = .refuse .notInScope := by decide

/-- A word of each decoder answer: an instruction, `#UD`, the four refusals, and 15 bytes that are not yet one. -/
theorem StepRunsDecoded_case : (put mmxState 0x400000 [0x0F#8, 0x68#8, 0xC1#8]).insideModel = true ∧
    (put mmxState 0x400000 [0x0F#8, 0x68#8, 0xC1#8]).fetched = .ok [0x0F#8, 0x68#8, 0xC1#8] ∧
    decode (put mmxState 0x400000 [0x0F#8, 0x68#8, 0xC1#8]).mode [0x0F#8, 0x68#8, 0xC1#8]
      = .ok (.punpckhbwMm hMm 0#3 (.reg 1#3)) [] ∧
    faultIs (run base [0x0F#8, 0x6D#8, 0xC1#8]) 6 none 0#64 = true ∧
    refusedAs (run base [0x90#8]) .notInScope = true ∧
    refusedAs (run base [0xF3#8, 0x0F#8, 0x68#8, 0xC1#8]) .repOnLegacy = true ∧
    refusedAs (run base [0x48#8, 0x66#8]) .rexNotLast = true ∧
    refusedAs (run { protAt 0#64 with cs := { (protAt 0#64).cs with base := 0#64, limit := 0xFFFFFFFF#32 } } [0xC4#8, 0xC1#8, 0x69#8, 0x68#8, 0xCB#8]) .registerAboveSeven = true ∧
    faultIs (run base (List.replicate 15 0x3E#8)) 13 (some 0#32) 0#64 = true := by decide +kernel

/-- `PUNPCKHBW mm0, mm1` at an address. -/
def atRip (s : State) (a : Word) : State := put { s with rip := a } a.toNat [0x0F#8, 0x68#8, 0xC1#8]

/-- An instruction whose last byte is the last of a page, with the next page missing. -/
theorem StepRunsEncodedBytes_case :
    let s := atRip (pagedAt 0#64) 0x2FFD#64
    s.insideModel = true ∧ (Instr.punpckhbwMm hMm 0#3 (.reg 1#3)).wf s.mode = true ∧
    s.translate .cs s.rip (Instr.punpckhbwMm hMm 0#3 (.reg 1#3)).length .fetch = .ok 0x2FFD#64 ∧
    nextIs (step s) (fun t => t.rip == 0x3000#64) = true := by decide +kernel

theorem StepRunsEncodedBytes_bytes : ∀ k, (hk : k < (encode (.punpckhbwMm hMm 0#3 (.reg 1#3))).length) →
    (atRip (pagedAt 0#64) 0x2FFD#64).byteAt
      ((atRip (pagedAt 0#64) 0x2FFD#64).linAdd ((atRip (pagedAt 0#64) 0x2FFD#64).linear .cs (atRip (pagedAt 0#64) 0x2FFD#64).rip) k)
        = (encode (.punpckhbwMm hMm 0#3 (.reg 1#3)))[k] := by decide +kernel

/-- Thirteen prefixes and three more bytes: 16 bytes. -/
def longInstr : Instr := .punpckhbwMm ⟨List.replicate 13 (.seg .ds), none⟩ 0#3 (.reg 1#3)

theorem LongInstructionsFault_case : (put base 0x400000 (encode longInstr)).insideModel = true ∧
    longInstr.fieldsWf (put base 0x400000 (encode longInstr)).mode = true ∧ 15 < longInstr.length ∧
    (put base 0x400000 (encode longInstr)).translate .cs 0x400000#64 15 .fetch = .ok 0x400000#64 ∧
    faultIs (step (put base 0x400000 (encode longInstr))) 13 (some 0#32) 0#64 = true ∧
    (put { pagedAt 0#64 with rip := 0x2FF2#64 } 0x2FF2 (encode longInstr)).translate .cs 0x2FF2#64 15 .fetch
      = .pf 0x14#32 0x3000#64 0x2FF2#64 ∧
    faultIs (step (put { pagedAt 0#64 with rip := 0x2FF2#64 } 0x2FF2 (encode longInstr))) 14 (some 0x14#32) 0x3000#64 = true := by
  decide +kernel

theorem LongInstructionsFault_bytes : ∀ k < 15, (encode longInstr)[k]? = some ((put base 0x400000 (encode longInstr)).byteAt
    ((put base 0x400000 (encode longInstr)).linAdd ((put base 0x400000 (encode longInstr)).linear .cs 0x400000#64) k)) := by
  decide +kernel

/-- In 32-bit mode with the last page missing: the instruction at `FFFFFFFEH` crosses the limit `FFFFFFFFH`. -/
def edgeState : State :=
  let s := pagedAt 0#64
  atRip { s with
    efer := 0#64
    cs := { s.cs with base := 0#64, limit := 0xFFFFFFFF#32, l := false, d := true }
    cfg := { s.cfg with pages := ⟨[(0xFFFFF, { Page.unrestricted with present := false })], Page.unrestricted, true⟩ } } 0xFFFFFFFE#64

/-- A missing page in the middle of the instruction; and a byte past the limit after one on a missing page, where `#GP(0)` goes first
(R67, R75). -/
theorem FetchFaultsComeFirst_case :
    (atRip (pagedAt 0#64) 0x2FFE#64).insideModel = true ∧
    (atRip (pagedAt 0#64) 0x2FFE#64).translate .cs 0x2FFE#64 3 .fetch = .pf 0x14#32 0x3000#64 0x2FFE#64 ∧
    faultIs (step (atRip (pagedAt 0#64) 0x2FFE#64)) 14 (some 0x14#32) 0x3000#64 = true ∧
    edgeState.mode = .prot32 ∧ edgeState.translate .cs edgeState.rip 2 .fetch = .pf 0x14#32 0xFFFFFFFE#64 0xFFFFFFFE#64 ∧
    edgeState.translate .cs edgeState.rip 3 .fetch = .gp ∧ faultIs (step edgeState) 13 (some 0#32) 0#64 = true := by
  decide +kernel

theorem FetchFaultsComeFirst_bytes : ∀ k, (hk : k < (encode (.punpckhbwMm hMm 0#3 (.reg 1#3))).length) →
    (atRip (pagedAt 0#64) 0x2FFE#64).byteAt ((atRip (pagedAt 0#64) 0x2FFE#64).linAdd 0x2FFE#64 k)
        = (encode (.punpckhbwMm hMm 0#3 (.reg 1#3)))[k] := by decide +kernel

theorem OutsideModelIsRefused_cases : bitAt { base with rflags := 0x102#64 : State }.rflags 8 = true ∧
    { base with dr7 := 0x401#64 : State }.dr7.extractLsb' 0 8 ≠ 0#8 := by decide +kernel

theorem StepKeepsInv_case : (put mmxState 0x400000 [0x0F#8, 0x68#8, 0xC1#8]).Inv ∧
    nextIs (step (put mmxState 0x400000 [0x0F#8, 0x68#8, 0xC1#8])) (fun t => Memory.wf t.mem) = true :=
  ⟨⟨by decide +kernel, fun _ _ hb => BitVec.getLsbD_of_ge _ _ hb, fun _ _ hb => BitVec.getLsbD_of_ge _ _ hb,
    fun h => absurd (by decide +kernel) h⟩, by decide +kernel⟩

/-- A processor with 128-bit vectors and 16-bit masks, in 32-bit mode, at the last address. -/
def smallState : State :=
  { protAt 0#64 with
    rip := 0xFFFFFFFF#64
    cfg := { Config.allFeatures with maxvl := .v128, kw := .k16 } }

theorem smallState_k : ∀ r : BitVec 3, smallState.k[r.toNat] = 0#64 := by decide +kernel

theorem StepKeepsInv_small : smallState.Inv :=
  ⟨by decide +kernel,
    fun r b _ => by
      have : smallState.readVec 512 r = 0#512 := by revert r; decide +kernel
      rw [this]; simp [bitAt],
    fun r b _ => by rw [smallState_k r]; simp [bitAt],
    fun _ => by decide +kernel⟩

/-- Two instructions one after the other (R266). -/
theorem RunsKeepModeAndMemory_case : ∃ t, Host.Core.run Sys2Proof.core 2
      (put mmxState 0x400000 [0x0F#8, 0x68#8, 0xC1#8, 0x66#8, 0x0F#8, 0x6D#8, 0xC1#8]) = .next t ∧
    (t.rip == 0x400007#64) = true :=
  nextIs_elim (o := (Host.Core.run Sys2Proof.core 2
    (put mmxState 0x400000 [0x0F#8, 0x68#8, 0xC1#8, 0x66#8, 0x0F#8, 0x6D#8, 0xC1#8]) : Host.Outcome State Fault Refusal))
    (p := fun t => t.rip == 0x400007#64) (by decide +kernel)

theorem ModeTable_cases : (realAt 0#64).pe = false ∧ ((v86At 0#64).pe = true ∧ (v86At 0#64).vm = true) ∧
    (base.pe = true ∧ base.vm = false ∧ base.cfg.has64 = true ∧ bitAt base.efer 10 = true ∧ base.cs.l = true) ∧
    ((protAt 0#64).pe = true ∧ (protAt 0#64).vm = false ∧ bitAt (protAt 0#64).efer 10 = false ∧ (protAt 0#64).cs.d = true) ∧
    { base with cs := { base.cs with l := false } : State }.mode = .prot16 := by decide +kernel

theorem ResetStateRunsOnlyMmx_case : formClass (.punpckhbwXmm hXmm 0#3 (.reg 1#3)) ≠ .mmx ∧
    (8, Instr.punpckhbwMm hMm 0#3 (.reg 1#3)) ∈ mmxRows hMm 0#3 (.reg 1#3) := by decide

/-! ### The host's words -/

/-- Row 1 as the table writes it, first byte most significant (R124), and with its first byte in the low bits. -/
theorem test_tableWord : decodeTableWord 16 0x0F68 = some (.punpckhbwMm hMm 0#3 (.mem atRax)) ∧
    decodeTableWord 16 0x680F = some (.punpckhbwMm hMm 0#3 (.mem atRax)) := by decide +kernel

theorem test_tableWord_runs : nextIs (step (State.reset.withFetchWord 24 0x660F68)) (fun t => t.rip == 0xFFF4#64) = true := by
  decide +kernel

end Sys2Proof.Tests
end

section
/-! PROOFS. The statements of 10_state.md: the invariant, the frame, RIP, the flags, the opmask registers, the modes. -/
namespace Sys2Proof.Proofs
open Sys2Proof.Machine Sys2Proof.Laws

/-! ### The five shared executions behind the 27 forms -/

/-- A meaning that one of the shared executions of the four classes gives (R143, R144, R160, R180). -/
inductive SharedExec : (State → Host.Outcome State Fault Refusal) → Prop
  | mmx (w : Nat) (h : LegacyHead) (reg : BitVec 3) (rm : Rm) : SharedExec (execMmx w h reg rm)
  | sse (w : Nat) (h : LegacyHead) (reg : BitVec 3) (rm : Rm) : SharedExec (execSse w h reg rm)
  | vex (w vl : Nat) (f : Feature) (h : VexHead) (reg : BitVec 3) (rm : Rm) : SharedExec (execVex w vl f h reg rm)
  | evexC (w vl : Nat) (fs : List Feature) (h : EvexHead) (reg : BitVec 3) (rm : Rm) : SharedExec (execEvexC w vl fs h reg rm)
  | evexD (w vl : Nat) (fs : List Feature) (h : EvexHead) (reg : BitVec 3) (rm : RmBcst) :
      SharedExec (execEvexD w vl fs h reg rm)

/-- Each of the 27 rows is a call of a shared execution (R91). -/
theorem exec_sharedExec (i : Instr) : SharedExec (exec i) := by
  cases i with
  | punpckhbwMm h reg rm | punpckhwdMm h reg rm | punpckhdqMm h reg rm => exact .mmx _ h reg rm
  | punpckhbwXmm h reg rm | punpckhwdXmm h reg rm | punpckhdqXmm h reg rm | punpckhqdqXmm h reg rm =>
    exact .sse _ h reg rm
  | vpunpckhbwVex128 h reg rm | vpunpckhwdVex128 h reg rm | vpunpckhdqVex128 h reg rm | vpunpckhqdqVex128 h reg rm
  | vpunpckhbwVex256 h reg rm | vpunpckhwdVex256 h reg rm | vpunpckhdqVex256 h reg rm | vpunpckhqdqVex256 h reg rm =>
    exact .vex _ _ _ h reg rm
  | vpunpckhbwEvex128 h _ reg rm | vpunpckhwdEvex128 h _ reg rm
  | vpunpckhbwEvex256 h _ reg rm | vpunpckhwdEvex256 h _ reg rm
  | vpunpckhbwEvex512 h _ reg rm | vpunpckhwdEvex512 h _ reg rm => exact .evexC _ _ _ h reg rm
  | vpunpckhdqEvex128 h reg rm | vpunpckhqdqEvex128 h reg rm
  | vpunpckhdqEvex256 h reg rm | vpunpckhqdqEvex256 h reg rm
  | vpunpckhdqEvex512 h reg rm | vpunpckhqdqEvex512 h reg rm => exact .evexD _ _ _ h reg rm

/-- What an execution answers from its entry checks, the read of its source and its result. -/
def answer {α : Type} (entry : Option Stop) (src : Except Stop α) (res : α → State) : Host.Outcome State Fault Refusal :=
  match entry with
  | some e => e.outcome
  | none =>
    match src with
    | .error e => e.outcome
    | .ok y => .next (res y)

theorem execMmx_eq_answer (w : Nat) (hd : LegacyHead) (reg : BitVec 3) (rm : Rm) (s : State) :
    execMmx w hd reg rm s = answer (entryStop .mmx [.mmx] s) (s.mmxSource hd rm) (mmxResult w hd reg rm s) := by
  unfold execMmx answer
  cases entryStop .mmx [.mmx] s with
  | some e => rfl
  | none => cases s.mmxSource hd rm <;> rfl

theorem execSse_eq_answer (w : Nat) (hd : LegacyHead) (reg : BitVec 3) (rm : Rm) (s : State) :
    execSse w hd reg rm s = answer (entryStop .sse [.sse2] s) (s.sseSource hd rm) (sseResult w hd reg rm s) := by
  unfold execSse answer
  cases entryStop .sse [.sse2] s with
  | some e => rfl
  | none => cases s.sseSource hd rm <;> rfl

theorem execVex_eq_answer (w vl : Nat) (f : Feature) (hd : VexHead) (reg : BitVec 3) (rm : Rm) (s : State) :
    execVex w vl f hd reg rm s = answer (entryStop .vex [f] s) (s.vexSource vl hd rm) (vexResult w vl hd reg rm s) := by
  unfold execVex answer
  cases entryStop .vex [f] s with
  | some e => rfl
  | none => cases s.vexSource vl hd rm <;> rfl

theorem execEvex_eq_answer (w vl : Nat) (fs : List Feature) (hd : EvexHead) (reg : BitVec 3)
    (src : Except Stop (BitVec vl)) (len : Nat) (s : State) :
    execEvex w vl fs hd reg src len s = answer (entryStop .evex fs s) src (evexResult w vl hd reg len s) := by
  unfold execEvex answer
  cases entryStop .evex fs s with
  | some e => rfl
  | none => cases src <;> rfl

/-! ### Inversion: what an outcome says about the execution it comes from -/

theorem outcome_ne_next (e : Stop) (t : State) : e.outcome ≠ .next t := by
  cases e <;> exact nofun

theorem outcome_eq_fault {e : Stop} {f : Fault} (h : e.outcome = .fault f) : e = .fault f := by
  cases e <;> cases h
  rfl

theorem answer_next {α : Type} {entry : Option Stop} {src : Except Stop α} {res : α → State} {t : State}
    (h : answer entry src res = .next t) : ∃ y, src = .ok y ∧ t = res y := by
  cases entry with
  | some e => exact absurd h (outcome_ne_next e t)
  | none =>
    cases src with
    | error e => exact absurd h (outcome_ne_next e t)
    | ok y =>
      cases h
      exact ⟨y, rfl, rfl⟩

/-- An instruction that completes does so with its frame. -/
theorem exec_next_frame {i : Instr} {s t : State} (h : exec i s = .next t) : Frame (formClass i) i.length s t := by
  rcases exec_answers i s with ⟨e, -, he⟩ | ⟨-, _, _, _, _, e, -, -, he⟩ | ⟨-, -, u, he, hu⟩
  · exact absurd (he.symm.trans h) (outcome_ne_next e t)
  · exact absurd (he.symm.trans h) (outcome_ne_next e t)
  · cases he.symm.trans h
    exact hu

/-- An instruction that faults has taken an exception in the state it started in (R225). -/
theorem exec_fault_raise {i : Instr} {s : State} {f : Fault} (h : exec i s = .fault f) : ∃ x, f = raise x s := by
  have raised {e : Stop} (hs : StopsFrom s e) (he : exec i s = e.outcome) : ∃ x, f = raise x s := by
    rw [outcome_eq_fault (he.symm.trans h)] at hs
    rcases hs with ⟨x, hx⟩ | hx | hx <;> cases hx
    exact ⟨x, rfl⟩
  rcases exec_answers i s with ⟨e, hs, he⟩ | ⟨-, _, _, _, _, e, -, hs, he⟩ | ⟨-, -, _, he, -⟩
  · exact raised (entryStop_stops _ _ s e hs) he
  · exact raised ((loadOperand_error s _ _ _ _ e hs).imp_right .inr) he
  · cases he.symm.trans h

/-- A step that completes is the execution of an instruction (R264). -/
theorem step_next_exec {s t : State} (h : step s = .next t) : ∃ i, exec i s = .next t := by
  unfold step at h
  split at h
  · split at h
    · cases h
    · split at h
      · exact ⟨_, h⟩
      all_goals cases h
  · cases h

/-! ### Vector registers: the bits that do not exist stay 0 (R26) -/

/-- The vector registers of `t` are those of `s`, or those of `s` after one register write (R144, R160, R180). -/
inductive VecWrite (s t : State) : Prop
  | none (h : t.zmm = s.zmm)
  | low (r : BitVec 5) (v : BitVec 128) (h : t.zmm = (s.setXmm r v).zmm)
  | whole (vl : Nat) (r : BitVec 5) (v : BitVec vl) (h : t.zmm = (s.setVec r v).zmm)

theorem exec_next_vecWrite {i : Instr} {s t : State} (h : exec i s = .next t) : VecWrite s t := by
  have shared := exec_sharedExec i
  generalize exec i = f at shared h
  cases shared with
  | mmx =>
    rw [execMmx_eq_answer] at h
    obtain ⟨y, -, rfl⟩ := answer_next h
    exact .none rfl
  | sse =>
    rw [execSse_eq_answer] at h
    obtain ⟨y, -, rfl⟩ := answer_next h
    exact .low _ _ rfl
  | vex =>
    rw [execVex_eq_answer] at h
    obtain ⟨y, -, rfl⟩ := answer_next h
    exact .whole _ _ _ rfl
  | evexC =>
    rw [execEvexC, execEvex_eq_answer] at h
    obtain ⟨y, -, rfl⟩ := answer_next h
    exact .whole _ _ _ rfl
  | evexD =>
    rw [execEvexD, execEvex_eq_answer] at h
    obtain ⟨y, -, rfl⟩ := answer_next h
    exact .whole _ _ _ rfl

/-- The bits of the vector registers at and above `MAXVL` are 0. -/
def VecAbsentZero (s : State) : Prop :=
  ∀ (r : BitVec 5) (b : Nat), vecBits s.cfg.maxvl ≤ b → bitAt (s.readVec 512 r) b = false

theorem le_vecBits (vl : VecLen) : 128 ≤ vecBits vl := by cases vl <;> decide

theorem VecAbsentZero.congr {s t : State} (h : VecAbsentZero s) (hz : t.zmm = s.zmm) (hc : t.cfg = s.cfg) :
    VecAbsentZero t := by
  intro r b hb
  have := h r b (hc ▸ hb)
  rwa [State.readVec, ← hz] at this

theorem VecAbsentZero.setVec {s : State} (h : VecAbsentZero s) {vl : Nat} (r : BitVec 5) (v : BitVec vl) :
    VecAbsentZero (s.setVec r v) := by
  intro q b hb
  rw [setVec_cfg] at hb
  by_cases hq : q = r
  · rw [hq, setVec_bit, decide_eq_false (Nat.not_lt.2 hb), Bool.false_and]
  · rw [readVec_setVec_other s r q v 512 hq]
    exact h q b hb

/-- A legacy 128-bit write keeps the bits from 128 up, and `MAXVL` is at least 128. -/
theorem VecAbsentZero.setXmm {s : State} (h : VecAbsentZero s) (r : BitVec 5) (v : BitVec 128) :
    VecAbsentZero (s.setXmm r v) := by
  intro q b hb
  rw [setXmm_cfg] at hb
  have hb128 := le_vecBits s.cfg.maxvl
  by_cases hq : q = r
  · rw [hq, setXmm_bit, if_neg (by omega)]
    exact h r b hb
  · rw [readVec_setXmm_other s r q v 512 hq]
    exact h q b hb

theorem VecAbsentZero.vecWrite {s t : State} (h : VecAbsentZero s) (hw : VecWrite s t) (hc : t.cfg = s.cfg) :
    VecAbsentZero t := by
  cases hw with
  | none hz => exact h.congr hz hc
  | low r v hz => exact (h.setXmm r v).congr hz hc
  | whole vl r v hz => exact (h.setVec r v).congr hz hc

/-! ### What the frame keeps -/

section Unchanged

variable {s t : State} (h : Unchanged s t)
include h

theorem unchanged_cfg : t.cfg = s.cfg := by rw [h]
theorem unchanged_mem : t.mem = s.mem := by rw [h]
theorem unchanged_k : t.k = s.k := by rw [h]
theorem unchanged_rflags : t.rflags = s.rflags := by rw [h]
theorem unchanged_mxcsr : t.mxcsr = s.mxcsr := by rw [h]
theorem unchanged_mode : t.mode = s.mode := by rw [h]; rfl
theorem unchanged_byteAt (a : Word) : t.byteAt a = s.byteAt a := by rw [State.byteAt, unchanged_mem h, State.byteAt]

end Unchanged

theorem frame_ripPast {c : FormClass} {len : Nat} {s t : State} (h : Frame c len s t) : RipPast s t len := by
  obtain ⟨hrip, -⟩ := h
  rw [RipPast, ripBits, hrip, nextRip_toNat]

theorem ripPast_lt_of_not_long64 {s t : State} {len : Nat} (h : RipPast s t len) (hm : s.mode ≠ .long64) :
    t.rip.toNat < 2 ^ 32 := by
  rw [h, ripBits, if_neg hm]
  exact Nat.mod_lt _ (by decide)

/-- An instruction that completes keeps the invariant. -/
theorem exec_keeps_inv {i : Instr} {s t : State} (hs : s.Inv) (h : exec i s = .next t) : t.Inv := by
  obtain ⟨hmem, hvec, hk, -⟩ := hs
  obtain ⟨-, hu, -⟩ := exec_next_frame h
  refine ⟨unchanged_mem hu ▸ hmem, VecAbsentZero.vecWrite hvec (exec_next_vecWrite h) (unchanged_cfg hu), ?_, fun hm => ?_⟩
  · rw [unchanged_cfg hu, unchanged_k hu]
    exact hk
  · exact ripPast_lt_of_not_long64 (frame_ripPast (exec_next_frame h)) (unchanged_mode hu ▸ hm)

/-- Settles O51: a step that completes is an execution, and that keeps each clause of the invariant. -/
theorem stepKeepsInv : Obligations.StepKeepsInv := by
  intro s t hs h
  obtain ⟨i, hi⟩ := step_next_exec h
  exact exec_keeps_inv hs hi

/-! ### The instruction pointer (R23) -/

/-- Taking an exception leaves RIP at the instruction's first byte. -/
@[simp] theorem raise_final_rip (x : Exn) (s : State) : (raise x s).final.rip = s.rip := by cases x <;> rfl

/-- In 64-bit mode without the byte 67 the address size is 64 (R108). -/
theorem addressSize_long64 {ps : List Prefix} (h : Prefix.addrSize ∉ ps) : addressSize .long64 ps = .a64 := by
  simp [addressSize, h]

theorem nextRip_long64 {s : State} (hm : s.mode = .long64) (len : Nat) :
    s.nextRip len = s.rip + BitVec.ofNat 64 len := if_pos hm

/-- The RIP-relative address of 64-bit mode (R106): the advanced RIP plus the displacement. -/
theorem effectiveAddress_ripRel {s : State} {c : AddrContext} (hm : s.mode = .long64) (hp : Prefix.addrSize ∉ c.prefixes)
    (d : BitVec 32) :
    s.effectiveAddress c (.ripRel d) = s.rip + BitVec.ofNat 64 c.length + d.signExtend 64 := by
  rw [State.effectiveAddress, hm, addressSize_long64 hp, nextRip_long64 hm]
  rfl

/-- Settles O11: by the frame, by the state an exception is taken in, and by the sum that is the address. -/
theorem ripAdvancesByLength : Obligations.RipAdvancesByLength := by
  refine ⟨fun i s t h => frame_ripPast (exec_next_frame h), fun i s f h => ?_, fun s c d hm hp => ?_⟩
  · obtain ⟨x, rfl⟩ := exec_fault_raise h
    exact raise_final_rip x s
  · rw [effectiveAddress_ripRel hm hp]
    have hlen : s.rip + BitVec.ofNat 64 c.length = BitVec.ofNat 64 (s.rip.toNat + c.length) := by
      rw [BitVec.ofNat_add, BitVec.ofNat_toNat, BitVec.setWidth_eq]
    rw [hlen, BitVec.toInt_add, BitVec.toInt_ofNat', BitVec.toInt_signExtend_of_le (by decide)]
    simp

/-- Settles O12: the frame that every completing form has. -/
theorem instructionsLeaveTheRestAlone : Obligations.InstructionsLeaveTheRestAlone := by
  intro i s t h
  obtain ⟨-, hu, hx87, hvec⟩ := exec_next_frame h
  exact ⟨hu, hx87, hvec, unchanged_byteAt hu⟩

/-! ### The mode table (R32, R219) -/

section Mode

variable {s : State}

theorem mode_of_pe_false (hpe : s.pe = false) : s.mode = .real := if_pos hpe

theorem mode_of_vm (hpe : s.pe = true) (hvm : s.vm = true) : s.mode = .v86 := by simp [State.mode, hpe, hvm]

/-- With `PE = 1` and `VM = 0` the bits L (where LMA counts) and D of CS choose the mode. -/
theorem mode_of_protected (hpe : s.pe = true) (hvm : s.vm = false) :
    s.mode = if s.lma && s.cs.l then .long64 else if s.cs.d then .prot32 else .prot16 := by
  simp [State.mode, hpe, hvm]

theorem lma_and_l_eq_false :
    (s.lma && s.cs.l) = false ↔ s.cfg.has64 = false ∨ bitAt s.efer 10 = false ∨ s.cs.l = false := by
  simp only [State.lma, Bool.and_eq_false_iff, or_assoc]

theorem currentCpl_of_real (hm : s.mode = .real) : s.currentCpl = 0#2 := by rw [State.currentCpl, hm]

theorem currentCpl_of_v86 (hm : s.mode = .v86) : s.currentCpl = 3#2 := by rw [State.currentCpl, hm]

theorem currentCpl_of_protectedOrLong (hm : protectedOrLong s.mode) : s.currentCpl = s.cpl := by
  rcases hm with hm | hm | hm <;> rw [State.currentCpl, hm]

end Mode

/-- Settles O54: each row of the table by the branch of `State.mode` it takes. -/
theorem modeTable : Obligations.ModeTable := by
  intro s
  refine ⟨fun hpe => ?_, fun hpe hvm => ?_, fun hpe hvm h64 hlma hl => ?_, fun hpe hvm hn hd => ?_,
    fun hpe hvm hn hd => ?_⟩
  · have hm := mode_of_pe_false hpe
    exact ⟨hm, currentCpl_of_real hm⟩
  · have hm := mode_of_vm hpe hvm
    exact ⟨hm, currentCpl_of_v86 hm⟩
  · have hm : s.mode = .long64 := by simp [mode_of_protected hpe hvm, State.lma, h64, hlma, hl]
    exact ⟨hm, currentCpl_of_protectedOrLong (.inr (.inr hm))⟩
  · have hm : s.mode = .prot32 := by simp [mode_of_protected hpe hvm, lma_and_l_eq_false.2 hn, hd]
    exact ⟨hm, currentCpl_of_protectedOrLong (.inr (.inl hm))⟩
  · have hm : s.mode = .prot16 := by simp [mode_of_protected hpe hvm, lma_and_l_eq_false.2 hn, hd]
    exact ⟨hm, currentCpl_of_protectedOrLong (.inl hm)⟩

/-! ### A change of RFLAGS, MXCSR and the opmask registers passes through execution

No check and no operand read looks at more of these registers than `VM` and `AC`, so a change of them that keeps those two bits
commutes with every operation, up to the end of the outcome. The opmask registers are looked at by the writemask alone. -/

/-- A change of RFLAGS, MXCSR and the opmask registers. -/
structure FlagChange where
  rflags : Word → Word
  mxcsr : BitVec 32 → BitVec 32
  k : Vector Word 8 → Vector Word 8

namespace FlagChange

/-- RFLAGS becomes `v`. -/
def setRflags (v : Word) : FlagChange := ⟨fun _ => v, id, id⟩

/-- MXCSR becomes `v`. -/
def setMxcsr (v : BitVec 32) : FlagChange := ⟨id, fun _ => v, id⟩

/-- The opmask registers become `k'`. -/
def setK (k' : Vector Word 8) : FlagChange := ⟨id, id, fun _ => k'⟩

/-- The state after the change. -/
def apply (g : FlagChange) (s : State) : State :=
  { s with rflags := g.rflags s.rflags, mxcsr := g.mxcsr s.mxcsr, k := g.k s.k }

/-- The change keeps `VM` and `AC` as they are in `s`. -/
def KeepsVmAc (g : FlagChange) (s : State) : Prop :=
  bitAt (g.rflags s.rflags) 17 = bitAt s.rflags 17 ∧ bitAt (g.rflags s.rflags) 18 = bitAt s.rflags 18

/-- The change does not show in what a writemask makes of a result of `s`. -/
def KeepsMask (g : FlagChange) (s : State) (w vl : Nat) (mask : Mask) : Prop :=
  ∀ t d : BitVec vl, (g.apply s).masked w vl mask t d = s.masked w vl mask t d

end FlagChange

/-- A stop with another state at its end. -/
def mapStop (g : State → State) : Stop → Stop
  | .fault f => .fault (f.mapFinal g)
  | .refused r => .refused r

theorem mapStop_outcome (g : State → State) (e : Stop) : (mapStop g e).outcome = mapOutcome g e.outcome := by
  cases e <;> rfl

section Change

variable {g : FlagChange} {s : State} (h : g.KeepsVmAc s)
include h

/-! #### Mode and privilege -/

theorem apply_vm : (g.apply s).vm = s.vm := h.1

theorem apply_acFlag : (g.apply s).acFlag = s.acFlag := h.2

theorem apply_mode : (g.apply s).mode = s.mode := by
  rw [State.mode, apply_vm h]
  rfl

theorem apply_currentCpl : (g.apply s).currentCpl = s.currentCpl := by
  rw [State.currentCpl, apply_mode h]
  rfl

theorem apply_acOn : (g.apply s).acOn = s.acOn := by
  rw [State.acOn, apply_acFlag h, apply_currentCpl h]
  rfl

theorem apply_raise (x : Exn) : raise x (g.apply s) = (raise x s).mapFinal g.apply :=
  raise_map g.apply x s (apply_mode h) fun _ => rfl

theorem apply_entryStop (c : FormClass) (fs : List Feature) :
    entryStop c fs (g.apply s) = (entryStop c fs s).map (mapStop g.apply) := by
  have hmode : udByMode c (g.apply s) = udByMode c s := by
    cases c <;> simp only [udByMode, apply_mode h]
  have hcontrol : udByControl c (g.apply s) = udByControl c s := rfl
  have hfeature : udByFeature c fs (g.apply s) = udByFeature c fs s := rfl
  have hts : (g.apply s).ts = s.ts := rfl
  have hes : (g.apply s).es87 = s.es87 := rfl
  have hne : (g.apply s).ne = s.ne := rfl
  unfold entryStop
  rw [hmode, hcontrol, hfeature, hts, hes, hne, apply_raise h, apply_raise h, apply_raise h]
  simp only [apply_ite (Option.map (mapStop g.apply)), Option.map_some, Option.map_none, mapStop]

/-! #### Translation and the operand read -/

theorem apply_linAdd (la : Word) (k : Nat) : (g.apply s).linAdd la k = s.linAdd la k := by
  rw [State.linAdd, apply_mode h]
  rfl

theorem apply_linear (r : Seg) (ea : Word) : (g.apply s).linear r ea = s.linear r ea := by
  unfold State.linear
  rw [apply_mode h]
  rfl

theorem apply_lastOffset (r : Seg) : (g.apply s).lastOffset r = s.lastOffset r := by
  rw [State.lastOffset, apply_mode h]
  rfl

theorem apply_segmentOk (r : Seg) (ea : Word) (n : Nat) (acc : Access) :
    (g.apply s).segmentOk r ea n acc = s.segmentOk r ea n acc := by
  simp only [State.segmentOk, apply_mode h, apply_linear h, apply_linAdd h, apply_lastOffset h]
  rfl

theorem apply_pageFault (acc : Access) (la : Word) : (g.apply s).pageFault acc la = s.pageFault acc la := by
  simp only [State.pageFault, State.pageCode, apply_currentCpl h]
  rfl

theorem apply_lowestPageFault (acc : Access) (la : Word) (n : Nat) :
    (g.apply s).lowestPageFault acc la n = s.lowestPageFault acc la n := by
  induction n with
  | zero => rfl
  | succ n ih =>
    rw [State.lowestPageFault, ih, apply_linAdd h, apply_pageFault h]
    rfl

theorem apply_translate (r : Seg) (ea : Word) (n : Nat) (acc : Access) :
    (g.apply s).translate r ea n acc = s.translate r ea n acc := by
  rw [State.translate, apply_segmentOk h, apply_linear h, apply_lowestPageFault h]
  rfl

theorem apply_acByAlignment (a : AlignRule) (la : Word) : acByAlignment a (g.apply s) la = acByAlignment a s la := by
  cases a <;> simp only [acByAlignment, apply_acOn h]

theorem apply_sideEffect (la : Word) (n : Nat) : (g.apply s).sideEffect la n = s.sideEffect la n := by
  simp only [State.sideEffect, apply_linAdd h]
  rfl

theorem apply_memRead (L : Nat) (la : Word) : (g.apply s).memRead L la = s.memRead L la := by
  simp only [State.memRead, apply_linAdd h]
  rfl

theorem apply_fetchOperand (L : Nat) (a : AlignRule) (la : Word) :
    (g.apply s).fetchOperand L a la = s.fetchOperand L a la := by
  simp only [State.fetchOperand, apply_memRead h, apply_linAdd h]
  rfl

theorem apply_loadOperand (L : Nat) (a : AlignRule) (r : Seg) (ea : Word) :
    (g.apply s).loadOperand L a r ea = (s.loadOperand L a r ea).mapError (mapStop g.apply) := by
  unfold State.loadOperand
  rw [apply_translate h]
  cases s.translate r ea (L / 8) .dataRead with
  | ss | gp => simp only [apply_raise h, Except.mapError, mapStop]
  | pf c x la =>
    simp only [apply_raise h]
    split_ifs <;> rfl
  | ok la =>
    simp only [apply_raise h, apply_acByAlignment h, apply_sideEffect h, apply_fetchOperand h]
    split_ifs <;> rfl

theorem apply_nextRip (len : Nat) : (g.apply s).nextRip len = s.nextRip len := by
  rw [State.nextRip, apply_mode h]
  rfl

theorem apply_effectiveAddress (c : AddrContext) (m : Mem) :
    (g.apply s).effectiveAddress c m = s.effectiveAddress c m := by
  simp only [State.effectiveAddress, apply_mode h, apply_nextRip h]
  rfl

theorem apply_loadMem (L : Nat) (a : AlignRule) (c : AddrContext) (m : Mem) :
    (g.apply s).loadMem L a c m = (s.loadMem L a c m).mapError (mapStop g.apply) := by
  rw [State.loadMem, apply_effectiveAddress h, apply_loadOperand h]
  rfl

/-! #### Sources and results -/

theorem apply_mmxSource (hd : LegacyHead) (rm : Rm) :
    (g.apply s).mmxSource hd rm = (s.mmxSource hd rm).mapError (mapStop g.apply) := by
  cases rm with
  | reg r => rfl
  | mem m => exact apply_loadMem h ..

theorem apply_sseSource (hd : LegacyHead) (rm : Rm) :
    (g.apply s).sseSource hd rm = (s.sseSource hd rm).mapError (mapStop g.apply) := by
  cases rm with
  | reg r => rfl
  | mem m => exact apply_loadMem h ..

theorem apply_vexSource (vl : Nat) (hd : VexHead) (rm : Rm) :
    (g.apply s).vexSource vl hd rm = (s.vexSource vl hd rm).mapError (mapStop g.apply) := by
  cases rm with
  | reg r => rfl
  | mem m => exact apply_loadMem h ..

theorem apply_evexSource (vl : Nat) (hd : EvexHead) (rm : Rm) :
    (g.apply s).evexSource vl hd rm = (s.evexSource vl hd rm).mapError (mapStop g.apply) := by
  cases rm with
  | reg r => rfl
  | mem m => exact apply_loadMem h ..

theorem apply_evexBcstSource (w vl : Nat) (hd : EvexHead) (rm : RmBcst) :
    (g.apply s).evexBcstSource w vl hd rm = (s.evexBcstSource w vl hd rm).mapError (mapStop g.apply) := by
  cases rm with
  | reg r => rfl
  | mem m => exact apply_loadMem h ..
  | bcst m =>
    simp only [State.evexBcstSource, apply_loadMem h]
    cases s.loadMem w _ _ m <;> rfl

theorem apply_advance (len : Nat) : (g.apply s).advance len = g.apply (s.advance len) := by
  rw [State.advance, apply_nextRip h]
  rfl

theorem apply_evexResult {w vl : Nat} {hd : EvexHead} (hm : g.KeepsMask s w vl hd.mask) (reg : BitVec 3) (len : Nat)
    (y : BitVec vl) : evexResult w vl hd reg len (g.apply s) y = g.apply (evexResult w vl hd reg len s y) := by
  rw [evexResult, hm]
  exact apply_advance (s := s.setVec _ _) h len

end Change

/-! #### The executions -/

/-- A change of state that passes through the entry checks, the source and the result passes through the execution. -/
theorem answer_map {α : Type} {g : State → State} {entry entry' : Option Stop} {src src' : Except Stop α}
    {res res' : α → State} (he : entry' = entry.map (mapStop g)) (hs : src' = src.mapError (mapStop g))
    (hr : ∀ y, res' y = g (res y)) : answer entry' src' res' = mapOutcome g (answer entry src res) := by
  subst he hs
  cases entry with
  | some e => exact mapStop_outcome g e
  | none =>
    cases src with
    | error e => exact mapStop_outcome g e
    | ok y => exact congrArg Host.Outcome.next (hr y)

theorem apply_execMmx {g : FlagChange} {s : State} (h : g.KeepsVmAc s) (w : Nat) (hd : LegacyHead) (reg : BitVec 3) (rm : Rm) :
    execMmx w hd reg rm (g.apply s) = mapOutcome g.apply (execMmx w hd reg rm s) := by
  rw [execMmx_eq_answer, execMmx_eq_answer]
  exact answer_map (apply_entryStop h ..) (apply_mmxSource h ..) fun _ => apply_advance (s := s.setMm _ _) h _

theorem apply_execSse {g : FlagChange} {s : State} (h : g.KeepsVmAc s) (w : Nat) (hd : LegacyHead) (reg : BitVec 3) (rm : Rm) :
    execSse w hd reg rm (g.apply s) = mapOutcome g.apply (execSse w hd reg rm s) := by
  rw [execSse_eq_answer, execSse_eq_answer]
  exact answer_map (apply_entryStop h ..) (apply_sseSource h ..) fun _ => apply_advance (s := s.setXmm _ _) h _

theorem apply_execVex {g : FlagChange} {s : State} (h : g.KeepsVmAc s) (w vl : Nat) (f : Feature) (hd : VexHead)
    (reg : BitVec 3) (rm : Rm) :
    execVex w vl f hd reg rm (g.apply s) = mapOutcome g.apply (execVex w vl f hd reg rm s) := by
  rw [execVex_eq_answer, execVex_eq_answer]
  exact answer_map (apply_entryStop h ..) (apply_vexSource h ..) fun _ => apply_advance (s := s.setVec _ _) h _

theorem apply_execEvexC {g : FlagChange} {s : State} (h : g.KeepsVmAc s) {w vl : Nat} {hd : EvexHead}
    (hm : g.KeepsMask s w vl hd.mask) (fs : List Feature) (reg : BitVec 3) (rm : Rm) :
    execEvexC w vl fs hd reg rm (g.apply s) = mapOutcome g.apply (execEvexC w vl fs hd reg rm s) := by
  rw [execEvexC, execEvexC, execEvex_eq_answer, execEvex_eq_answer]
  exact answer_map (apply_entryStop h ..) (apply_evexSource h ..) (apply_evexResult h hm reg _)

theorem apply_execEvexD {g : FlagChange} {s : State} (h : g.KeepsVmAc s) {w vl : Nat} {hd : EvexHead}
    (hm : g.KeepsMask s w vl hd.mask) (fs : List Feature) (reg : BitVec 3) (rm : RmBcst) :
    execEvexD w vl fs hd reg rm (g.apply s) = mapOutcome g.apply (execEvexD w vl fs hd reg rm s) := by
  rw [execEvexD, execEvexD, execEvex_eq_answer, execEvex_eq_answer]
  exact answer_map (apply_entryStop h ..) (apply_evexBcstSource h ..) (apply_evexResult h hm reg _)

/-! #### The writemask -/

/-- A change that keeps the low `vl / w` bits of the named opmask register does not show in a writemask (R181). -/
theorem keepsMask_of_low_bits {g : FlagChange} {s : State} {w vl : Nat} {mask : Mask}
    (h : mask ≠ .none → ∀ j < vl / w, bitAt (g.k s.k)[mask.aaa.toNat] j = bitAt s.k[mask.aaa.toNat] j) :
    g.KeepsMask s w vl mask := by
  have readMask_bit (hne : mask ≠ .none) (j : Nat) (hj : j < vl / w) :
      bitAt ((g.apply s).readMask mask.aaa) j = bitAt (s.readMask mask.aaa) j := by
    have hbit : (g.k s.k)[mask.aaa.toNat].getLsbD j = s.k[mask.aaa.toNat].getLsbD j := h hne j hj
    simp only [bitAt, State.readMask, lowBits_getLsbD]
    exact congrArg _ hbit
  intro t d
  cases mask with
  | none => rfl
  | merging r => exact applyMask_congr w vl _ _ false t d (readMask_bit nofun)
  | zeroing r => exact applyMask_congr w vl _ _ true t d (readMask_bit nofun)

/-- A change of RFLAGS and MXCSR that keeps `VM` and `AC` shows in the outcome of no instruction but as the change itself. -/
theorem apply_exec {g : FlagChange} {s : State} (h : g.KeepsVmAc s) (hk : g.k s.k = s.k) (i : Instr) :
    exec i (g.apply s) = mapOutcome g.apply (exec i s) := by
  have hm (w vl : Nat) (mask : Mask) : g.KeepsMask s w vl mask :=
    keepsMask_of_low_bits fun _ _ _ => by rw [hk]
  have shared := exec_sharedExec i
  generalize exec i = f at shared
  cases shared with
  | mmx => exact apply_execMmx h ..
  | sse => exact apply_execSse h ..
  | vex => exact apply_execVex h ..
  | evexC => exact apply_execEvexC h (hm _ _ _) ..
  | evexD => exact apply_execEvexD h (hm _ _ _) ..

/-! ### RFLAGS, MXCSR and the opmask registers (R25, R28) -/

theorem exec_endState_flags {i : Instr} {s t : State} (h : endState (exec i s) = some t) :
    t.rflags = s.rflags ∧ t.mxcsr = s.mxcsr ∧ t.k = s.k := by
  cases hx : exec i s with
  | next u =>
    cases hx ▸ h
    obtain ⟨-, hu, -⟩ := exec_next_frame hx
    exact ⟨unchanged_rflags hu, unchanged_mxcsr hu, unchanged_k hu⟩
  | fault f =>
    cases hx ▸ h
    obtain ⟨x, rfl⟩ := exec_fault_raise hx
    rw [raise_final]
    exact ⟨rfl, rfl, rfl⟩
  | refused r => cases hx ▸ h

/-- Settles O13: the frame for the writes, and the change that passes through execution for the reads. -/
theorem flagsUntouched : Obligations.FlagsUntouched :=
  ⟨fun _ _ _ h => exec_endState_flags h,
    fun i _ v => apply_exec (g := .setMxcsr v) ⟨rfl, rfl⟩ rfl i,
    fun i _ v hvm hac => apply_exec (g := .setRflags v) ⟨hvm, hac⟩ rfl i⟩

/-! ### The EVEX rows -/

theorem exec_evexRowsC {vl : VecLen} {h : EvexHead} {w : Bool} {reg : BitVec 3} {rm : Rm} {p : Nat × Instr}
    (hp : p ∈ evexRowsC vl h w reg rm) : exec p.2 = execEvexC p.1 (vecBits vl) (rowFeatures p.2) h reg rm := by
  cases vl <;> (rcases List.mem_pair.1 hp with rfl | rfl <;> rfl)

theorem exec_evexRowsD {vl : VecLen} {h : EvexHead} {reg : BitVec 3} {rm : RmBcst} {p : Nat × Instr}
    (hp : p ∈ evexRowsD vl h reg rm) : exec p.2 = execEvexD p.1 (vecBits vl) (rowFeatures p.2) h reg rm := by
  cases vl <;> (rcases List.mem_pair.1 hp with rfl | rfl <;> rfl)

/-- Settles O27: a change of the opmask registers alone keeps `VM` and `AC`, and the premise is that it does not show in the
writemask. -/
theorem onlyLowMaskBitsAreRead : Obligations.OnlyLowMaskBitsAreRead := by
  intro vl h w reg rm rmb s k' p hp hbits
  have hm : (FlagChange.setK k').KeepsMask s p.1 (vecBits vl) h.mask := keepsMask_of_low_bits hbits
  rcases List.mem_append.1 hp with hp | hp
  · rw [exec_evexRowsC hp]
    exact apply_execEvexC (g := .setK k') ⟨rfl, rfl⟩ hm ..
  · rw [exec_evexRowsD hp]
    exact apply_execEvexD (g := .setK k') ⟨rfl, rfl⟩ hm ..

end Sys2Proof.Proofs
end

section
/-! PROOFS. The statements of 20_memory.md: reads, translation, the checks of a memory operand, the fetch. -/
namespace Sys2Proof.Proofs
open Sys2Proof.Machine Sys2Proof.Laws

/-! ### Linear addresses (R66) -/

theorem lowBits_toNat {L n : Nat} (v : BitVec L) (h : n ≤ L) : (lowBits n v).toNat = v.toNat % 2 ^ n := by
  rw [lowBits, BitVec.toNat_setWidth_of_le h, BitVec.toNat_setWidth]

theorem linAdd_toNat (s : State) (la : Word) (k : Nat) :
    (s.linAdd la k).toNat = (la.toNat + k) % 2 ^ (if s.mode = .long64 then 64 else 32) := by
  unfold State.linAdd
  split
  · simp [BitVec.toNat_add]
  · simp only [lowBits_toNat _ (show 32 ≤ 64 by decide), BitVec.toNat_add, BitVec.toNat_ofNat]
    omega

/-- Going `j` and then `k` bytes on is going `j + k` bytes on, wherever the address wraps. -/
theorem linAdd_linAdd (s : State) (la : Word) (j k : Nat) : s.linAdd (s.linAdd la j) k = s.linAdd la (j + k) := by
  apply BitVec.eq_of_toNat_eq
  simp only [linAdd_toNat, Nat.mod_add_mod, Nat.add_assoc]

/-- Outside 64-bit mode the linear address is the segment's base plus the offset, modulo `2^32`. -/
theorem linear_toNat {s : State} (hm : s.mode ≠ .long64) (r : Seg) (ea : Word) :
    (s.linear r ea).toNat = ((s.seg r).base.toNat + ea.toNat) % 2 ^ 32 := by
  unfold State.linear
  rw [if_neg hm, lowBits_toNat _ (by decide), BitVec.toNat_add]
  omega

/-- In 64-bit mode CS has base 0. -/
theorem linear_cs {s : State} (hm : s.mode = .long64) (ea : Word) : s.linear .cs ea = ea := by
  rw [State.linear, if_pos hm]

/-! ### Reads (R10, R60) -/

/-- An element of a read, of whole bytes, is the read at the address of its first byte. -/
theorem elem_memRead (s : State) (L : Nat) (la : Word) {w i : Nat} (hw : 8 ∣ w) (h0 : 0 < w) (hi : w * (i + 1) ≤ L)
    (hL : 8 ∣ L) : elem (s.memRead L la) w i = s.memRead w (s.linAdd la (i * (w / 8))) := by
  obtain ⟨n, rfl⟩ := hw
  have hn : 8 * n / 8 = n := Nat.mul_div_cancel_left n (by decide)
  rw [hn]
  refine eq_of_elem_eq (w := 8) (by decide) _ _ fun k hk => ?_
  have hkn : k < n := by omega
  have hbyte : n * i + k < L / 8 := by
    rw [Nat.mul_assoc, Nat.mul_succ] at hi
    omega
  rw [elem_elem _ (8 * n) 8 i k (by omega) (by rw [hn]), hn, memRead_byte s L _ la hbyte,
    memRead_byte s (8 * n) k _ (hn.symm ▸ hkn), linAdd_linAdd, Nat.mul_comm n i]

/-- Settles O4: the bytes of a read, and from them its elements. -/
theorem readsAreLittleEndian : Obligations.ReadsAreLittleEndian :=
  fun s L la => ⟨fun k hk => memRead_byte s L k la hk, fun _ _ hw h0 hi hL => elem_memRead s L la hw h0 hi hL⟩

/-! ### Segment and canonical checks (R66, R218) -/

/-- Canonical: every bit from the top bit of the linear width up is that bit. -/
theorem canonical_iff {width : Nat} (la : Word) (h0 : 0 < width) (h64 : width ≤ 64) :
    canonical width la = true ↔ ∀ b < 64, width ≤ b + 1 → bitAt la b = bitAt la (width - 1) := by
  have hbit (b : Nat) (hb : b < 64) :
      ((la.setWidth width).signExtend 64).getLsbD b = if b < width then la.getLsbD b else la.getLsbD (width - 1) := by
    rw [BitVec.getLsbD_signExtend, BitVec.msb_eq_getLsbD_last, BitVec.getLsbD_setWidth, BitVec.getLsbD_setWidth]
    by_cases h : b < width
    · simp [hb, h]
    · simp [hb, h, h0]
  rw [canonical, beq_iff_eq, BitVec.eq_of_getLsbD_eq_iff]
  refine forall₂_congr fun b hb => ?_
  rw [hbit b hb, bitAt, bitAt]
  by_cases h : b < width
  · rw [if_pos h]
    refine ⟨fun _ hw => ?_, fun _ => rfl⟩
    rw [show width - 1 = b by omega]
  · rw [if_neg h]
    exact ⟨fun e _ => e.symm, fun e => (e (by omega)).symm⟩

theorem segmentOk_eq_false_of_long64 {s : State} (hm : s.mode = .long64) (r : Seg) (ea : Word) (n : Nat) (acc : Access) :
    s.segmentOk r ea n acc = false ↔ ∃ k < n, canonical s.cfg.linearBits (s.linAdd (s.linear r ea) k) = false := by
  rw [State.segmentOk, if_pos hm, List.all_eq_false]
  simp only [List.mem_range, Bool.not_eq_true]

theorem segmentOk_eq_false_of_not_long64 {s : State} (hm : s.mode ≠ .long64) (r : Seg) (ea : Word) {n : Nat} (hn : 0 < n)
    (acc : Access) :
    s.segmentOk r ea n acc = false ↔
      (acc = .dataRead ∧ ((s.seg r).readable = false ∨ (s.seg r).nonNull = false)) ∨ s.lastOffset r < ea.toNat + n - 1 := by
  have hrange : ¬ ea.toNat + n ≤ s.lastOffset r + 1 ↔ s.lastOffset r < ea.toNat + n - 1 := by omega
  rw [State.segmentOk, if_neg hm, Bool.and_eq_false_iff, Bool.or_eq_false_iff, Bool.and_eq_false_iff,
    decide_eq_false_iff_not, hrange]
  cases acc <;> simp

theorem lastOffset_of_realOrV86 {s : State} (hm : s.mode = .real ∨ s.mode = .v86) (r : Seg) : s.lastOffset r = 0xFFFF := by
  rcases hm with hm | hm <;> rw [State.lastOffset, hm]

theorem lastOffset_of_protected {s : State} (hm : s.mode = .prot16 ∨ s.mode = .prot32) (r : Seg) :
    s.lastOffset r = (s.seg r).limit.toNat := by
  rcases hm with hm | hm <;> rw [State.lastOffset, hm]

/-- A violation is #SS through SS and #GP otherwise (R217, R218). -/
theorem translate_eq_violation_iff (s : State) (r : Seg) (ea : Word) (n : Nat) (acc : Access) :
    s.translate r ea n acc = (if r = .ss then .ss else .gp) ↔ s.segmentOk r ea n acc = false := by
  rcases translate_cases s r ea n acc with ⟨hs, ht⟩ | ⟨hs, c, a, -, ht⟩ | ⟨hs, -, ht⟩ <;> rw [hs, ht]
  · simp
  all_goals split_ifs <;> simp

theorem translate_ok_la {s : State} {r : Seg} {ea : Word} {n : Nat} {acc : Access} {la : Word}
    (h : s.translate r ea n acc = .ok la) : la = s.linear r ea := by
  rcases translate_cases s r ea n acc with ⟨-, ht⟩ | ⟨-, c, a, -, ht⟩ | ⟨-, -, ht⟩ <;> rw [ht] at h
  · split_ifs at h
  · cases h
  · cases h
    rfl

/-- Settles O22: addresses as numbers, and the violation as the failed segment check of each mode. -/
theorem segmentChecks : Obligations.SegmentChecks := by
  have ne_long64 {m : Mode} : (m = .real ∨ m = .v86) ∨ m = .prot16 ∨ m = .prot32 → m ≠ .long64 := by
    rintro ((rfl | rfl) | rfl | rfl) <;> decide
  refine ⟨fun width la => canonical_iff la, linAdd_toNat,
    fun s r ea => ⟨fun hm => linear_toNat hm r ea, fun n acc la => translate_ok_la⟩,
    fun s r ea n hn => ?_, fun s ea n hn => ?_⟩
  · have violation := translate_eq_violation_iff s r ea n .dataRead
    refine ⟨fun hm => ?_, fun hm => ?_, fun hm => ?_⟩
    · rw [violation, segmentOk_eq_false_of_long64 hm]
    · rw [violation, segmentOk_eq_false_of_not_long64 (ne_long64 (.inl hm)) r ea hn, lastOffset_of_realOrV86 hm]
      simp [or_assoc]
    · rw [violation, segmentOk_eq_false_of_not_long64 (ne_long64 (.inr hm)) r ea hn, lastOffset_of_protected hm]
      simp [or_assoc]
  · have violation : s.translate .cs ea n .fetch = .gp ↔ _ := translate_eq_violation_iff s .cs ea n .fetch
    refine ⟨fun hm => ?_, fun hm => ?_, fun hm => ?_⟩
    · rw [violation, segmentOk_eq_false_of_long64 hm, linear_cs hm]
    · rw [violation, segmentOk_eq_false_of_not_long64 (ne_long64 (.inl hm)) .cs ea hn, lastOffset_of_realOrV86 hm]
      simp
    · rw [violation, segmentOk_eq_false_of_not_long64 (ne_long64 (.inr hm)) .cs ea hn, lastOffset_of_protected hm]
      simp [State.seg]

/-! ### Page checks (R66, R67, R220) -/

theorem pageAllows_eq (p : Page) (acc : Access) (user : Bool) :
    pageAllows p acc user =
      (p.present && match acc with
        | .dataRead => if user then p.userRead else p.supRead
        | .fetch => if user then p.userExec else p.supExec) := by
  cases acc <;> cases user <;> rfl

/-- A byte passes the page check where paging is off or its page allows the access. -/
theorem pageFault_eq_none_iff (s : State) (acc : Access) (a : Word) :
    s.pageFault acc a = none ↔
      s.pagingOn = false ∨ pageAllows (s.pageOf a) acc (s.currentCpl == 3#2) = true := by
  rw [State.pageFault]
  cases s.pagingOn <;> cases pageAllows (s.pageOf a) acc (s.currentCpl == 3#2) <;> simp

theorem pageFault_code {s : State} {acc : Access} {a : Word} {code : BitVec 32} (h : s.pageFault acc a = some code) :
    code = s.pageCode (s.pageOf a) acc := by
  unfold State.pageFault at h
  split_ifs at h
  exact (Option.some.inj h).symm

/-- The bits of the error code that R220 gives: bit 0, bit 1, bit 2 and bit 4. -/
theorem pageCode_bits (s : State) (p : Page) (acc : Access) :
    bitAt (s.pageCode p acc) 0 = p.present ∧ bitAt (s.pageCode p acc) 1 = false ∧
      bitAt (s.pageCode p acc) 2 = (s.currentCpl == 3#2) ∧
      bitAt (s.pageCode p acc) 4 = (acc == .fetch && s.cfg.pages.reportsFetch) := by
  have hcode : s.pageCode p acc = (p.codeRest &&& 0xFFFFFFE8#32) ||| (if p.present then 0x1#32 else 0#32) |||
      (if (s.currentCpl == 3#2) = true then 0x4#32 else 0#32) |||
      (if (acc == .fetch && s.cfg.pages.reportsFetch) = true then 0x10#32 else 0#32) := by
    simp [State.pageCode]
  rw [hcode]
  generalize p.present = present, (s.currentCpl == 3#2) = user, (acc == .fetch && s.cfg.pages.reportsFetch) = report
  simp only [bitAt, BitVec.getLsbD_or, BitVec.getLsbD_and]
  revert present user report
  simp

/-- An access faults on a page exactly when its segment checks pass and one of its bytes fails the page check. -/
theorem translate_eq_pf_iff (s : State) (r : Seg) (ea : Word) (n : Nat) (acc : Access) :
    (∃ code a la, s.translate r ea n acc = .pf code a la) ↔
      s.segmentOk r ea n acc = true ∧ ∃ k < n, s.pageFault acc (s.linAdd (s.linear r ea) k) ≠ none := by
  rcases translate_cases s r ea n acc with ⟨hs, ht⟩ | ⟨hs, c, a, hp, ht⟩ | ⟨hs, hp, ht⟩ <;> rw [hs, ht]
  · split_ifs <;> simp
  · obtain ⟨⟨k, hk, rfl⟩, hc, -⟩ := lowestPageFault_some s acc _ n c a hp
    exact ⟨fun _ => ⟨rfl, k, hk, by simp [hc]⟩, fun _ => ⟨c, _, _, rfl⟩⟩
  · have hnone := lowestPageFault_none s acc _ n hp
    exact ⟨nofun, fun ⟨_, k, hk, h⟩ => absurd (hnone k hk) h⟩

theorem translate_pf {s : State} {r : Seg} {ea : Word} {n : Nat} {acc : Access} {code : BitVec 32} {a la : Word}
    (h : s.translate r ea n acc = .pf code a la) :
    la = s.linear r ea ∧ s.lowestPageFault acc la n = some (code, a) := by
  rcases translate_cases s r ea n acc with ⟨-, ht⟩ | ⟨-, c, a', hp, ht⟩ | ⟨-, -, ht⟩ <;> rw [ht] at h
  · split_ifs at h
  · cases h
    exact ⟨rfl, hp⟩
  · cases h

/-- In an access that does not wrap, the failing byte of lowest address is the first failing byte. -/
theorem first_failing_of_lowest {s : State} {acc : Access} {la : Word} {n k : Nat}
    (hwrap : la.toNat + n ≤ 2 ^ (if s.mode = .long64 then 64 else 32)) (hk : k < n)
    (hlow : ∀ j < n, s.pageFault acc (s.linAdd la j) ≠ none → (s.linAdd la k).toNat ≤ (s.linAdd la j).toNat) :
    ∀ j < k, s.pageFault acc (s.linAdd la j) = none := by
  intro j hj
  by_contra hfail
  have hle := hlow j (by omega) hfail
  rw [linAdd_toNat, linAdd_toNat, Nat.mod_eq_of_lt (by omega), Nat.mod_eq_of_lt (by omega)] at hle
  omega

/-- Settles O21: the page check of a byte, and the lowest failing byte with its code. -/
theorem pageFaultNamesFirstByte : Obligations.PageFaultNamesFirstByte := by
  refine ⟨fun s acc a => ⟨?_, ?_⟩, fun s r ea n acc => ⟨translate_eq_pf_iff s r ea n acc, fun code a la h => ?_⟩⟩
  · rw [State.pagingOn, Bool.and_eq_true]
  · rw [pageFault_eq_none_iff, pageAllows_eq, Bool.and_eq_true]
    cases acc <;> simp only [beq_iff_eq]
  · obtain ⟨hla, hlow⟩ := translate_pf h
    obtain ⟨⟨k, hk, rfl⟩, hcode, hmin⟩ := lowestPageFault_some s acc la n code a hlow
    refine ⟨hla, hcode, ⟨k, hk, rfl⟩, hmin, fun hwrap => ⟨k, hk, rfl, first_failing_of_lowest hwrap hk hmin⟩, ?_⟩
    rw [pageFault_code hcode]
    exact pageCode_bits s _ acc

/-! ### Forms that pass their entry checks (R212 to R216) -/

theorem rowFeatures_of_mmx {i : Instr} (h : formClass i = .mmx) : rowFeatures i = [.mmx] := by
  cases i with
  | punpckhbwMm | punpckhwdMm | punpckhdqMm => rfl
  | _ => cases h

theorem rowFeatures_of_sse {i : Instr} (h : formClass i = .sse) : rowFeatures i = [.sse2] := by
  cases i with
  | punpckhbwXmm | punpckhwdXmm | punpckhdqXmm | punpckhqdqXmm => rfl
  | _ => cases h

theorem realOrV86_iff (m : Mode) : m.realOrV86 = true ↔ m = .real ∨ m = .v86 := by
  cases m <;> simp [Mode.realOrV86]

/-- The `#UD` of the state is the disjunction that the entry checks test first. -/
theorem udByState_iff (i : Instr) (s : State) :
    UdByState i s ↔ (udByMode (formClass i) s || udByControl (formClass i) s ||
      udByFeature (formClass i) (rowFeatures i) s) = true := by
  unfold UdByState
  cases hc : formClass i with
  | mmx => simp [udByMode, udByControl, udByFeature, rowFeatures_of_mmx hc, hasFeature]
  | sse => simp [udByMode, udByControl, udByFeature, rowFeatures_of_sse hc, hasFeature, or_assoc]
  | vex => simp [udByMode, udByControl, udByFeature, realOrV86_iff, or_assoc]
  | evex =>
    simp only [udByMode, udByControl, udByFeature, realOrV86_iff, Bool.or_eq_true, or_assoc]
    simp [or_comm]

theorem entryStop_of_enabled {i : Instr} {s : State} (h : Enabled i s) :
    entryStop (formClass i) (rowFeatures i) s = none := by
  obtain ⟨hud, hts, hes⟩ := h
  rw [udByState_iff, Bool.not_eq_true] at hud
  rcases entryStop_cases (formClass i) (rowFeatures i) s with ⟨hu, -⟩ | ⟨-, ht, -⟩ | ⟨-, -, hc, he, -⟩ | ⟨-, -, -, hn⟩
  · exact nomatch hud.symm.trans hu
  · exact nomatch hts.symm.trans ht
  · exact nomatch (hes hc).symm.trans he
  · exact hn

/-- The exceptions of the entry checks are #UD, #NM and #MF. -/
theorem entryStop_fault {c : FormClass} {fs : List Feature} {s : State} {f : Fault}
    (h : entryStop c fs s = some (.fault f)) : f = .ud s ∨ f = .nm s ∨ f = .mf s := by
  rcases entryStop_cases c fs s with ⟨-, he⟩ | ⟨-, -, he⟩ | ⟨-, -, -, -, he⟩ | ⟨-, -, -, he⟩ <;> rw [h] at he
  · cases he
    exact .inl rfl
  · cases he
    exact .inr (.inl rfl)
  · split_ifs at he <;> cases he
    exact .inr (.inr rfl)
  · cases he

/-! ### The memory operand of a form that passes its entry checks (R67, R68) -/

/-- What translating the operand of `L` bits at its segment and address answers. -/
abbrev operandXlate (s : State) (L : Nat) (c : AddrContext) (m : Mem) : Xlate :=
  s.translate (operandSeg c m) (s.effectiveAddress c m) (L / 8) .dataRead

section Operand

variable {i : Instr} {s : State} {L : Nat} {a : AlignRule} {c : AddrContext} {m : Mem} {la : Word} (h : Enabled i s)
  (ho : memOperand i = some (L, a, c, m))
include h ho

/-- A form whose operand read stops, stops there. -/
theorem exec_of_loadMem_error {e : Stop} (he : s.loadMem L a c m = .error e) : exec i s = e.outcome := by
  rcases exec_answers i s with ⟨e', hs, -⟩ | ⟨-, L', a', c', m', e', ho', he', hx⟩ | ⟨-, ho' | ⟨L', a', c', m', y, ho', hy⟩, -⟩
  · exact nomatch (entryStop_of_enabled h).symm.trans hs
  · cases ho.symm.trans ho'
    cases he.symm.trans he'
    exact hx
  · exact nomatch ho.symm.trans ho'
  · cases ho.symm.trans ho'
    exact nomatch he.symm.trans hy

/-- A form whose operand is read completes. -/
theorem exec_of_loadMem_ok {y : BitVec L} (hy : s.loadMem L a c m = .ok y) : ∃ t, exec i s = .next t := by
  rcases exec_answers i s with ⟨e, hs, -⟩ | ⟨-, L', a', c', m', e, ho', he, -⟩ | ⟨-, -, t, hx, -⟩
  · exact nomatch (entryStop_of_enabled h).symm.trans hs
  · cases ho.symm.trans ho'
    exact nomatch hy.symm.trans he
  · exact ⟨t, hx⟩

/-- The alignment #GP(0) goes before a page fault (R67). -/
theorem exec_of_misaligned (ht : operandXlate s L c m = .ok la ∨ ∃ code x, operandXlate s L c m = .pf code x la)
    (hg : gpByAlignment a la = true) : exec i s = .fault (.gp s.zeroCode s) := by
  refine exec_of_loadMem_error h ho (e := .fault (raise .gp s)) ?_
  rcases ht with ht | ⟨code, x, ht⟩ <;> simp [State.loadMem, State.loadOperand, ht, hg]

theorem exec_of_acMisaligned (ht : operandXlate s L c m = .ok la) (hg : gpByAlignment a la = false)
    (hac : acByAlignment a s la = true) : exec i s = .fault (.ac (some 0#32) s) :=
  exec_of_loadMem_error h ho (e := .fault (raise .ac s)) (by simp [State.loadMem, State.loadOperand, ht, hg, hac])

theorem exec_of_readable (hr : Readable s L a (operandSeg c m) (s.effectiveAddress c m) la) : ∃ t, exec i s = .next t := by
  obtain ⟨ht, hg, hac, hse⟩ := hr
  exact exec_of_loadMem_ok h ho (loadOperand_of_readable s L a _ _ la ht hg hac hse)

end Operand

/-- Settles O17: each answer of the translation, and then each check in its order. -/
theorem operandChecksInOrder : Obligations.OperandChecksInOrder := by
  intro i s L a c m h ho
  have stop (e : Stop) (he : s.loadMem L a c m = .error e) : exec i s = e.outcome := exec_of_loadMem_error h ho he
  cases ht : s.translate (operandSeg c m) (s.effectiveAddress c m) (L / 8) .dataRead with
  | ss => exact stop (.fault (raise .ss s)) (by simp [State.loadMem, State.loadOperand, ht])
  | gp => exact stop (.fault (raise .gp s)) (by simp [State.loadMem, State.loadOperand, ht])
  | pf code x la =>
    dsimp only
    split_ifs with hg
    · exact exec_of_misaligned h ho (.inr ⟨code, x, ht⟩) hg
    · exact stop (.fault (raise (.pf code x) s)) (by simp [State.loadMem, State.loadOperand, ht, hg])
  | ok la =>
    dsimp only
    split_ifs with hg hac hse
    · exact exec_of_misaligned h ho (.inl ht) hg
    · exact exec_of_acMisaligned h ho ht (Bool.eq_false_iff.2 hg) hac
    · exact stop (.refused .sideEffectingRegion) (by simp [State.loadMem, State.loadOperand, ht, hg, hac, hse])
    · exact exec_of_readable h ho
        ⟨ht, Bool.eq_false_iff.2 hg, Bool.eq_false_iff.2 hac, Bool.eq_false_iff.2 hse⟩

/-! ### Alignment (R63 to R65) -/

theorem sseRows_class {h : LegacyHead} {reg : BitVec 3} {rm : Rm} {p : Nat × Instr} (hp : p ∈ sseRows h reg rm) :
    formClass p.2 = .sse := by
  fin_cases hp <;> rfl

theorem sseRows_memOperand {h : LegacyHead} {reg : BitVec 3} {m : Mem} {p : Nat × Instr}
    (hp : p ∈ sseRows h reg (.mem m)) : memOperand p.2 = some (128, .legacy128, legacyContext h (.mem m), m) := by
  fin_cases hp <;> rfl

theorem enabled_of_sseEnabled {i : Instr} {s : State} (hc : formClass i = .sse) (h : SseEnabled s) : Enabled i s := by
  obtain ⟨hem, hos, hts, hfeat⟩ := h
  refine ⟨?_, hts, fun hm => nomatch hc.symm.trans hm⟩
  simp [UdByState, hc, hem, hos, hfeat]

/-- Where the segment checks pass, translation names the linear address, whatever the pages say. -/
theorem translate_of_segmentOk {s : State} {r : Seg} {ea : Word} {n : Nat} {acc : Access}
    (h : s.segmentOk r ea n acc = true) :
    s.translate r ea n acc = .ok (s.linear r ea) ∨ ∃ code x, s.translate r ea n acc = .pf code x (s.linear r ea) := by
  rcases translate_cases s r ea n acc with ⟨hs, -⟩ | ⟨-, code, x, -, ht⟩ | ⟨-, -, ht⟩
  · exact nomatch h.symm.trans hs
  · exact .inr ⟨code, x, ht⟩
  · exact .inl ht

/-- Settles O18: the alignment check stands before the page checks. -/
theorem legacyOperandsMustBeAligned : Obligations.LegacyOperandsMustBeAligned := by
  intro h reg m s hs p hp c hok hal
  exact exec_of_misaligned (enabled_of_sseEnabled (sseRows_class hp) hs) (sseRows_memOperand hp)
    (translate_of_segmentOk hok) (bne_iff_ne.2 hal)

/-- Settles O19: the rule `free` has no check that could fail. -/
theorem vexAndEvexVectorsNeedNoAlignment : Obligations.VexAndEvexVectorsNeedNoAlignment :=
  fun _ _ _ _ _ _ h ho ht hse => exec_of_readable h ho ⟨ht, rfl, rfl, hse⟩

/-- The alignment rule of an operand and its size (R63 to R65). -/
theorem memOperand_rule {i : Instr} {L : Nat} {a : AlignRule} {c : AddrContext} {m : Mem}
    (h : memOperand i = some (L, a, c, m)) :
    (a = .mmx ∧ L = 64) ∨ a = .legacy128 ∨ a = .element (L / 8) ∨ a = .free := by
  cases i with
  | punpckhbwMm _ _ rm | punpckhwdMm _ _ rm | punpckhdqMm _ _ rm =>
    cases rm <;> cases h
    exact .inl ⟨rfl, rfl⟩
  | punpckhbwXmm _ _ rm | punpckhwdXmm _ _ rm | punpckhdqXmm _ _ rm | punpckhqdqXmm _ _ rm =>
    cases rm <;> cases h
    exact .inr (.inl rfl)
  | vpunpckhbwVex128 _ _ rm | vpunpckhwdVex128 _ _ rm | vpunpckhdqVex128 _ _ rm | vpunpckhqdqVex128 _ _ rm
  | vpunpckhbwVex256 _ _ rm | vpunpckhwdVex256 _ _ rm | vpunpckhdqVex256 _ _ rm | vpunpckhqdqVex256 _ _ rm
  | vpunpckhbwEvex128 _ _ _ rm | vpunpckhwdEvex128 _ _ _ rm
  | vpunpckhbwEvex256 _ _ _ rm | vpunpckhwdEvex256 _ _ _ rm
  | vpunpckhbwEvex512 _ _ _ rm | vpunpckhwdEvex512 _ _ _ rm =>
    cases rm <;> cases h
    exact .inr (.inr (.inr rfl))
  | vpunpckhdqEvex128 _ _ rm | vpunpckhqdqEvex128 _ _ rm | vpunpckhdqEvex256 _ _ rm | vpunpckhqdqEvex256 _ _ rm
  | vpunpckhdqEvex512 _ _ rm | vpunpckhqdqEvex512 _ _ rm =>
    cases rm <;> cases h
    · exact .inr (.inr (.inr rfl))
    · exact .inr (.inr (.inl rfl))

/-- The alignment check of an operand: an MMX operand or an element, not at a multiple of its size, under `ac_on`. -/
theorem acByAlignment_iff {i : Instr} {L : Nat} {a : AlignRule} {c : AddrContext} {m : Mem}
    (h : memOperand i = some (L, a, c, m)) (s : State) (la : Word) :
    acByAlignment a s la = true ↔ s.acOn = true ∧ la.toNat % (L / 8) ≠ 0 ∧ (a = .mmx ∨ a = .element (L / 8)) := by
  rcases memOperand_rule h with ⟨rfl, rfl⟩ | rfl | rfl | rfl <;> simp [acByAlignment]

/-- An operand read that ends in #AC has translated and failed the alignment check. -/
theorem loadOperand_ac {s : State} {L : Nat} {a : AlignRule} {r : Seg} {ea : Word} {f : Fault}
    (h : s.loadOperand L a r ea = .error (.fault f)) (hv : f.vector = 17) :
    ∃ la, s.translate r ea (L / 8) .dataRead = .ok la ∧ acByAlignment a s la = true := by
  unfold State.loadOperand at h
  cases ht : s.translate r ea (L / 8) .dataRead with
  | ss | gp =>
    rw [ht] at h
    cases h
    cases hv
  | pf code x la =>
    rw [ht] at h
    dsimp only at h
    split_ifs at h <;> cases h <;> cases hv
  | ok la =>
    rw [ht] at h
    dsimp only at h
    split_ifs at h with hg hac hse <;> cases h
    · cases hv
    · exact ⟨la, rfl, hac⟩

/-- A form that faults with vector 17 failed the alignment check of its operand. -/
theorem exec_ac {i : Instr} {s : State} {f : Fault} (h : exec i s = .fault f) (hv : f.vector = 17) :
    ∃ L a c m la, memOperand i = some (L, a, c, m) ∧ operandXlate s L c m = .ok la ∧ acByAlignment a s la = true := by
  rcases exec_answers i s with ⟨e, hs, hx⟩ | ⟨-, L, a, c, m, e, ho, he, hx⟩ | ⟨-, -, t, hx, -⟩
  · rw [outcome_eq_fault (hx.symm.trans h)] at hs
    rcases entryStop_fault hs with rfl | rfl | rfl <;> cases hv
  · rw [outcome_eq_fault (hx.symm.trans h)] at he
    obtain ⟨la, ht, hac⟩ := loadOperand_ac he hv
    exact ⟨L, a, c, m, la, ho, ht, hac⟩
  · cases hx.symm.trans h

/-- Settles O20: vector 17 comes from the alignment check only, and the check answers it. -/
theorem alignmentCheckExactly : Obligations.AlignmentCheckExactly := by
  refine ⟨fun s => ?_, fun i s f h hv => ?_, fun i s L a c m la h ho ha hon ht hal => ?_⟩
  · simp [State.acOn, and_assoc]
  · obtain ⟨L, a, c, m, la, ho, ht, hac⟩ := exec_ac h hv
    obtain ⟨hon, hal, ha⟩ := (acByAlignment_iff ho s la).1 hac
    exact ⟨hon, L, a, c, m, la, ho, ht, hal, ha⟩
  · have hg : gpByAlignment a la = false := by
      rcases ha with rfl | rfl <;> rfl
    exact exec_of_acMisaligned h ho ht hg ((acByAlignment_iff ho s la).2 ⟨hon, hal, ha⟩)

/-! ### The opmask registers decide no fault (R70) -/

/-- Both outcomes complete, or both fault with the same vector, code and CR2, or both are refused for the same reason. -/
def EndsAlike (out out' : Host.Outcome State Fault Refusal) : Prop :=
  match out with
  | .next _ => ∃ t, out' = .next t
  | .fault f => ∃ g, out' = .fault g ∧ g.vector = f.vector ∧ g.code = f.code ∧ g.final.cr2 = f.final.cr2
  | .refused r => out' = .refused r

theorem endsAlike_mapOutcome {g : State → State} (hg : ∀ s, (g s).cr2 = s.cr2) (out : Host.Outcome State Fault Refusal) :
    EndsAlike out (mapOutcome g out) := by
  cases out with
  | next t => exact ⟨g t, rfl⟩
  | fault f => exact ⟨f.mapFinal g, rfl, mapFinal_vector g f, mapFinal_code g f, by rw [mapFinal_final, hg]⟩
  | refused r => rfl

/-- Executions whose checks and reads stop alike end alike, whatever their results are. -/
theorem answer_endsAlike {α : Type} {g : State → State} (hg : ∀ s, (g s).cr2 = s.cr2) {entry entry' : Option Stop}
    {src src' : Except Stop α} {res res' : α → State} (he : entry' = entry.map (mapStop g))
    (hs : src' = src.mapError (mapStop g)) : EndsAlike (answer entry src res) (answer entry' src' res') := by
  subst he hs
  have stops (e : Stop) : EndsAlike e.outcome (mapStop g e).outcome :=
    mapStop_outcome g e ▸ endsAlike_mapOutcome hg e.outcome
  cases entry with
  | some e => exact stops e
  | none =>
    cases src with
    | error e => exact stops e
    | ok y => exact ⟨_, rfl⟩

theorem apply_cr2 (g : FlagChange) (s : State) : (g.apply s).cr2 = s.cr2 := rfl

/-- A change of RFLAGS, MXCSR and the opmask registers that keeps `VM` and `AC` does not show in how an instruction ends. -/
theorem exec_endsAlike {g : FlagChange} {s : State} (h : g.KeepsVmAc s) (i : Instr) :
    EndsAlike (exec i s) (exec i (g.apply s)) := by
  have shared := exec_sharedExec i
  generalize exec i = f at shared
  cases shared with
  | mmx =>
    rw [execMmx_eq_answer, execMmx_eq_answer]
    exact answer_endsAlike (apply_cr2 g) (apply_entryStop h ..) (apply_mmxSource h ..)
  | sse =>
    rw [execSse_eq_answer, execSse_eq_answer]
    exact answer_endsAlike (apply_cr2 g) (apply_entryStop h ..) (apply_sseSource h ..)
  | vex =>
    rw [execVex_eq_answer, execVex_eq_answer]
    exact answer_endsAlike (apply_cr2 g) (apply_entryStop h ..) (apply_vexSource h ..)
  | evexC =>
    rw [execEvexC, execEvexC, execEvex_eq_answer, execEvex_eq_answer]
    exact answer_endsAlike (apply_cr2 g) (apply_entryStop h ..) (apply_evexSource h ..)
  | evexD =>
    rw [execEvexD, execEvexD, execEvex_eq_answer, execEvex_eq_answer]
    exact answer_endsAlike (apply_cr2 g) (apply_entryStop h ..) (apply_evexBcstSource h ..)

/-- Settles O26: only the result of a form depends on the opmask registers, and the change of them keeps `VM` and `AC`. -/
theorem masksSuppressNoFault : Obligations.MasksSuppressNoFault :=
  fun i _ k' _ => exec_endsAlike (g := .setK k') ⟨rfl, rfl⟩ i

/-! ### The partial fetch of a legacy 128-bit operand (R69)

The interleave looks at the high halves of its operands only, and those are the same bytes of memory under either setting. -/

theorem ofElems_congr (L w : Nat) {f f' : Nat → BitVec w} {n : Nat} (h : ∀ i < n, f i = f' i) :
    ofElems L w f n = ofElems L w f' n := by
  induction n with
  | zero => rfl
  | succ n ih => rw [ofElems, ofElems, ih fun i hi => h i (by omega), h n (by omega)]

/-- The high half of a 128-bit value. -/
def highHalf (y : BitVec 128) : Word := elem y 64 1

/-- An element of the high half is an element of the whole. -/
theorem elem_highHalf (y : BitVec 128) {w j : Nat} (hw : w ∣ 64) (hj : j < 64 / w) :
    elem (highHalf y) w j = elem y w (64 / w + j) := by
  have hd : w * (64 / w) = 64 := Nat.mul_div_cancel' hw
  have hle : w * (j + 1) ≤ 64 := hd ▸ Nat.mul_le_mul_left w hj
  rw [highHalf, elem_elem y 64 w 1 j hle hd, Nat.mul_one]

/-- The interleave of high halves does not look at the low half of its second source (R140). -/
theorem interleaveHigh_congr {w : Nat} (hw : w ∣ 64) (x : BitVec 128) {y y' : BitVec 128} (h : highHalf y' = highHalf y) :
    interleaveHigh w 128 x y' = interleaveHigh w 128 x y := by
  have h0 : 0 < w := Nat.pos_of_dvd_of_pos hw (by decide)
  obtain ⟨n, hn⟩ := hw
  have hlanes : 128 / w = 2 * n := Nat.div_eq_of_eq_mul_right h0 (by rw [Nat.mul_left_comm, ← hn])
  have hhalf : 128 / w / 2 = 64 / w := by rw [hlanes, hn, Nat.mul_div_cancel_left n h0, Nat.mul_div_cancel_left n (by decide)]
  refine ofElems_congr 128 w fun i hi => ?_
  have hj : i / 2 < 64 / w := by omega
  rw [hhalf, ← elem_highHalf y' ⟨n, hn⟩ hj, ← elem_highHalf y ⟨n, hn⟩ hj, h]

/-- Under either setting the high half of the operand is bytes 8 to 15 of it in memory. -/
theorem highHalf_fetchOperand (s : State) (la : Word) :
    highHalf (s.fetchOperand 128 .legacy128 la) = s.memRead 64 (s.linAdd la 8) := by
  unfold State.fetchOperand
  split
  · apply BitVec.eq_of_getLsbD_eq
    intro b hb
    rw [highHalf, elem_getLsbD, BitVec.getLsbD_shiftLeft, BitVec.getLsbD_setWidth, Nat.mul_one, Nat.add_sub_cancel_left]
    simp [hb, show 64 + b < 128 by omega, show b < 128 by omega]
  · exact elem_memRead s 128 la (w := 64) (i := 1) (by decide) (by decide) (by decide) (by decide)

/-- The state with `cfg.partial_fetch_m128` set to `v`. -/
def withPartialFetch (v : Bool) (s : State) : State := { s with cfg := { s.cfg with partialFetch := v } }

theorem withPartialFetch_raise (v : Bool) (x : Exn) (s : State) :
    raise x (withPartialFetch v s) = (raise x s).mapFinal (withPartialFetch v) :=
  raise_map (withPartialFetch v) x s rfl fun _ => rfl

theorem withPartialFetch_entryStop (v : Bool) (c : FormClass) (fs : List Feature) (s : State) :
    entryStop c fs (withPartialFetch v s) = (entryStop c fs s).map (mapStop (withPartialFetch v)) := by
  have hud : (udByMode c (withPartialFetch v s) || udByControl c (withPartialFetch v s) ||
      udByFeature c fs (withPartialFetch v s)) = (udByMode c s || udByControl c s || udByFeature c fs s) := by
    have hfeature : hasFeature (withPartialFetch v s).cfg = hasFeature s.cfg := by
      funext f
      cases f <;> rfl
    unfold udByFeature
    rw [hfeature]
    rfl
  have hts : (withPartialFetch v s).ts = s.ts := rfl
  have hes : (withPartialFetch v s).es87 = s.es87 := rfl
  have hne : (withPartialFetch v s).ne = s.ne := rfl
  unfold entryStop
  rw [hud, hts, hes, hne]
  simp only [withPartialFetch_raise, apply_ite (Option.map (mapStop (withPartialFetch v))), Option.map_some, Option.map_none,
    mapStop]

theorem withPartialFetch_lowestPageFault (v : Bool) (s : State) (acc : Access) (la : Word) (n : Nat) :
    (withPartialFetch v s).lowestPageFault acc la n = s.lowestPageFault acc la n := by
  induction n with
  | zero => rfl
  | succ n ih =>
    rw [State.lowestPageFault, ih]
    rfl

theorem withPartialFetch_translate (v : Bool) (s : State) (r : Seg) (ea : Word) (n : Nat) (acc : Access) :
    (withPartialFetch v s).translate r ea n acc = s.translate r ea n acc := by
  have hsegment : (withPartialFetch v s).segmentOk r ea n acc = s.segmentOk r ea n acc := rfl
  have hlinear : (withPartialFetch v s).linear r ea = s.linear r ea := rfl
  rw [State.translate, hsegment, hlinear, withPartialFetch_lowestPageFault]
  rfl

/-- Both settings stop an operand read alike, or supply operands with the same high half. -/
theorem withPartialFetch_loadOperand (v : Bool) (s : State) (r : Seg) (ea : Word) :
    ((withPartialFetch v s).loadOperand 128 .legacy128 r ea).map highHalf =
      ((s.loadOperand 128 .legacy128 r ea).map highHalf).mapError (mapStop (withPartialFetch v)) := by
  unfold State.loadOperand
  rw [withPartialFetch_translate]
  cases s.translate r ea (128 / 8) .dataRead with
  | ss | gp =>
    simp only [withPartialFetch_raise]
    rfl
  | pf c x la =>
    simp only [withPartialFetch_raise]
    split_ifs <;> rfl
  | ok la =>
    have hse : (withPartialFetch v s).sideEffect la (128 / 8) = s.sideEffect la (128 / 8) := rfl
    have hac (t : State) : acByAlignment .legacy128 t la = false := rfl
    simp only [withPartialFetch_raise, hse, hac, Bool.false_eq_true, if_false]
    split_ifs
    · rfl
    · rfl
    · exact congrArg Except.ok ((highHalf_fetchOperand (withPartialFetch v s) la).trans (highHalf_fetchOperand s la).symm)

theorem withPartialFetch_sseSource (v : Bool) (s : State) (h : LegacyHead) (rm : Rm) :
    ((withPartialFetch v s).sseSource h rm).map highHalf =
      ((s.sseSource h rm).map highHalf).mapError (mapStop (withPartialFetch v)) := by
  cases rm with
  | reg r => rfl
  | mem m => exact withPartialFetch_loadOperand v s _ _

/-- A change of state passes through an execution if it passes through the part of the source that the result looks at. -/
theorem answer_map_of_part {α β : Type} {g : State → State} (part : α → β) {entry entry' : Option Stop}
    {src src' : Except Stop α} {res res' : α → State} (he : entry' = entry.map (mapStop g))
    (hs : src'.map part = (src.map part).mapError (mapStop g))
    (hr : ∀ y y', part y' = part y → res' y' = g (res y)) :
    answer entry' src' res' = mapOutcome g (answer entry src res) := by
  subst he
  cases entry with
  | some e => exact mapStop_outcome g e
  | none =>
    cases src with
    | error e =>
      cases src' with
      | error e' =>
        cases hs
        exact mapStop_outcome g e
      | ok y' => cases hs
    | ok y =>
      cases src' with
      | error e' => cases hs
      | ok y' => exact congrArg Host.Outcome.next (hr y y' (Except.ok.inj hs))

theorem exec_sseRows {h : LegacyHead} {reg : BitVec 3} {rm : Rm} {p : Nat × Instr} (hp : p ∈ sseRows h reg rm) :
    exec p.2 = execSse p.1 h reg rm := by
  fin_cases hp <;> rfl

theorem sseRows_width {h : LegacyHead} {reg : BitVec 3} {rm : Rm} {p : Nat × Instr} (hp : p ∈ sseRows h reg rm) :
    p.1 ∣ 64 := by
  fin_cases hp <;> norm_num

/-- Settles O30: the stops are alike, and the result looks at the high half of the operand only. -/
theorem partialFetchIsNotObservable : Obligations.PartialFetchIsNotObservable := by
  intro h reg rm s v p hp
  rw [exec_sseRows hp]
  change execSse p.1 h reg rm (withPartialFetch v s) = mapOutcome (withPartialFetch v) (execSse p.1 h reg rm s)
  rw [execSse_eq_answer, execSse_eq_answer]
  refine answer_map_of_part highHalf (withPartialFetch_entryStop v ..) (withPartialFetch_sseSource v s h rm) fun y y' hy => ?_
  rw [sseResult, interleaveHigh_congr (sseRows_width hp) _ hy]
  rfl

/-! ### Decoding an encoding gives the instruction back (R97)

The fetch takes the length of the instruction at its front from the decoder (R75), so that a fetch fault is the fault of the
instruction's own range only if the decoder reads the whole of its encoding and no more. -/

/-! #### Displacements, SIB and ModRM (R103 to R107) -/

theorem le16_bytes (v : BitVec 16) : le16 (v.extractLsb' 0 8) (v.extractLsb' 8 8) = v := by
  rw [le16, BitVec.extractLsb'_append_extractLsb'_eq_extractLsb' (by decide)]
  simp

theorem le32_bytes (v : BitVec 32) :
    le32 (v.extractLsb' 0 8) (v.extractLsb' 8 8) (v.extractLsb' 16 8) (v.extractLsb' 24 8) = v := by
  rw [le32, BitVec.extractLsb'_append_extractLsb'_eq_extractLsb' (by decide),
    BitVec.extractLsb'_append_extractLsb'_eq_extractLsb' (by decide),
    BitVec.extractLsb'_append_extractLsb'_eq_extractLsb' (by decide)]
  simp

theorem takeD16_bytes (v : BitVec 16) (r : List Byte) : takeD16 (bytes16 v ++ r) = some (v, r) :=
  congrArg (fun d => some (d, r)) (le16_bytes v)

theorem takeD32_bytes (v : BitVec 32) (r : List Byte) : takeD32 (bytes32 v ++ r) = some (v, r) :=
  congrArg (fun d => some (d, r)) (le32_bytes v)

theorem takeDisp_bytes (d : Disp) (r : List Byte) : takeDisp d.mod (d.bytes ++ r) = some (d, r) := by
  cases d with
  | none | d8 v => rfl
  | d32 v => simp [takeDisp, Disp.mod, Disp.bytes, takeD32_bytes]

theorem takeDisp16_bytes (d : Disp16) (r : List Byte) : takeDisp16 d.mod (d.bytes ++ r) = some (d, r) := by
  cases d with
  | none | d8 v => rfl
  | d16 v => simp [takeDisp16, Disp16.mod, Disp16.bytes, takeD16_bytes]

theorem disp_mod_ne_three (d : Disp) : d.mod ≠ 3#2 := by cases d <;> simp [Disp.mod]

theorem disp16_mod_ne_three (d : Disp16) : d.mod ≠ 3#2 := by cases d <;> simp [Disp16.mod]

theorem disp_mod_eq_zero_iff (d : Disp) : d.mod = 0#2 ↔ d = .none := by
  cases d <;> simp [Disp.mod]

theorem disp16_mod_eq_zero_iff (d : Disp16) : d.mod = 0#2 ↔ d = .none := by
  cases d <;> simp [Disp16.mod]

/-- A memory operand of address size 16 is read back behind its ModRM byte. -/
theorem takeModRM_of_mem16 {m : Mode} {ps : List Prefix} (ha : addressSize m ps = .a16) {mod : BitVec 2} (hmod : mod ≠ 3#2)
    (reg rm : BitVec 3) {bs r : List Byte} {x : Mem} (h : takeMem16 mod rm bs = some (x, r)) :
    takeModRM m ps (byte233 mod reg rm :: bs) = some (reg, .mem x, r) := by
  simp [takeModRM, byte233_hi, byte233_mid, byte233_lo, hmod, ha, h]

/-- A memory operand of address size 32 or 64 is read back behind its ModRM byte. -/
theorem takeModRM_of_mem32 {m : Mode} {ps : List Prefix} (ha : addressSize m ps ≠ .a16) {mod : BitVec 2} (hmod : mod ≠ 3#2)
    (reg rm : BitVec 3) {bs r : List Byte} {x : Mem} (h : takeMem32 (m = .long64) mod rm bs = some (x, r)) :
    takeModRM m ps (byte233 mod reg rm :: bs) = some (reg, .mem x, r) := by
  simp [takeModRM, byte233_hi, byte233_mid, byte233_lo, hmod, ha, h]

theorem addressSize_long64_ne_a16 (ps : List Prefix) : addressSize .long64 ps ≠ .a16 := by
  unfold addressSize
  cases ps.contains .addrSize <;> decide

theorem takeModRM_encodeMem {m : Mode} {ps : List Prefix} (reg : BitVec 3) {x : Mem} (r : List Byte) (h : x.wf m ps = true) :
    takeModRM m ps (encodeMem reg x ++ r) = some (reg, .mem x, r) := by
  cases x with
  | base rm d =>
    obtain ⟨ha, hrm, hd⟩ : addressSize m ps ≠ .a16 ∧ rm ≠ 4#3 ∧ (d ≠ .none ∨ rm ≠ 5#3) := by
      simpa [Mem.wf, Disp.fitsBase] using h
    have hno : ¬ (d.mod = 0#2 ∧ rm = 5#3) := by
      rw [disp_mod_eq_zero_iff]
      tauto
    exact takeModRM_of_mem32 ha (disp_mod_ne_three d) reg rm (by simp [takeMem32, hrm, hno, takeDisp_bytes])
  | sib scale index base d =>
    obtain ⟨ha, hd⟩ : addressSize m ps ≠ .a16 ∧ (d ≠ .none ∨ base ≠ 5#3) := by
      simpa [Mem.wf] using h
    have hno : ¬ (d.mod = 0#2 ∧ base = 5#3) := by
      rw [disp_mod_eq_zero_iff]
      tauto
    exact takeModRM_of_mem32 ha (disp_mod_ne_three d) reg 4#3
      (by simp [takeMem32, takeSib, byte233_hi, byte233_mid, byte233_lo, hno, takeDisp_bytes])
  | sibNoBase scale index d =>
    have ha : addressSize m ps ≠ .a16 := by simpa [Mem.wf] using h
    exact takeModRM_of_mem32 ha (by decide) reg 4#3
      (by simp [takeMem32, takeSib, byte233_hi, byte233_mid, byte233_lo, takeD32_bytes])
  | ripRel d =>
    obtain rfl : m = .long64 := by simpa [Mem.wf] using h
    exact takeModRM_of_mem32 (addressSize_long64_ne_a16 ps) (by decide) reg 5#3 (by simp [takeMem32, takeD32_bytes])
  | abs32 d =>
    obtain ⟨ha, hm⟩ : addressSize m ps = .a32 ∧ m ≠ .long64 := by simpa [Mem.wf] using h
    exact takeModRM_of_mem32 (by rw [ha]; decide) (by decide) reg 5#3 (by simp [takeMem32, hm, takeD32_bytes])
  | base16 rm d =>
    obtain ⟨ha, hd⟩ : addressSize m ps = .a16 ∧ (d ≠ .none ∨ rm ≠ 6#3) := by simpa [Mem.wf] using h
    have hno : ¬ (d.mod = 0#2 ∧ rm = 6#3) := by
      rw [disp16_mod_eq_zero_iff]
      tauto
    exact takeModRM_of_mem16 ha (disp16_mod_ne_three d) reg rm (by simp [takeMem16, hno, takeDisp16_bytes])
  | abs16 d =>
    have ha : addressSize m ps = .a16 := by simpa [Mem.wf] using h
    exact takeModRM_of_mem16 ha (by decide) reg 6#3 (by simp [takeMem16, takeD16_bytes])

theorem takeModRM_encodeRm {m : Mode} {ps : List Prefix} (reg : BitVec 3) {rm : Rm} (r : List Byte) (h : rm.wf m ps = true) :
    takeModRM m ps (encodeRm reg rm ++ r) = some (reg, rm, r) := by
  cases rm with
  | reg f => simp [encodeRm, takeModRM, byte233_hi, byte233_mid, byte233_lo]
  | mem x => exact takeModRM_encodeMem reg r h

/-! #### Prefixes and REX (R97 steps 1 and 2, R100) -/

/-- The scan for legacy prefixes ends at the first byte that is none of them. -/
theorem scanPrefixes_encodePrefixes (ps : List Prefix) {b : Byte} (hb : prefixOf b = none) (bs : List Byte) :
    scanPrefixes (encodePrefixes ps ++ b :: bs) = (ps, b :: bs) := by
  induction ps with
  | nil => simp [encodePrefixes, scanPrefixes, hb]
  | cons p ps ih =>
    rw [encodePrefixes] at ih
    simp [encodePrefixes, scanPrefixes, prefixOf_byte, ih]

/-- Without REX the class is chosen by the byte after the prefixes. -/
theorem decode_encodePrefixes (m : Mode) (ps : List Prefix) {b : Byte} (hp : prefixOf b = none) (hr : isRex b = false)
    (bs : List Byte) : decode m (encodePrefixes ps ++ b :: bs) = decodeClass m ps none (b :: bs) := by
  simp [decode, scanPrefixes_encodePrefixes ps hp, decodeRex, hr]

/-- A REX byte is none of the legacy prefixes, begins with 0100, and holds its four fields. -/
theorem rex_byte (x : Rex) : prefixOf x.byte = none ∧ isRex x.byte = true ∧ rexOf x.byte = x := by
  obtain ⟨w, r, x, b⟩ := x
  revert w r x b
  decide

theorem decode_encodePrefixes_rex (ps : List Prefix) (x : Rex) (bs : List Byte) :
    decode .long64 (encodePrefixes ps ++ x.byte :: 0x0F#8 :: bs) = decodeLegacy .long64 ps (some x) bs := by
  obtain ⟨hp, hr, hx⟩ := rex_byte x
  have h0F : prefixOf 0x0F#8 = none := rfl
  simp [decode, scanPrefixes_encodePrefixes ps hp, decodeRex, hr, hx, h0F, decodeClass]

theorem notMem_of_plain {ps : List Prefix} (h : ps.all Prefix.plain = true) {p : Prefix} (hp : p.plain = false) : p ∉ ps :=
  fun hmem => nomatch hp.symm.trans (List.all_eq_true.1 h p hmem)

theorem hasRep_eq_false_of_plain {ps : List Prefix} (h : ps.all Prefix.plain = true) : hasRep ps = false := by
  simp [hasRep, notMem_of_plain (p := .rep) h rfl, notMem_of_plain (p := .repne) h rfl]

/-! #### Legacy forms (R98) -/

/-- The bytes of a legacy form are those of the legacy class after `0F`, whether or not it has a REX byte. -/
theorem decode_encodeLegacy {m : Mode} (st : Stem) {h : LegacyHead} (reg : BitVec 3) (rm : Rm) (r : List Byte)
    (hr : (h.rex.isNone || m == .long64) = true) :
    decode m (encodeLegacy st h reg rm ++ r) = decodeLegacy m h.prefixes h.rex (st.byte :: encodeRm reg rm ++ r) := by
  obtain ⟨ps, rex⟩ := h
  cases rex with
  | none =>
    simp only [encodeLegacy, Option.elim, List.append_nil, List.append_assoc, List.cons_append]
    exact decode_encodePrefixes m ps rfl rfl _
  | some x =>
    obtain rfl : m = .long64 := by simpa using hr
    simp only [encodeLegacy, Option.elim, List.append_assoc, List.cons_append, List.nil_append]
    exact decode_encodePrefixes_rex ps x _

/-- What well-formedness says of a legacy form: its prefixes and its operand. -/
theorem legacy_wf {m : Mode} {with66 : Bool} {h : LegacyHead} {rm : Rm} (hwf : (h.wf m with66 && rm.wf m h.prefixes) = true) :
    h.prefixes.all Prefix.plain = true ∧ (.opSize ∈ h.prefixes ↔ with66 = true) ∧ (h.rex.isNone || m == .long64) = true ∧
      rm.wf m h.prefixes = true := by
  simp only [LegacyHead.wf, Bool.and_eq_true, beq_iff_eq] at hwf
  obtain ⟨⟨⟨hplain, h66⟩, hrex⟩, hrm⟩ := hwf
  exact ⟨hplain, by simp [← h66], hrex, hrm⟩

theorem decode_encodeLegacy_xmm {m : Mode} (st : Stem) {h : LegacyHead} (reg : BitVec 3) {rm : Rm} (r : List Byte)
    (hwf : (h.wf m true && rm.wf m h.prefixes) = true) :
    decode m (encodeLegacy st h reg rm ++ r) = .ok (legacyXmm st h reg rm) r := by
  obtain ⟨hplain, h66, hrex, hrm⟩ := legacy_wf hwf
  rw [decode_encodeLegacy st reg rm r hrex, List.cons_append, decodeLegacy]
  simp [stemOf_byte, takeModRM_encodeRm reg r hrm, notMem_of_plain (p := .lock) hplain rfl,
    hasRep_eq_false_of_plain hplain, h66]

theorem decode_encodeLegacy_mm {m : Mode} (st : Stem) {h : LegacyHead} (reg : BitVec 3) {rm : Rm} (r : List Byte) {i : Instr}
    (hi : legacyMm st h reg rm = some i) (hwf : (h.wf m false && rm.wf m h.prefixes) = true) :
    decode m (encodeLegacy st h reg rm ++ r) = .ok i r := by
  obtain ⟨hplain, h66, hrex, hrm⟩ := legacy_wf hwf
  rw [decode_encodeLegacy st reg rm r hrex, List.cons_append, decodeLegacy]
  simp [stemOf_byte, takeModRM_encodeRm reg r hrm, notMem_of_plain (p := .lock) hplain rfl,
    hasRep_eq_false_of_plain hplain, h66, hi]

/-! #### VEX forms (R110 to R112) -/

/-- The prefixes that a VEX or EVEX form may have raise none of the `#UD` of R111 and R115. -/
theorem beforeVex_of_plain {ps : List Prefix} (h : ps.all Prefix.plain = true) (h66 : ps.contains .opSize = false) :
    beforeVex ps none = none := by
  rw [beforeVex, hasRep_eq_false_of_plain h, h66]
  simp [notMem_of_plain (p := .lock) h rfl]

/-- The payload byte after `C5` of a VEX form. -/
def vexPayload (r : Bool) (v : BitVec 4) (l : Bool) : Byte := packBits 8 ([!r] ++ bits4 (~~~ v) ++ [l, false, true])

/-- The first payload byte after `C4` of a VEX form. -/
def vexPayload1 (r x b : Bool) : Byte := packBits 8 [!r, !x, !b, false, false, false, false, true]

/-- The second payload byte after `C4` of a VEX form. -/
def vexPayload2 (w : Bool) (v : BitVec 4) (l : Bool) : Byte := packBits 8 ([w] ++ bits4 (~~~ v) ++ [l, false, true])

theorem encodeVex_two (st : Stem) (l : Bool) (ps : List Prefix) (r : Bool) (v : BitVec 4) (reg : BitVec 3) (rm : Rm) :
    encodeVex st l ⟨ps, .two r, v⟩ reg rm =
      encodePrefixes ps ++ 0xC5#8 :: vexPayload r v l :: st.byte :: encodeRm reg rm := by
  rw [encodeVex, List.append_assoc]
  rfl

theorem encodeVex_three (st : Stem) (l : Bool) (ps : List Prefix) (r x b w : Bool) (v : BitVec 4) (reg : BitVec 3) (rm : Rm) :
    encodeVex st l ⟨ps, .three r x b w, v⟩ reg rm =
      encodePrefixes ps ++ 0xC4#8 :: vexPayload1 r x b :: vexPayload2 w v l :: st.byte :: encodeRm reg rm := by
  rw [encodeVex, List.append_assoc]
  rfl

theorem vexPayload_fields (r l : Bool) (v : BitVec 4) :
    bitAt (vexPayload r v l) 7 = !r ∧ ~~~ (vexPayload r v l).extractLsb' 3 4 = v ∧ bitAt (vexPayload r v l) 2 = l ∧
      (vexPayload r v l).extractLsb' 0 2 = 1#2 ∧ (hiField (vexPayload r v l) == 3#2) = (!r && !bitAt v 3) := by
  revert r l v
  decide

theorem vexPayload1_fields (r x b : Bool) :
    bitAt (vexPayload1 r x b) 7 = !r ∧ bitAt (vexPayload1 r x b) 6 = !x ∧ bitAt (vexPayload1 r x b) 5 = !b ∧
      (vexPayload1 r x b).extractLsb' 0 5 = 1#5 ∧ (hiField (vexPayload1 r x b) == 3#2) = (!r && !x) := by
  revert r x b
  decide

theorem vexPayload2_fields (w l : Bool) (v : BitVec 4) :
    bitAt (vexPayload2 w v l) 7 = w ∧ ~~~ (vexPayload2 w v l).extractLsb' 3 4 = v ∧ bitAt (vexPayload2 w v l) 2 = l ∧
      (vexPayload2 w v l).extractLsb' 0 2 = 1#2 := by
  revert w l v
  decide

/-- The byte after `C4`, `C5` or `62` is taken for the payload where its bits 7:6 are 11 outside 64-bit mode. -/
theorem vexRecognised_of {m : Mode} {b : Byte} (h : m ≠ .long64 → (hiField b == 3#2) = true) : vexRecognised m b = true := by
  by_cases hm : m = .long64
  · simp [vexRecognised, hm]
  · simp only [vexRecognised, h hm, Bool.or_true]

/-- What well-formedness says of a VEX form: its prefixes, its mode and its register bits. -/
theorem vex_wf {m : Mode} {h : VexHead} {rm : Rm} (hwf : (h.wf m && rm.wf m h.prefixes) = true) :
    beforeVex h.prefixes none = none ∧ m.realOrV86 = false ∧
      (m ≠ .long64 → h.spelling.lowRegisters = true ∧ bitAt h.vvvv 3 = false) ∧ rm.wf m h.prefixes = true := by
  simp only [VexHead.wf, Bool.and_eq_true, Bool.or_eq_true, beq_iff_eq, Bool.not_eq_true'] at hwf
  obtain ⟨⟨⟨⟨hplain, h66⟩, hmode⟩, hlow⟩, hrm⟩ := hwf
  exact ⟨beforeVex_of_plain hplain h66, hmode, fun hm => hlow.resolve_left hm, hrm⟩

theorem vexB_eq_false_of_lowRegisters {sp : VexSpelling} (h : sp.lowRegisters = true) : sp.b = false := by
  cases sp with
  | two r => rfl
  | three r x b w => simpa [VexSpelling.b] using (Bool.and_eq_true_iff.1 h).2

theorem decodeVexBody_encode {m : Mode} (st : Stem) (l : Bool) {h : VexHead} (reg : BitVec 3) {rm : Rm} (r : List Byte)
    (hwf : (h.wf m && rm.wf m h.prefixes) = true) :
    decodeVexBody m h.prefixes none h.spelling h.vvvv l 1#2 1#5 (st.byte :: encodeRm reg rm ++ r)
      = .ok (vexRow st l h reg rm) r := by
  obtain ⟨hbefore, hmode, hlow, hrm⟩ := vex_wf hwf
  have hregs : ¬ (m ≠ .long64 ∧ (h.spelling.b = true ∨ bitAt h.vvvv 3 = true)) := by
    rintro ⟨hm, hregs⟩
    obtain ⟨hsp, hv⟩ := hlow hm
    rw [vexB_eq_false_of_lowRegisters hsp, hv] at hregs
    simp at hregs
  simp [decodeVexBody, stemOf_byte, takeModRM_encodeRm reg r hrm, hbefore, hmode, hregs]

theorem decode_encodeVex {m : Mode} (st : Stem) (l : Bool) {h : VexHead} (reg : BitVec 3) {rm : Rm} (r : List Byte)
    (hwf : (h.wf m && rm.wf m h.prefixes) = true) :
    decode m (encodeVex st l h reg rm ++ r) = .ok (vexRow st l h reg rm) r := by
  have hbody := decodeVexBody_encode st l reg r hwf
  obtain ⟨-, -, hlow, -⟩ := vex_wf hwf
  obtain ⟨ps, sp, v⟩ := h
  cases sp with
  | two r' =>
    obtain ⟨h7, hv, h2, hpp, hhi⟩ := vexPayload_fields r' l v
    have hrec : vexRecognised m (vexPayload r' v l) = true := vexRecognised_of fun hm => by
      obtain ⟨hr, hv3⟩ := hlow hm
      rw [hhi, hv3, Bool.not_false, Bool.and_true]
      exact hr
    rw [encodeVex_two, List.append_assoc]
    refine (decode_encodePrefixes m ps rfl rfl _).trans ?_
    simpa [decodeClass, decodeVex2, hrec, h7, hv, h2, hpp] using hbody
  | three r' x b w =>
    obtain ⟨h7, h6, h5, hmm, hhi⟩ := vexPayload1_fields r' x b
    obtain ⟨hw, hv, h2, hpp⟩ := vexPayload2_fields w l v
    have hrec : vexRecognised m (vexPayload1 r' x b) = true := vexRecognised_of fun hm => by
      obtain ⟨hr, -⟩ := hlow hm
      rw [hhi]
      exact (Bool.and_eq_true_iff.1 hr).1
    rw [encodeVex_three, List.append_assoc]
    refine (decode_encodePrefixes m ps rfl rfl _).trans ?_
    simpa [decodeClass, decodeVex3, hrec, h7, h6, h5, hmm, hw, hv, h2, hpp] using hbody

/-! #### EVEX forms (R113 to R117) -/

/-- P0 of an EVEX form. -/
def evexP0 (r x b r' : Bool) : Byte := packBits 8 [!r, !x, !b, !r', false, false, false, true]

/-- P1 of an EVEX form. -/
def evexP1 (w : Bool) (v : BitVec 4) : Byte := packBits 8 ([w] ++ bits4 (~~~ v) ++ [true, false, true])

/-- P2 of an EVEX form. -/
def evexP2 (z : Bool) (ll : BitVec 2) (b v' : Bool) (aaa : BitVec 3) : Byte :=
  packBits 8 ([z] ++ bits2 ll ++ [b, !v'] ++ bits3 aaa)

theorem encodeEvexPrefix_eq (vl : VecLen) (h : EvexHead) (w b : Bool) :
    encodeEvexPrefix vl h w b =
      [0x62#8, evexP0 h.r h.x h.b h.r', evexP1 w h.vvvv, evexP2 h.mask.z vl.field b h.v' h.mask.aaa] := rfl

theorem evexP0_fields (r x b r' : Bool) :
    bitAt (evexP0 r x b r') 7 = !r ∧ bitAt (evexP0 r x b r') 6 = !x ∧ bitAt (evexP0 r x b r') 5 = !b ∧
      bitAt (evexP0 r x b r') 4 = !r' ∧ bitAt (evexP0 r x b r') 3 = false ∧ (evexP0 r x b r').extractLsb' 0 3 = 1#3 ∧
      (hiField (evexP0 r x b r') == 3#2) = (!r && !x) := by
  revert r x b r'
  decide

theorem evexP1_fields (w : Bool) (v : BitVec 4) :
    bitAt (evexP1 w v) 7 = w ∧ ~~~ (evexP1 w v).extractLsb' 3 4 = v ∧ bitAt (evexP1 w v) 2 = true ∧
      (evexP1 w v).extractLsb' 0 2 = 1#2 := by
  revert w v
  decide

theorem evexP2_fields (z b v' : Bool) (ll : BitVec 2) (aaa : BitVec 3) :
    bitAt (evexP2 z ll b v' aaa) 7 = z ∧ (evexP2 z ll b v' aaa).extractLsb' 5 2 = ll ∧ bitAt (evexP2 z ll b v' aaa) 4 = b ∧
      bitAt (evexP2 z ll b v' aaa) 3 = !v' ∧ (evexP2 z ll b v' aaa).extractLsb' 0 3 = aaa := by
  revert z b v' ll aaa
  decide

theorem vecLenOf_field (vl : VecLen) : vecLenOf vl.field = some vl := by cases vl <;> rfl

theorem maskOf_fields {k : Mask} (h : k.wf = true) : maskOf k.z k.aaa = some k := by
  cases k with
  | none => rfl
  | merging a | zeroing a =>
    have ha : a ≠ 0#3 := by simpa [Mask.wf] using h
    simp [maskOf, Mask.z, Mask.aaa, ha]

/-- What well-formedness says of an EVEX head: its prefixes, its mode, its mask and its register bits. -/
theorem evexHead_wf {m : Mode} {h : EvexHead} (hwf : h.wf m = true) :
    beforeVex h.prefixes none = none ∧ m.realOrV86 = false ∧ h.mask.wf = true ∧
      (m ≠ .long64 → h.r = false ∧ h.x = false ∧ h.aboveSeven = false) := by
  simp only [EvexHead.wf, Bool.and_eq_true, Bool.or_eq_true, beq_iff_eq, Bool.not_eq_true'] at hwf
  obtain ⟨⟨⟨⟨hplain, h66⟩, hmode⟩, hmask⟩, hlow⟩ := hwf
  refine ⟨beforeVex_of_plain hplain h66, hmode, hmask, fun hm => ?_⟩
  obtain ⟨⟨hr, hx⟩, habove⟩ := hlow.resolve_left hm
  exact ⟨hr, hx, habove⟩

/-- The rejections of an EVEX encoding do not apply to that of a well-formed form. -/
theorem finishEvex_encode {m : Mode} (st : Stem) (vl : VecLen) {h : EvexHead} (w b : Bool) (reg : BitVec 3) (rm : Rm)
    (r : List Byte) {i : Instr} (hi : evexRow st vl h w b reg rm = .ok i) (hwf : h.wf m = true) :
    finishEvex m h.prefixes none (evexP0 h.r h.x h.b h.r') (evexP1 w h.vvvv) (evexP2 h.mask.z vl.field b h.v' h.mask.aaa)
      st reg rm r = .ok i r := by
  obtain ⟨hbefore, hmode, hmask, hlow⟩ := evexHead_wf hwf
  obtain ⟨hR, hX, hB, hR', h3, -, -⟩ := evexP0_fields h.r h.x h.b h.r'
  obtain ⟨hw, hv, h2, -⟩ := evexP1_fields w h.vvvv
  obtain ⟨hz, hll, hb, hv', haaa⟩ := evexP2_fields h.mask.z b h.v' vl.field h.mask.aaa
  have hregs : ¬ (m ≠ .long64 ∧ h.aboveSeven = true) := by
    rintro ⟨hm, habove⟩
    obtain ⟨-, -, h7⟩ := hlow hm
    exact nomatch h7.symm.trans habove
  simp only [finishEvex, hbefore, hmode, h3, h2, hll, vecLenOf_field, hz, haaa, maskOf_fields hmask, hR, hX, hB, hR', hv, hv',
    hw, hb, Bool.not_not, hi, hregs]
  simp

theorem decode_encodeEvex {m : Mode} (st : Stem) (vl : VecLen) {h : EvexHead} (w b : Bool) (reg : BitVec 3) {rm : Rm}
    (r : List Byte) {i : Instr} (hi : evexRow st vl h w b reg rm = .ok i) (hwf : h.wf m = true)
    (hrm : rm.wf m h.prefixes = true) :
    decode m (encodePrefixes h.prefixes ++ encodeEvexPrefix vl h w b ++ st.byte :: encodeRm reg rm ++ r) = .ok i r := by
  obtain ⟨-, -, -, hlow⟩ := evexHead_wf hwf
  obtain ⟨-, -, -, -, -, hmmm, hhi⟩ := evexP0_fields h.r h.x h.b h.r'
  obtain ⟨-, -, -, hpp⟩ := evexP1_fields w h.vvvv
  have hrec : vexRecognised m (evexP0 h.r h.x h.b h.r') = true := vexRecognised_of fun hm => by
    obtain ⟨hr, hx, -⟩ := hlow hm
    rw [hhi, hr, hx]
    rfl
  rw [encodeEvexPrefix_eq, List.append_assoc, List.append_assoc]
  refine (decode_encodePrefixes m h.prefixes rfl rfl _).trans ?_
  simpa [decodeClass, decodeEvex, hrec, stemOf_byte, hpp, hmmm, takeModRM_encodeRm reg r hrm] using
    finishEvex_encode st vl w b reg rm r hi hwf

theorem decode_encodeEvexC {m : Mode} (st : Stem) (vl : VecLen) {h : EvexHead} (w : Bool) (reg : BitVec 3) {rm : Rm}
    (r : List Byte) {i : Instr} (hi : evexRow st vl h w false reg rm = .ok i)
    (hwf : (h.wf m && rm.wf m h.prefixes) = true) : decode m (encodeEvexC st vl h w reg rm ++ r) = .ok i r := by
  obtain ⟨hh, hrm⟩ := Bool.and_eq_true_iff.1 hwf
  exact decode_encodeEvex st vl w false reg r hi hh hrm

/-- The operand of ModRM.r/m of a second source with broadcast. -/
def modRmOf : RmBcst → Rm
  | .reg rm => .reg rm
  | .mem x => .mem x
  | .bcst x => .mem x

theorem encodeRmBcst_eq (reg : BitVec 3) (rm : RmBcst) : encodeRmBcst reg rm = encodeRm reg (modRmOf rm) := by
  cases rm <;> rfl

theorem rmBcst_wf_eq (m : Mode) (ps : List Prefix) (rm : RmBcst) : rm.wf m ps = (modRmOf rm).wf m ps := by
  cases rm <;> rfl

theorem bcstOf_modRmOf (rm : RmBcst) : bcstOf rm.b (modRmOf rm) = some rm := by
  cases rm <;> rfl

theorem evexRow_dq (vl : VecLen) (h : EvexHead) (reg : BitVec 3) (rm : RmBcst) :
    evexRow .dq vl h false rm.b reg (modRmOf rm) = .ok (evexRowD false vl h reg rm) := by
  simp [evexRow, bcstOf_modRmOf]

theorem evexRow_qdq (vl : VecLen) (h : EvexHead) (reg : BitVec 3) (rm : RmBcst) :
    evexRow .qdq vl h true rm.b reg (modRmOf rm) = .ok (evexRowD true vl h reg rm) := by
  simp [evexRow, bcstOf_modRmOf]

theorem decode_encodeEvexD {m : Mode} (st : Stem) (vl : VecLen) {h : EvexHead} (reg : BitVec 3) {rm : RmBcst}
    (r : List Byte) {i : Instr} (hi : evexRow st vl h (st = .qdq) rm.b reg (modRmOf rm) = .ok i)
    (hwf : (h.wf m && rm.wf m h.prefixes) = true) : decode m (encodeEvexD st vl h reg rm ++ r) = .ok i r := by
  obtain ⟨hh, hrm⟩ := Bool.and_eq_true_iff.1 hwf
  rw [rmBcst_wf_eq] at hrm
  rw [encodeEvexD, encodeRmBcst_eq]
  exact decode_encodeEvex st vl _ _ reg r hi hh hrm

/-! #### All forms -/

/-- The decoder reads the encoding of an instruction whose fields the mode can hold, and no byte more. -/
theorem decode_encode {m : Mode} {i : Instr} (r : List Byte) (hwf : i.fieldsWf m = true) :
    decode m (encode i ++ r) = .ok i r := by
  cases i with
  | punpckhbwMm h reg rm | punpckhwdMm h reg rm | punpckhdqMm h reg rm =>
    exact decode_encodeLegacy_mm _ reg r rfl hwf
  | punpckhbwXmm h reg rm | punpckhwdXmm h reg rm | punpckhdqXmm h reg rm | punpckhqdqXmm h reg rm =>
    exact decode_encodeLegacy_xmm _ reg r hwf
  | vpunpckhbwVex128 h reg rm | vpunpckhwdVex128 h reg rm | vpunpckhdqVex128 h reg rm | vpunpckhqdqVex128 h reg rm
  | vpunpckhbwVex256 h reg rm | vpunpckhwdVex256 h reg rm | vpunpckhdqVex256 h reg rm | vpunpckhqdqVex256 h reg rm =>
    exact decode_encodeVex _ _ reg r hwf
  | vpunpckhbwEvex128 h w reg rm | vpunpckhwdEvex128 h w reg rm
  | vpunpckhbwEvex256 h w reg rm | vpunpckhwdEvex256 h w reg rm
  | vpunpckhbwEvex512 h w reg rm | vpunpckhwdEvex512 h w reg rm =>
    exact decode_encodeEvexC _ _ w reg r rfl hwf
  | vpunpckhdqEvex128 h reg rm | vpunpckhdqEvex256 h reg rm | vpunpckhdqEvex512 h reg rm =>
    exact decode_encodeEvexD _ _ reg r (evexRow_dq _ h reg rm) hwf
  | vpunpckhqdqEvex128 h reg rm | vpunpckhqdqEvex256 h reg rm | vpunpckhqdqEvex512 h reg rm =>
    exact decode_encodeEvexD _ _ reg r (evexRow_qdq _ h reg rm) hwf

theorem encode_length (i : Instr) : (encode i).length = i.length := by
  cases i with
  | punpckhbwMm h reg rm | punpckhwdMm h reg rm | punpckhdqMm h reg rm
  | punpckhbwXmm h reg rm | punpckhwdXmm h reg rm | punpckhdqXmm h reg rm | punpckhqdqXmm h reg rm =>
    exact encodeLegacy_length _ h reg rm
  | vpunpckhbwVex128 h reg rm | vpunpckhwdVex128 h reg rm | vpunpckhdqVex128 h reg rm | vpunpckhqdqVex128 h reg rm
  | vpunpckhbwVex256 h reg rm | vpunpckhwdVex256 h reg rm | vpunpckhdqVex256 h reg rm | vpunpckhqdqVex256 h reg rm =>
    exact encodeVex_length _ _ h reg rm
  | vpunpckhbwEvex128 h w reg rm | vpunpckhwdEvex128 h w reg rm
  | vpunpckhbwEvex256 h w reg rm | vpunpckhwdEvex256 h w reg rm
  | vpunpckhbwEvex512 h w reg rm | vpunpckhwdEvex512 h w reg rm =>
    exact encodeEvexC_length _ _ h w reg rm
  | vpunpckhdqEvex128 h reg rm | vpunpckhqdqEvex128 h reg rm
  | vpunpckhdqEvex256 h reg rm | vpunpckhqdqEvex256 h reg rm
  | vpunpckhdqEvex512 h reg rm | vpunpckhqdqEvex512 h reg rm =>
    exact encodeEvexD_length _ _ h reg rm

/-! ### The fetch (R75, R222) -/

/-- A fetch fault is what the step of a state inside the model reports. -/
theorem step_of_fetched_error {s : State} {f : Fault} (hin : s.insideModel = true) (hf : s.fetched = .error f) :
    step s = .fault f := by
  rw [step, if_pos hin, hf]

/-- The encoding of `i` stands in memory from `CS:RIP` on. -/
def StandsAtRip (s : State) (i : Instr) : Prop :=
  ∀ k, (hk : k < (encode i).length) → s.byteAt (s.linAdd (s.linear .cs s.rip) k) = (encode i)[k]

theorem instrBytes_take {s : State} {i : Instr} (hfit : i.length ≤ maxLength) (hi : StandsAtRip s i) :
    s.instrBytes.take i.length = encode i := by
  refine List.ext_getElem ?_ fun k _ hk => ?_
  · rw [List.length_take, instrBytes_length, Nat.min_eq_left hfit, encode_length]
  · rw [List.getElem_take, instrBytes_getElem, hi k hk]

/-- The length of the fetch is the length of the instruction that stands there. -/
theorem fetchLength_of_standsAtRip {s : State} {i : Instr} (hwf : i.wf s.mode = true) (hi : StandsAtRip s i) :
    fetchLength s.mode s.instrBytes = i.length := by
  obtain ⟨hfields, hfits⟩ := Bool.and_eq_true_iff.1 hwf
  have hfit : i.length ≤ maxLength := of_decide_eq_true hfits
  refine fetchLength_of_decode s.mode s.instrBytes i i.length hfit (by rwa [instrBytes_length]) ?_
  rw [instrBytes_take hfit hi, ← List.append_nil (encode i)]
  exact decode_encode [] hfields

/-- Settles O49: the fetch translates the range of the instruction's own length, and the step reports its fault. -/
theorem fetchFaultsComeFirst : Obligations.FetchFaultsComeFirst := by
  refine ⟨fun s f hin hf => step_of_fetched_error hin hf, fun s i hin hwf hi => ?_⟩
  have hlen := fetchLength_of_standsAtRip hwf hi
  refine ⟨fun ht => step_of_fetched_error hin ?_, fun code a la ht => step_of_fetched_error hin ?_⟩ <;>
    rw [State.fetched, hlen, ht] <;> rfl

end Sys2Proof.Proofs
end

section
/-! PROOFS. The statements of 30_encoding.md on the encoder and the decoder: each undoes the other, and what is decoded is
well-formed. -/
namespace Sys2Proof.Proofs
open Sys2Proof.Machine Sys2Proof.Laws

/-- Settles O40: by the decoder's answer on an encoding of legal fields; the limit of 15 bytes is not needed. -/
theorem decodeOfEncode : Obligations.DecodeOfEncode := fun _ _ rest hwf =>
  decode_encode rest (Bool.and_eq_true_iff.1 hwf).1

/-! ### What the decoder has read (R97)

Every part of the decoder is inverted on the same two points, so that one pass over it gives both: what it answers has legal
fields, and the encoding of what it answers is the bytes it has taken. -/

/-! #### Displacements, SIB and ModRM (R103 to R107) -/

theorem bytes16_le16 (b0 b1 : Byte) : bytes16 (le16 b0 b1) = [b0, b1] :=
  congrArg₂ (fun x y => [x, y]) BitVec.extractLsb'_append_eq_right BitVec.extractLsb'_append_eq_left

theorem bytes32_le32 (b0 b1 b2 b3 : Byte) : bytes32 (le32 b0 b1 b2 b3) = [b0, b1, b2, b3] := by
  have h0 : (le32 b0 b1 b2 b3).extractLsb' 0 8 = b0 := BitVec.extractLsb'_append_eq_right
  have h1 : (le32 b0 b1 b2 b3).extractLsb' 8 8 = b1 :=
    (BitVec.extractLsb'_append_eq_of_le (by decide)).trans BitVec.extractLsb'_append_eq_right
  have h2 : (le32 b0 b1 b2 b3).extractLsb' 16 8 = b2 :=
    (BitVec.extractLsb'_append_eq_of_le (by decide)).trans
      ((BitVec.extractLsb'_append_eq_of_le (by decide)).trans BitVec.extractLsb'_append_eq_right)
  have h3 : (le32 b0 b1 b2 b3).extractLsb' 24 8 = b3 :=
    (BitVec.extractLsb'_append_eq_of_le (by decide)).trans
      ((BitVec.extractLsb'_append_eq_of_le (by decide)).trans BitVec.extractLsb'_append_eq_left)
  rw [bytes32, h0, h1, h2, h3]

theorem byte233_fields (b : Byte) : byte233 (hiField b) (midField b) (loField b) = b := by
  rw [byte233, hiField, midField, loField, BitVec.extractLsb'_append_extractLsb'_eq_extractLsb' (by decide),
    BitVec.extractLsb'_append_extractLsb'_eq_extractLsb' (by decide)]
  simp

theorem takeD8_read {bs r : List Byte} {d : BitVec 8} (h : takeD8 bs = some (d, r)) : d :: r = bs := by
  match bs, h with
  | _ :: _, h => cases h; rfl

theorem takeD16_read {bs r : List Byte} {d : BitVec 16} (h : takeD16 bs = some (d, r)) : bytes16 d ++ r = bs := by
  match bs, h with
  | b0 :: b1 :: _, h => cases h; rw [bytes16_le16]; rfl

theorem takeD32_read {bs r : List Byte} {d : BitVec 32} (h : takeD32 bs = some (d, r)) : bytes32 d ++ r = bs := by
  match bs, h with
  | b0 :: b1 :: b2 :: b3 :: _, h => cases h; rw [bytes32_le32]; rfl

theorem eq_two_of_ne {mod : BitVec 2} (h0 : mod ≠ 0#2) (h1 : mod ≠ 1#2) (h3 : mod ≠ 3#2) : 2#2 = mod := by
  revert mod
  decide

theorem takeDisp_read {mod : BitVec 2} (hmod : mod ≠ 3#2) {bs r : List Byte} {d : Disp} (h : takeDisp mod bs = some (d, r)) :
    d.mod = mod ∧ d.bytes ++ r = bs := by
  unfold takeDisp at h
  split_ifs at h with h0 h1
  · cases h
    exact ⟨h0.symm, rfl⟩
  · obtain ⟨⟨v, r'⟩, hv, he⟩ := Option.map_eq_some_iff.1 h
    cases he
    exact ⟨h1.symm, takeD8_read hv⟩
  · obtain ⟨⟨v, r'⟩, hv, he⟩ := Option.map_eq_some_iff.1 h
    cases he
    exact ⟨eq_two_of_ne h0 h1 hmod, takeD32_read hv⟩

theorem takeDisp16_read {mod : BitVec 2} (hmod : mod ≠ 3#2) {bs r : List Byte} {d : Disp16}
    (h : takeDisp16 mod bs = some (d, r)) : d.mod = mod ∧ d.bytes ++ r = bs := by
  unfold takeDisp16 at h
  split_ifs at h with h0 h1
  · cases h
    exact ⟨h0.symm, rfl⟩
  · obtain ⟨⟨v, r'⟩, hv, he⟩ := Option.map_eq_some_iff.1 h
    cases he
    exact ⟨h1.symm, takeD8_read hv⟩
  · obtain ⟨⟨v, r'⟩, hv, he⟩ := Option.map_eq_some_iff.1 h
    cases he
    exact ⟨eq_two_of_ne h0 h1 hmod, takeD16_read hv⟩

section Operand
variable {m : Mode} {ps : List Prefix} {mod : BitVec 2} {rm : BitVec 3} {bs r : List Byte} {x : Mem}

theorem takeMem16_read (ha : addressSize m ps = .a16) (hmod : mod ≠ 3#2) (reg : BitVec 3)
    (h : takeMem16 mod rm bs = some (x, r)) : x.wf m ps = true ∧ encodeMem reg x ++ r = byte233 mod reg rm :: bs := by
  unfold takeMem16 at h
  split_ifs at h with habs <;> obtain ⟨⟨d, r'⟩, hd, he⟩ := Option.map_eq_some_iff.1 h <;> cases he
  · obtain ⟨rfl, rfl⟩ := habs
    exact ⟨by simp [Mem.wf, ha], congrArg (List.cons _) (takeD16_read hd)⟩
  · obtain ⟨rfl, hbytes⟩ := takeDisp16_read hmod hd
    rw [disp16_mod_eq_zero_iff] at habs
    exact ⟨by simpa [Mem.wf, ha, or_iff_not_imp_left] using habs, congrArg (List.cons _) hbytes⟩

theorem takeSib_read (ha : addressSize m ps ≠ .a16) (hmod : mod ≠ 3#2) (reg : BitVec 3) (h : takeSib mod bs = some (x, r)) :
    x.wf m ps = true ∧ encodeMem reg x ++ r = byte233 mod reg 4#3 :: bs := by
  match bs, h with
  | sib :: bs, h =>
    rw [takeSib] at h
    split_ifs at h with hno <;> obtain ⟨⟨d, r'⟩, hd, he⟩ := Option.map_eq_some_iff.1 h <;> cases he
    · obtain ⟨rfl, hbase⟩ := hno
      refine ⟨by simpa [Mem.wf] using ha, congrArg (List.cons _) ?_⟩
      rw [← hbase, byte233_fields, ← takeD32_read hd]
      rfl
    · obtain ⟨rfl, hbytes⟩ := takeDisp_read hmod hd
      rw [disp_mod_eq_zero_iff] at hno
      refine ⟨by simpa [Mem.wf, ha, or_iff_not_imp_left] using hno, congrArg (List.cons _) ?_⟩
      rw [byte233_fields, ← hbytes]
      rfl

/-- Outside 64-bit mode an address size other than 16 is 32 (R108). -/
theorem addressSize_eq_a32 (hm : m ≠ .long64) (ha : addressSize m ps ≠ .a16) : addressSize m ps = .a32 := by
  revert ha
  unfold addressSize
  cases ps.contains .addrSize <;> cases m <;> simp_all

theorem takeMem32_read (ha : addressSize m ps ≠ .a16) (hmod : mod ≠ 3#2) (reg : BitVec 3)
    (h : takeMem32 (m = .long64) mod rm bs = some (x, r)) :
    x.wf m ps = true ∧ encodeMem reg x ++ r = byte233 mod reg rm :: bs := by
  unfold takeMem32 at h
  split_ifs at h with hsib habs hlong
  · subst hsib
    exact takeSib_read ha hmod reg h
  all_goals
    obtain ⟨⟨d, r'⟩, hd, he⟩ := Option.map_eq_some_iff.1 h
    cases he
  · obtain ⟨rfl, rfl⟩ := habs
    exact ⟨by simpa [Mem.wf] using hlong, congrArg (List.cons _) (takeD32_read hd)⟩
  · obtain ⟨rfl, rfl⟩ := habs
    have hm : m ≠ .long64 := by simpa using hlong
    exact ⟨by simp [Mem.wf, hm, addressSize_eq_a32 hm ha], congrArg (List.cons _) (takeD32_read hd)⟩
  · obtain ⟨rfl, hbytes⟩ := takeDisp_read hmod hd
    rw [disp_mod_eq_zero_iff] at habs
    exact ⟨by simpa [Mem.wf, Disp.fitsBase, ha, hsib, or_iff_not_imp_left] using habs, congrArg (List.cons _) hbytes⟩

theorem takeModRM_read {reg : BitVec 3} {rm : Rm} (h : takeModRM m ps bs = some (reg, rm, r)) :
    rm.wf m ps = true ∧ encodeRm reg rm ++ r = bs := by
  match bs, h with
  | b :: bs, h =>
    rw [takeModRM] at h
    split_ifs at h with hreg ha
    · cases h
      refine ⟨rfl, ?_⟩
      rw [encodeRm, ← hreg, byte233_fields]
      rfl
    all_goals
      obtain ⟨⟨x, r'⟩, hx, he⟩ := Option.map_eq_some_iff.1 h
      cases he
    · obtain ⟨hwf, hbytes⟩ := takeMem16_read ha hreg (midField b) hx
      exact ⟨hwf, by rw [encodeRm, hbytes, byte233_fields]⟩
    · obtain ⟨hwf, hbytes⟩ := takeMem32_read ha hreg (midField b) hx
      exact ⟨hwf, by rw [encodeRm, hbytes, byte233_fields]⟩

end Operand

/-! #### Prefixes, REX and the opcode byte (R97 steps 1 to 4) -/

theorem prefixOf_read {b : Byte} {p : Prefix} (h : prefixOf b = some p) : p.byte = b := by
  revert b
  cases p with
  | seg r => cases r <;> decide
  | _ => decide

theorem stemOf_read {b : Byte} {st : Stem} (h : stemOf b = some st) : st.byte = b := by
  unfold stemOf at h
  split_ifs at h with h1 h2 h3 h4 <;> cases h
  exacts [h1.symm, h2.symm, h3.symm, h4.symm]

theorem rexOf_read {b : Byte} (h : isRex b = true) : (rexOf b).byte = b := by
  revert b
  decide

theorem scanPrefixes_read (bs : List Byte) : encodePrefixes (scanPrefixes bs).1 ++ (scanPrefixes bs).2 = bs := by
  induction bs with
  | nil => rfl
  | cons b bs ih =>
    rw [scanPrefixes]
    cases hp : prefixOf b with
    | none => rfl
    | some p => exact congrArg₂ List.cons (prefixOf_read hp) ih

/-- Prefixes other than LOCK, F2 and F3 are plain. -/
theorem plain_of_notMem {ps : List Prefix} (hlock : .lock ∉ ps) (hrep : hasRep ps = false) : ps.all Prefix.plain = true := by
  obtain ⟨h3, h2⟩ : .rep ∉ ps ∧ .repne ∉ ps := by simpa [hasRep] using hrep
  refine List.all_eq_true.2 fun p hp => ?_
  cases p with
  | seg | opSize | addrSize => rfl
  | lock => exact absurd hp hlock
  | repne => exact absurd hp h2
  | rep => exact absurd hp h3


/-! #### Legacy forms (R98) -/

/-- The bytes of a REX prefix, if there is one. -/
def rexBytes (rex : Option Rex) : List Byte := rex.elim [] fun x => [x.byte]

theorem legacyXmm_fields (m : Mode) (st : Stem) (h : LegacyHead) (reg : BitVec 3) (rm : Rm) :
    (legacyXmm st h reg rm).fieldsWf m = (h.wf m true && rm.wf m h.prefixes) ∧
      encode (legacyXmm st h reg rm) = encodeLegacy st h reg rm := by
  cases st <;> exact ⟨rfl, rfl⟩

theorem legacyMm_fields (m : Mode) {st : Stem} {h : LegacyHead} {reg : BitVec 3} {rm : Rm} {i : Instr}
    (hi : legacyMm st h reg rm = some i) :
    i.fieldsWf m = (h.wf m false && rm.wf m h.prefixes) ∧ encode i = encodeLegacy st h reg rm := by
  cases st <;> cases hi <;> exact ⟨rfl, rfl⟩

/-- What the decoder has found where it answers a legacy form. -/
theorem decodeLegacy_ok {m : Mode} {ps : List Prefix} {rex : Option Rex} {bs rest : List Byte} {i : Instr}
    (h : decodeLegacy m ps rex bs = .ok i rest) :
    ∃ op bs' st reg rm, bs = op :: bs' ∧ stemOf op = some st ∧ takeModRM m ps bs' = some (reg, rm, rest) ∧
      .lock ∉ ps ∧ hasRep ps = false ∧
      (ps.contains .opSize = true ∧ i = legacyXmm st ⟨ps, rex⟩ reg rm ∨
        ps.contains .opSize = false ∧ legacyMm st ⟨ps, rex⟩ reg rm = some i) := by
  match bs, h with
  | op :: bs, h =>
    rw [decodeLegacy] at h
    cases hst : stemOf op with
    | none => rw [hst] at h; cases h
    | some st =>
      cases hrm : takeModRM m ps bs with
      | none => simp only [hst, hrm] at h; cases h
      | some p =>
        obtain ⟨reg, rm, r⟩ := p
        simp only [hst, hrm] at h
        split_ifs at h with hlock hrep h66
        · cases h
          exact ⟨op, bs, st, reg, rm, rfl, hst, hrm, by simpa using hlock, Bool.eq_false_iff.2 hrep, .inl ⟨h66, rfl⟩⟩
        · split at h
          next j hj =>
            cases h
            exact ⟨op, bs, st, reg, rm, rfl, hst, hrm, by simpa using hlock, Bool.eq_false_iff.2 hrep,
              .inr ⟨Bool.eq_false_iff.2 h66, hj⟩⟩
          next => cases h

theorem decodeLegacy_read {m : Mode} {ps : List Prefix} {rex : Option Rex} {bs rest : List Byte} {i : Instr}
    (hrex : (rex.isNone || m == .long64) = true) (h : decodeLegacy m ps rex bs = .ok i rest) :
    i.fieldsWf m = true ∧ encode i ++ rest = encodePrefixes ps ++ (rexBytes rex ++ 0x0F#8 :: bs) := by
  obtain ⟨op, bs, st, reg, rm, rfl, hst, hrm, hlock, hrep, hrow⟩ := decodeLegacy_ok h
  obtain ⟨hwf, hbytes⟩ := takeModRM_read hrm
  have hplain := plain_of_notMem hlock hrep
  have hencode : encodeLegacy st ⟨ps, rex⟩ reg rm ++ rest = encodePrefixes ps ++ (rexBytes rex ++ 0x0F#8 :: op :: bs) := by
    rw [← hbytes, ← stemOf_read hst]
    simp [encodeLegacy, rexBytes]
  obtain ⟨with66, h66, hfields, henc⟩ : ∃ with66, ps.contains .opSize = with66 ∧
      i.fieldsWf m = (LegacyHead.wf m with66 ⟨ps, rex⟩ && rm.wf m ps) ∧ encode i = encodeLegacy st ⟨ps, rex⟩ reg rm := by
    rcases hrow with ⟨h66, rfl⟩ | ⟨h66, hi⟩
    · exact ⟨true, h66, legacyXmm_fields m st ⟨ps, rex⟩ reg rm⟩
    · exact ⟨false, h66, legacyMm_fields m hi⟩
  rw [hfields, henc]
  exact ⟨by simp [LegacyHead.wf, hplain, ← h66, hwf, hrex], hencode⟩

/-! #### VEX forms (R110 to R112) -/

theorem beforeVex_eq_none {ps : List Prefix} {rex : Option Rex} (h : beforeVex ps rex = none) :
    ps.all Prefix.plain = true ∧ .opSize ∉ ps ∧ rex = none := by
  unfold beforeVex at h
  split_ifs at h with hlock hother
  simp only [Bool.or_eq_true, not_or, Bool.not_eq_true] at hother
  obtain ⟨⟨hrep, h66⟩, hrex⟩ := hother
  exact ⟨plain_of_notMem (by simpa using hlock) hrep, by simpa using h66, by simpa using hrex⟩

theorem vexRow_fields (m : Mode) (st : Stem) (l : Bool) (h : VexHead) (reg : BitVec 3) (rm : Rm) :
    (vexRow st l h reg rm).fieldsWf m = (h.wf m && rm.wf m h.prefixes) ∧
      encode (vexRow st l h reg rm) = encodeVex st l h reg rm := by
  cases st <;> cases l <;> exact ⟨rfl, rfl⟩

/-- What the decoder has found where it answers a VEX form. -/
theorem decodeVexBody_ok {m : Mode} {ps : List Prefix} {rex : Option Rex} {sp : VexSpelling} {v : BitVec 4} {l : Bool}
    {pp : BitVec 2} {mmmmm : BitVec 5} {bs rest : List Byte} {i : Instr}
    (h : decodeVexBody m ps rex sp v l pp mmmmm bs = .ok i rest) :
    ∃ op bs' st reg rm, bs = op :: bs' ∧ stemOf op = some st ∧ takeModRM m ps bs' = some (reg, rm, rest) ∧
      pp = 1#2 ∧ mmmmm = 1#5 ∧ beforeVex ps rex = none ∧ m.realOrV86 = false ∧
      (m ≠ .long64 → sp.b = false ∧ bitAt v 3 = false) ∧ i = vexRow st l ⟨ps, sp, v⟩ reg rm := by
  match bs, h with
  | op :: bs, h =>
    rw [decodeVexBody] at h
    cases hst : stemOf op with
    | none => rw [hst] at h; cases h
    | some st =>
      simp only [hst] at h
      obtain ⟨rfl, rfl⟩ : pp = 1#2 ∧ mmmmm = 1#5 := by
        by_contra hpp
        rw [if_pos (not_and_or.1 hpp)] at h
        cases h
      rw [if_neg (by simp)] at h
      cases hrm : takeModRM m ps bs with
      | none => simp only [hrm] at h; cases h
      | some p =>
        obtain ⟨reg, rm, r⟩ := p
        simp only [hrm] at h
        cases hbefore : beforeVex ps rex with
        | some c => simp only [hbefore] at h; cases h
        | none =>
          simp only [hbefore] at h
          split_ifs at h with hmode habove
          cases h
          exact ⟨op, bs, st, reg, rm, rfl, hst, hrm, rfl, rfl, rfl, Bool.eq_false_iff.2 hmode,
            fun hm => by simpa [hm] using habove, rfl⟩

theorem decodeVexBody_read {m : Mode} {ps : List Prefix} {rex : Option Rex} {sp : VexSpelling} {v : BitVec 4} {l : Bool}
    {pp : BitVec 2} {mmmmm : BitVec 5} {bs rest : List Byte} {i : Instr}
    (hlow : m ≠ .long64 → sp.b = false → sp.lowRegisters = true)
    (h : decodeVexBody m ps rex sp v l pp mmmmm bs = .ok i rest) :
    pp = 1#2 ∧ mmmmm = 1#5 ∧ i.fieldsWf m = true ∧
      encode i ++ rest = encodePrefixes ps ++ (rexBytes rex ++ (encodeVexPrefix l ⟨ps, sp, v⟩ ++ bs)) := by
  obtain ⟨op, bs, st, reg, rm, rfl, hst, hrm, hpp, hmm, hbefore, hmode, habove, rfl⟩ := decodeVexBody_ok h
  obtain ⟨hwf, hbytes⟩ := takeModRM_read hrm
  obtain ⟨hplain, h66, rfl⟩ := beforeVex_eq_none hbefore
  obtain ⟨hfields, henc⟩ := vexRow_fields m st l ⟨ps, sp, v⟩ reg rm
  refine ⟨hpp, hmm, ?_, ?_⟩
  · have hregs : m = .long64 ∨ sp.lowRegisters = true ∧ bitAt v 3 = false :=
      or_iff_not_imp_left.2 fun hm => ⟨hlow hm (habove hm).1, (habove hm).2⟩
    rw [hfields]
    simp [VexHead.wf, hwf, h66, hplain, hmode, hregs]
  · rw [henc, ← hbytes, ← stemOf_read hst]
    simp [encodeVex, rexBytes]

theorem vexPayload_read {b : Byte} (h : b.extractLsb' 0 2 = 1#2) :
    vexPayload (!bitAt b 7) (~~~ b.extractLsb' 3 4) (bitAt b 2) = b := by
  revert b
  decide

theorem vexPayload1_read {b : Byte} (h : b.extractLsb' 0 5 = 1#5) :
    vexPayload1 (!bitAt b 7) (!bitAt b 6) (!bitAt b 5) = b := by
  revert b
  decide

theorem vexPayload2_read {b : Byte} (h : b.extractLsb' 0 2 = 1#2) :
    vexPayload2 (bitAt b 7) (~~~ b.extractLsb' 3 4) (bitAt b 2) = b := by
  revert b
  decide

/-- Outside 64-bit mode, bits 7:6 of the first payload byte are 11, so that the bits R and X they store inverted are 0. -/
theorem vexRecognised_read {m : Mode} {b : Byte} (h : vexRecognised m b = true) (hm : m ≠ .long64) :
    bitAt b 7 = true ∧ bitAt b 6 = true := by
  have hhi : hiField b = 3#2 := by simpa [vexRecognised, hm] using h
  clear h
  revert b
  decide

theorem decodeVex2_read {m : Mode} {ps : List Prefix} {rex : Option Rex} {bs rest : List Byte} {i : Instr}
    (h : decodeVex2 m ps rex bs = .ok i rest) :
    i.fieldsWf m = true ∧ encode i ++ rest = encodePrefixes ps ++ (rexBytes rex ++ 0xC5#8 :: bs) := by
  match bs, h with
  | v1 :: bs, h =>
    rw [decodeVex2] at h
    split_ifs at h with hrec
    obtain ⟨hpp, -, hfields, henc⟩ := decodeVexBody_read
      (fun hm _ => by simp [VexSpelling.lowRegisters, (vexRecognised_read hrec hm).1]) h
    refine ⟨hfields, henc.trans ?_⟩
    conv_rhs => rw [← vexPayload_read hpp]
    rfl

theorem decodeVex3_read {m : Mode} {ps : List Prefix} {rex : Option Rex} {bs rest : List Byte} {i : Instr}
    (h : decodeVex3 m ps rex bs = .ok i rest) :
    i.fieldsWf m = true ∧ encode i ++ rest = encodePrefixes ps ++ (rexBytes rex ++ 0xC4#8 :: bs) := by
  match bs, h with
  | [v1], h =>
    rw [decodeVex3] at h
    split_ifs at h
  | v1 :: v2 :: bs, h =>
    rw [decodeVex3] at h
    split_ifs at h with hrec
    obtain ⟨hpp, hmm, hfields, henc⟩ := decodeVexBody_read
      (fun hm hb => by
        obtain ⟨h7, h6⟩ := vexRecognised_read hrec hm
        simpa [VexSpelling.lowRegisters, VexSpelling.b, h7, h6] using hb) h
    refine ⟨hfields, henc.trans ?_⟩
    conv_rhs => rw [← vexPayload1_read hmm, ← vexPayload2_read hpp]
    rfl

/-! #### EVEX forms (R113 to R117) -/

theorem evexP0_read {b : Byte} (h3 : bitAt b 3 = false) (h : b.extractLsb' 0 3 = 1#3) :
    evexP0 (!bitAt b 7) (!bitAt b 6) (!bitAt b 5) (!bitAt b 4) = b := by
  revert b
  decide

theorem evexP1_read {b : Byte} (h2 : bitAt b 2 = true) (h : b.extractLsb' 0 2 = 1#2) :
    evexP1 (bitAt b 7) (~~~ b.extractLsb' 3 4) = b := by
  revert b
  decide

theorem evexP2_read (b : Byte) :
    evexP2 (bitAt b 7) (b.extractLsb' 5 2) (bitAt b 4) (!bitAt b 3) (b.extractLsb' 0 3) = b := by
  revert b
  decide

theorem vecLenOf_read {ll : BitVec 2} {vl : VecLen} (h : vecLenOf ll = some vl) : vl.field = ll := by
  unfold vecLenOf at h
  split_ifs at h with h0 h1 h2 <;> cases h
  exacts [h0.symm, h1.symm, h2.symm]

theorem maskOf_read {z : Bool} {aaa : BitVec 3} {k : Mask} (h : maskOf z aaa = some k) :
    k.wf = true ∧ k.z = z ∧ k.aaa = aaa := by
  unfold maskOf at h
  split_ifs at h with h0 hz hz <;> cases h <;> simp [Mask.wf, Mask.z, Mask.aaa, h0, hz]

theorem bcstOf_read {b : Bool} {rm : Rm} {src : RmBcst} (h : bcstOf b rm = some src) : src.b = b ∧ modRmOf src = rm := by
  cases rm <;> cases b <;> cases h <;> exact ⟨rfl, rfl⟩

/-- The row of an EVEX form has the fields it is chosen by, and their encoding. -/
theorem evexRow_fields (m : Mode) {st : Stem} {vl : VecLen} {h : EvexHead} {w b : Bool} {reg : BitVec 3} {rm : Rm} {i : Instr}
    (hi : evexRow st vl h w b reg rm = .ok i) :
    i.fieldsWf m = (h.wf m && rm.wf m h.prefixes) ∧
      encode i = encodePrefixes h.prefixes ++ encodeEvexPrefix vl h w b ++ st.byte :: encodeRm reg rm := by
  have bcstRow (q : Bool) {src : RmBcst} (hsrc : bcstOf b rm = some src) :
      (evexRowD q vl h reg src).fieldsWf m = (h.wf m && rm.wf m h.prefixes) ∧
        encode (evexRowD q vl h reg src) = encodePrefixes h.prefixes ++ encodeEvexPrefix vl h q b ++
          (if q then Stem.qdq else .dq).byte :: encodeRm reg rm := by
    obtain ⟨rfl, rfl⟩ := bcstOf_read hsrc
    rw [← rmBcst_wf_eq, ← encodeRmBcst_eq]
    cases q <;> cases vl <;> exact ⟨rfl, rfl⟩
  cases st with
  | bw | wd =>
    cases b with
    | true => cases hi
    | false => cases hi; cases vl <;> exact ⟨rfl, rfl⟩
  | dq | qdq =>
    simp only [evexRow] at hi
    cases w <;> cases hsrc : bcstOf b rm <;> simp [hsrc] at hi
    cases hi
    exact bcstRow _ hsrc

/-- The head of an EVEX form, from the bytes of its prefix. -/
def evexHeadOf (ps : List Prefix) (p0 p1 p2 : Byte) (k : Mask) : EvexHead :=
  ⟨ps, !bitAt p0 7, !bitAt p0 6, !bitAt p0 5, !bitAt p0 4, ~~~ p1.extractLsb' 3 4, !bitAt p2 3, k⟩

/-- What the decoder has found where it answers an EVEX form. -/
theorem finishEvex_ok {m : Mode} {ps : List Prefix} {rex : Option Rex} {p0 p1 p2 : Byte} {st : Stem} {reg : BitVec 3}
    {rm : Rm} {r rest : List Byte} {i : Instr} (h : finishEvex m ps rex p0 p1 p2 st reg rm r = .ok i rest) :
    ∃ vl k, rest = r ∧ beforeVex ps rex = none ∧ m.realOrV86 = false ∧ bitAt p0 3 = false ∧ bitAt p1 2 = true ∧
      vecLenOf (p2.extractLsb' 5 2) = some vl ∧ maskOf (bitAt p2 7) (p2.extractLsb' 0 3) = some k ∧
      evexRow st vl (evexHeadOf ps p0 p1 p2 k) (bitAt p1 7) (bitAt p2 4) reg rm = .ok i ∧
      (m ≠ .long64 → (evexHeadOf ps p0 p1 p2 k).aboveSeven = false) := by
  rw [finishEvex] at h
  cases hbefore : beforeVex ps rex with
  | some c => simp only [hbefore] at h; cases h
  | none =>
    simp only [hbefore] at h
    split_ifs at h with hmode hreserved
    obtain ⟨h3, h2⟩ : bitAt p0 3 = false ∧ bitAt p1 2 = true := by simpa [not_or] using hreserved
    cases hvl : vecLenOf (p2.extractLsb' 5 2) with
    | none => simp only [hvl] at h; cases h
    | some vl =>
      cases hmask : maskOf (bitAt p2 7) (p2.extractLsb' 0 3) with
      | none => simp only [hvl, hmask] at h; cases h
      | some k =>
        simp only [hvl, hmask] at h
        split at h
        · cases h
        next j hj =>
          split_ifs at h with habove
          cases h
          exact ⟨vl, k, rfl, rfl, Bool.eq_false_iff.2 hmode, h3, h2, rfl, rfl, hj,
            fun hm => Bool.eq_false_iff.2 fun h7 => habove ⟨hm, h7⟩⟩

theorem finishEvex_read {m : Mode} {ps : List Prefix} {rex : Option Rex} {p0 p1 p2 : Byte} {st : Stem} {reg : BitVec 3}
    {rm : Rm} {r rest : List Byte} {i : Instr} (hrec : vexRecognised m p0 = true) (hpp : p1.extractLsb' 0 2 = 1#2)
    (hmmm : p0.extractLsb' 0 3 = 1#3) (hwf : rm.wf m ps = true) (h : finishEvex m ps rex p0 p1 p2 st reg rm r = .ok i rest) :
    i.fieldsWf m = true ∧ encode i ++ rest =
      encodePrefixes ps ++ (rexBytes rex ++ 0x62#8 :: p0 :: p1 :: p2 :: st.byte :: encodeRm reg rm ++ r) := by
  obtain ⟨vl, k, rfl, hbefore, hmode, h3, h2, hvl, hmask, hrow, habove⟩ := finishEvex_ok h
  obtain ⟨hplain, h66, rfl⟩ := beforeVex_eq_none hbefore
  obtain ⟨hkwf, hz, haaa⟩ := maskOf_read hmask
  obtain ⟨hfields, henc⟩ := evexRow_fields m hrow
  refine ⟨?_, ?_⟩
  · have hregs : m = .long64 ∨ (bitAt p0 7 = true ∧ bitAt p0 6 = true) ∧ (evexHeadOf ps p0 p1 p2 k).aboveSeven = false :=
      or_iff_not_imp_left.2 fun hm => ⟨vexRecognised_read hrec hm, habove hm⟩
    rw [hfields]
    simpa [EvexHead.wf, evexHeadOf, hwf, h66, hplain, hmode, hkwf] using hregs
  · rw [henc, encodeEvexPrefix_eq]
    simp only [evexHeadOf, hz, haaa, vecLenOf_read hvl, evexP0_read h3 hmmm, evexP1_read h2 hpp, evexP2_read]
    simp [rexBytes]

theorem decodeEvex_read {m : Mode} {ps : List Prefix} {rex : Option Rex} {bs rest : List Byte} {i : Instr}
    (h : decodeEvex m ps rex bs = .ok i rest) :
    i.fieldsWf m = true ∧ encode i ++ rest = encodePrefixes ps ++ (rexBytes rex ++ 0x62#8 :: bs) := by
  match bs, h with
  | [p0], h | [p0, p1], h | [p0, p1, p2], h =>
    simp only [decodeEvex] at h
    split_ifs at h
  | p0 :: p1 :: p2 :: op :: bs, h =>
    rw [decodeEvex] at h
    have hrec : vexRecognised m p0 = true := by
      by_contra hno
      rw [if_neg hno] at h
      cases h
    rw [if_pos hrec] at h
    cases hst : stemOf op with
    | none => simp only [hst] at h; cases h
    | some st =>
      simp only [hst] at h
      obtain ⟨hpp, hmmm⟩ : p1.extractLsb' 0 2 = 1#2 ∧ p0.extractLsb' 0 3 = 1#3 := by
        by_contra hno
        rw [if_pos (not_and_or.1 hno)] at h
        cases h
      rw [if_neg (by simp [hpp, hmmm])] at h
      cases hrm : takeModRM m ps bs with
      | none => simp only [hrm] at h; cases h
      | some p =>
        obtain ⟨reg, rm, r⟩ := p
        simp only [hrm] at h
        obtain ⟨hwf, hbytes⟩ := takeModRM_read hrm
        obtain ⟨hfields, henc⟩ := finishEvex_read hrec hpp hmmm hwf h
        refine ⟨hfields, henc.trans ?_⟩
        rw [← hbytes, ← stemOf_read hst]
        simp

/-! #### All forms -/

theorem decodeClass_read {m : Mode} {ps : List Prefix} {rex : Option Rex} {bs rest : List Byte} {i : Instr}
    (hrex : (rex.isNone || m == .long64) = true) (h : decodeClass m ps rex bs = .ok i rest) :
    i.fieldsWf m = true ∧ encode i ++ rest = encodePrefixes ps ++ (rexBytes rex ++ bs) := by
  match bs, h with
  | b :: bs, h =>
    rw [decodeClass] at h
    split_ifs at h with h0F hC5 hC4 h62
    · exact h0F ▸ decodeLegacy_read hrex h
    · exact hC5 ▸ decodeVex2_read h
    · exact hC4 ▸ decodeVex3_read h
    · exact h62 ▸ decodeEvex_read h

theorem decodeRex_read {m : Mode} {ps : List Prefix} {bs rest : List Byte} {i : Instr} (h : decodeRex m ps bs = .ok i rest) :
    i.fieldsWf m = true ∧ encode i ++ rest = encodePrefixes ps ++ bs := by
  match bs, h with
  | [b], h =>
    rw [decodeRex] at h
    split_ifs at h
    exact decodeClass_read rfl h
  | b :: c :: bs, h =>
    rw [decodeRex] at h
    split_ifs at h with hrex hprefix
    · obtain ⟨rfl, hb⟩ := hrex
      have hread := decodeClass_read rfl h
      rwa [rexBytes, Option.elim, rexOf_read hb] at hread
    · exact decodeClass_read rfl h

/-- An instruction the decoder answers has legal fields, and its encoding is the bytes it was read from. -/
theorem decode_read {m : Mode} {bs rest : List Byte} {i : Instr} (h : decode m bs = .ok i rest) :
    i.fieldsWf m = true ∧ encode i ++ rest = bs := by
  have hread := decodeRex_read h
  rwa [scanPrefixes_read] at hread

/-- Settles O41: the encoding is the bytes the decoder has read. -/
theorem encodeOfDecode : Obligations.EncodeOfDecode := fun _ _ _ _ h => (decode_read h).2

/-- Settles O42: the fields are legal, and the length of the encoding counts the bytes that were read. -/
theorem decodedIsWellFormed : Obligations.DecodedIsWellFormed := by
  intro m bs i rest h
  obtain ⟨hfields, hbytes⟩ := decode_read h
  have hlength : i.length + rest.length = bs.length := by
    rw [← hbytes, List.length_append, encode_length]
  refine ⟨hfields, hlength, fun h15 => ?_⟩
  rw [Instr.wf, hfields, Bool.true_and, Instr.fits, decide_eq_true_eq, maxLength]
  omega

end Sys2Proof.Proofs
end

section
/-! PROOFS. The statements of 30_encoding.md on what the decoder rejects: prefixes that no form may have, and instructions
longer than 15 bytes. -/
namespace Sys2Proof.Proofs
open Sys2Proof.Machine Sys2Proof.Laws

/-! ### Encodings with other prefixes in front (R98, R99, R111, R115)

A legacy prefix put before an encoding is one of its prefixes (R97 step 1), so that the decoder reads the same form with other
prefixes; its operand is read alike if the address size stays. -/

theorem addressSize_cons {q : Prefix} (hq : q ≠ .addrSize) (m : Mode) (ps : List Prefix) :
    addressSize m (q :: ps) = addressSize m ps := by
  have hcontains : (q :: ps).contains .addrSize = ps.contains .addrSize := by simp [hq.symm]
  unfold addressSize
  rw [hcontains]

/-- Which operands an encoding can hold depends on the prefixes through the address size only (R108). -/
theorem rm_wf_congr {m : Mode} {ps qs : List Prefix} (h : addressSize m qs = addressSize m ps) (rm : Rm) :
    rm.wf m qs = rm.wf m ps := by
  cases rm with
  | reg r => rfl
  | mem x => cases x <;> simp only [Rm.wf, Mem.wf, h]

/-! #### Legacy forms -/

/-- A legacy form is the encoding of a head and an operand that are legal. -/
theorem exists_encodeLegacy {m : Mode} {i : Instr} (hwf : i.fieldsWf m = true) (hc : formClass i = .mmx ∨ formClass i = .sse) :
    ∃ st h reg rm with66, encode i = encodeLegacy st h reg rm ∧ (h.wf m with66 && rm.wf m h.prefixes) = true := by
  cases i with
  | punpckhbwMm h reg rm | punpckhwdMm h reg rm | punpckhdqMm h reg rm
  | punpckhbwXmm h reg rm | punpckhwdXmm h reg rm | punpckhdqXmm h reg rm | punpckhqdqXmm h reg rm =>
    exact ⟨_, h, reg, rm, _, rfl, hwf⟩
  | _ => rcases hc with hc | hc <;> cases hc

/-- A legacy form behind LOCK is `#UD`, and behind F2 or F3 it is refused (R98, R99). -/
theorem decode_cons_encodeLegacy {m : Mode} (st : Stem) {h : LegacyHead} (reg : BitVec 3) {rm : Rm} (r : List Byte)
    {with66 : Bool} (hwf : (h.wf m with66 && rm.wf m h.prefixes) = true) {q : Prefix} (hq : q.plain = false) :
    decode m (q.byte :: (encodeLegacy st h reg rm ++ r)) = if q = .lock then .ud .lock else .refuse .repOnLegacy := by
  obtain ⟨hplain, -, hrex, hrm⟩ := legacy_wf hwf
  have hsize : q ≠ .addrSize := by rintro rfl; cases hq
  rw [← rm_wf_congr (addressSize_cons hsize m h.prefixes)] at hrm
  refine (decode_encodeLegacy st (h := ⟨q :: h.prefixes, h.rex⟩) reg rm r hrex).trans ?_
  rw [List.cons_append, decodeLegacy]
  have hlock : .lock ∉ h.prefixes := notMem_of_plain hplain rfl
  cases q with
  | seg | opSize | addrSize => cases hq
  | lock | repne | rep => simp [stemOf_byte, takeModRM_encodeRm reg r hrm, hlock, hasRep]

/-- The first byte of a legacy form that is no legacy prefix is a REX byte or `0F`. -/
theorem encodeLegacy_opens (st : Stem) (h : LegacyHead) (reg : BitVec 3) (rm : Rm) :
    ∃ c cs, encodeLegacy st h reg rm = encodePrefixes h.prefixes ++ c :: cs ∧ prefixOf c = none ∧
      (isRex c = true ∨ c = 0x0F#8) := by
  obtain ⟨ps, rex⟩ := h
  cases rex with
  | none => exact ⟨0x0F#8, st.byte :: encodeRm reg rm, by simp [encodeLegacy], rfl, .inr rfl⟩
  | some x =>
    obtain ⟨hp, hr, -⟩ := rex_byte x
    exact ⟨x.byte, 0x0F#8 :: st.byte :: encodeRm reg rm, by simp [encodeLegacy], hp, .inl hr⟩

/-! #### VEX and EVEX forms -/

/-- The bytes that begin a VEX or EVEX prefix begin no other (R97 steps 1 to 3). -/
theorem vexEscape_opens {b : Byte} (hb : b ∈ [0xC4#8, 0xC5#8, 0x62#8]) :
    prefixOf b = none ∧ isRex b = false ∧ b ≠ 0x0F#8 := by
  revert b
  decide

/-- The encoding of a VEX or EVEX form is the prefixes `ps`, the byte `b` that begins a VEX or EVEX prefix, and the bytes `bs`.
Where other prefixes stand before `b` that no VEX or EVEX form may have, it is `#UD` by them (R111, R115). -/
structure VexBytes (m : Mode) (i : Instr) (ps : List Prefix) (b : Byte) (bs : List Byte) : Prop where
  encode_eq : encode i = encodePrefixes ps ++ b :: bs
  escape : b ∈ [0xC4#8, 0xC5#8, 0x62#8]
  allowed : beforeVex ps none = none
  reject : ∀ {qs : List Prefix} {rex : Option Rex} {c : UdCause} (r : List Byte), addressSize m qs = addressSize m ps →
    beforeVex qs rex = some c → decodeClass m qs rex (b :: (bs ++ r)) = .ud c

/-- The prefixes of a VEX form are looked at once its bytes are read. -/
theorem decodeVexBody_of_beforeVex {m : Mode} {qs : List Prefix} {rex : Option Rex} {c : UdCause}
    (hbefore : beforeVex qs rex = some c) (sp : VexSpelling) (v : BitVec 4) (l : Bool) (st : Stem) (reg : BitVec 3) {rm : Rm}
    (hrm : rm.wf m qs = true) (r : List Byte) :
    decodeVexBody m qs rex sp v l 1#2 1#5 (st.byte :: (encodeRm reg rm ++ r)) = .ud c := by
  simp [decodeVexBody, stemOf_byte, takeModRM_encodeRm reg r hrm, hbefore]

/-- Outside 64-bit mode the bits that the first payload byte stores in its bits 7:6 are those of registers 0 to 7. -/
theorem vexRecognised_vexPayload {m : Mode} {r : Bool} {v : BitVec 4} (l : Bool)
    (hlow : m ≠ .long64 → (VexSpelling.two r).lowRegisters = true ∧ bitAt v 3 = false) :
    vexRecognised m (vexPayload r v l) = true := vexRecognised_of fun hm => by
  obtain ⟨hr, hv⟩ := hlow hm
  obtain ⟨-, -, -, -, hhi⟩ := vexPayload_fields r l v
  rw [hhi, hv, Bool.not_false, Bool.and_true]
  exact hr

theorem vexRecognised_vexPayload1 {m : Mode} {r x b w : Bool} {v : BitVec 4}
    (hlow : m ≠ .long64 → (VexSpelling.three r x b w).lowRegisters = true ∧ bitAt v 3 = false) :
    vexRecognised m (vexPayload1 r x b) = true := vexRecognised_of fun hm => by
  obtain ⟨hr, -⟩ := hlow hm
  obtain ⟨-, -, -, -, hhi⟩ := vexPayload1_fields r x b
  rw [hhi]
  exact (Bool.and_eq_true_iff.1 hr).1

theorem vexRecognised_evexP0 {m : Mode} {h : EvexHead} (hlow : m ≠ .long64 → h.r = false ∧ h.x = false ∧ h.aboveSeven = false) :
    vexRecognised m (evexP0 h.r h.x h.b h.r') = true := vexRecognised_of fun hm => by
  obtain ⟨hr, hx, -⟩ := hlow hm
  obtain ⟨-, -, -, -, -, -, hhi⟩ := evexP0_fields h.r h.x h.b h.r'
  rw [hhi, hr, hx]
  rfl

theorem exists_vexBytes_encodeVex {m : Mode} {i : Instr} {st : Stem} {l : Bool} {h : VexHead} {reg : BitVec 3} {rm : Rm}
    (henc : encode i = encodeVex st l h reg rm) (hwf : (h.wf m && rm.wf m h.prefixes) = true) :
    ∃ ps b bs, VexBytes m i ps b bs := by
  obtain ⟨hbefore, -, hlow, hrm⟩ := vex_wf hwf
  obtain ⟨ps, sp, v⟩ := h
  cases sp with
  | two r' =>
    obtain ⟨-, -, -, hpp, -⟩ := vexPayload_fields r' l v
    have hrec := vexRecognised_vexPayload l hlow
    refine ⟨ps, _, _, henc.trans (encodeVex_two st l ps r' v reg rm), by decide, hbefore, fun r hsize hreject => ?_⟩
    rw [← rm_wf_congr hsize] at hrm
    simp [decodeClass, decodeVex2, hrec, hpp, decodeVexBody_of_beforeVex hreject _ _ _ st reg hrm r]
  | three r' x b w =>
    obtain ⟨-, -, -, hmm, -⟩ := vexPayload1_fields r' x b
    obtain ⟨-, -, -, hpp⟩ := vexPayload2_fields w l v
    have hrec := vexRecognised_vexPayload1 hlow
    refine ⟨ps, _, _, henc.trans (encodeVex_three st l ps r' x b w v reg rm), by decide, hbefore, fun r hsize hreject => ?_⟩
    rw [← rm_wf_congr hsize] at hrm
    simp [decodeClass, decodeVex3, hrec, hmm, hpp, decodeVexBody_of_beforeVex hreject _ _ _ st reg hrm r]

theorem exists_vexBytes_encodeEvex {m : Mode} {i : Instr} {st : Stem} {vl : VecLen} {h : EvexHead} {w b : Bool} {reg : BitVec 3}
    {rm : Rm} (henc : encode i = encodePrefixes h.prefixes ++ encodeEvexPrefix vl h w b ++ st.byte :: encodeRm reg rm)
    (hwf : (h.wf m && rm.wf m h.prefixes) = true) : ∃ ps b bs, VexBytes m i ps b bs := by
  obtain ⟨hh, hrm⟩ := Bool.and_eq_true_iff.1 hwf
  obtain ⟨hbefore, -, -, hlow⟩ := evexHead_wf hh
  obtain ⟨-, -, -, -, -, hmmm, -⟩ := evexP0_fields h.r h.x h.b h.r'
  obtain ⟨-, -, -, hpp⟩ := evexP1_fields w h.vvvv
  have hrec := vexRecognised_evexP0 hlow
  rw [encodeEvexPrefix_eq, List.append_assoc] at henc
  refine ⟨h.prefixes, _, _, henc, by decide, hbefore, fun r hsize hreject => ?_⟩
  rw [← rm_wf_congr hsize] at hrm
  simp [decodeClass, decodeEvex, hrec, stemOf_byte, hpp, hmmm, takeModRM_encodeRm reg r hrm, finishEvex, hreject]

theorem exists_vexBytes {m : Mode} {i : Instr} (hwf : i.fieldsWf m = true) (hc : formClass i = .vex ∨ formClass i = .evex) :
    ∃ ps b bs, VexBytes m i ps b bs := by
  have bcstRow {st : Stem} {vl : VecLen} {h : EvexHead} {reg : BitVec 3} {rm : RmBcst}
      (henc : encode i = encodeEvexD st vl h reg rm) (hrm : (h.wf m && rm.wf m h.prefixes) = true) :
      ∃ ps b bs, VexBytes m i ps b bs := by
    rw [rmBcst_wf_eq] at hrm
    rw [encodeEvexD, encodeRmBcst_eq] at henc
    exact exists_vexBytes_encodeEvex henc hrm
  cases i with
  | vpunpckhbwVex128 | vpunpckhwdVex128 | vpunpckhdqVex128 | vpunpckhqdqVex128
  | vpunpckhbwVex256 | vpunpckhwdVex256 | vpunpckhdqVex256 | vpunpckhqdqVex256 => exact exists_vexBytes_encodeVex rfl hwf
  | vpunpckhbwEvex128 | vpunpckhwdEvex128 | vpunpckhbwEvex256 | vpunpckhwdEvex256 | vpunpckhbwEvex512 | vpunpckhwdEvex512 =>
    exact exists_vexBytes_encodeEvex rfl hwf
  | vpunpckhdqEvex128 | vpunpckhqdqEvex128 | vpunpckhdqEvex256 | vpunpckhqdqEvex256 | vpunpckhdqEvex512 | vpunpckhqdqEvex512 =>
    exact bcstRow rfl hwf
  | _ => rcases hc with hc | hc <;> cases hc

section VexBytes
variable {m : Mode} {i : Instr} {ps : List Prefix} {b : Byte} {bs : List Byte} (hv : VexBytes m i ps b bs)
include hv

theorem VexBytes.beforeVex_cons : beforeVex (.lock :: ps) none = some .lock ∧
    ∀ q ∈ [Prefix.rep, .repne, .opSize], beforeVex (q :: ps) none = some .prefixBeforeVex := by
  obtain ⟨hplain, -, -⟩ := beforeVex_eq_none hv.allowed
  have hlock : .lock ∉ ps := notMem_of_plain hplain rfl
  simp [beforeVex, hasRep, hlock]

theorem VexBytes.beforeVex_rex (rex : Rex) : beforeVex ps (some rex) = some .prefixBeforeVex := by
  obtain ⟨hplain, -, -⟩ := beforeVex_eq_none hv.allowed
  have hlock : .lock ∉ ps := notMem_of_plain hplain rfl
  simp [beforeVex, hlock]

theorem VexBytes.decode_cons {q : Prefix} (hq : q ≠ .addrSize) {c : UdCause} (hc : beforeVex (q :: ps) none = some c)
    (r : List Byte) : decode m (q.byte :: (encode i ++ r)) = .ud c := by
  obtain ⟨hp, hr, -⟩ := vexEscape_opens hv.escape
  rw [hv.encode_eq, List.append_assoc]
  exact (decode_encodePrefixes m (q :: ps) hp hr (bs ++ r)).trans (hv.reject r (addressSize_cons hq m ps) hc)

theorem VexBytes.decode_rex (rex : Rex) (r : List Byte) :
    decode m (encodePrefixes ps ++ rex.byte :: b :: (bs ++ r)) =
      if m = .long64 then .ud .prefixBeforeVex else .refuse .notInScope := by
  obtain ⟨hp, hr, hx⟩ := rex_byte rex
  obtain ⟨hbp, -, -⟩ := vexEscape_opens hv.escape
  rw [decode, scanPrefixes_encodePrefixes ps hp]
  split_ifs with hm
  · subst hm
    simp [decodeRex, hr, hx, hbp, hv.reject r rfl (hv.beforeVex_rex rex)]
  · have hno : rex.byte ∉ [0x0F#8, 0xC5#8, 0xC4#8, 0x62#8] := by
      obtain ⟨w, r, x, b⟩ := rex
      revert w r x b
      decide
    simp only [List.mem_cons, not_or] at hno
    simp [decodeRex, hm, decodeClass, hno]

end VexBytes

/-- An encoding has one first byte that is no legacy prefix. -/
theorem encodePrefixes_append_inj {ps qs : List Prefix} {b c : Byte} {bs cs : List Byte} (hb : prefixOf b = none)
    (hc : prefixOf c = none) (h : encodePrefixes ps ++ b :: bs = encodePrefixes qs ++ c :: cs) : ps = qs ∧ b = c ∧ bs = cs := by
  have hscan := congrArg scanPrefixes h
  rw [scanPrefixes_encodePrefixes ps hb, scanPrefixes_encodePrefixes qs hc] at hscan
  simpa using hscan

/-- Settles O43: the legacy forms and the others, each with its prefixes as the decoder finds them. -/
theorem forbiddenPrefixes : Obligations.ForbiddenPrefixes := by
  intro m i rest hwf
  have hclass : (formClass i = .mmx ∨ formClass i = .sse) ∨ formClass i = .vex ∨ formClass i = .evex := by
    cases formClass i <;> simp
  rcases hclass with hc | hc
  · obtain ⟨st, h, reg, rm, with66, henc, hlegal⟩ := exists_encodeLegacy hwf hc
    rw [henc]
    refine ⟨decode_cons_encodeLegacy st reg rest hlegal rfl, fun _ q hq => ?_, fun hv => ?_, fun ps b bs rex hbytes hb => ?_⟩
    · have hq' : q.plain = false ∧ q ≠ .lock := by
        revert q
        decide
      rw [decode_cons_encodeLegacy st reg rest hlegal hq'.1, if_neg hq'.2]
    · rcases hc with hc | hc <;> simp [hc] at hv
    · obtain ⟨hp, hr, hF⟩ := vexEscape_opens hb
      obtain ⟨c, cs, hopens, hcp, hc0⟩ := encodeLegacy_opens st h reg rm
      obtain ⟨-, rfl, -⟩ := encodePrefixes_append_inj hp hcp (hbytes.symm.trans hopens)
      simp [hr, hF] at hc0
  · obtain ⟨ps, b, bs, hv⟩ := exists_vexBytes hwf hc
    obtain ⟨hlock, hother⟩ := hv.beforeVex_cons
    refine ⟨hv.decode_cons (by decide) hlock rest, fun hl => ?_, fun _ q hq => ?_, fun ps' b' bs' rex hbytes hb => ?_⟩
    · rcases hc with hc | hc <;> simp [hc] at hl
    · exact hv.decode_cons (by rintro rfl; simp at hq) (hother q hq) rest
    · obtain ⟨rfl, rfl, rfl⟩ := encodePrefixes_append_inj (vexEscape_opens hb).1 (vexEscape_opens hv.escape).1
        (hbytes.symm.trans hv.encode_eq)
      exact hv.decode_rex rex rest

/-! ### More than 15 bytes (R96, R218 (c)) -/

/-- The first 15 bytes of the encoding of `i` stand in memory from `CS:RIP` on. -/
def BeginsAtRip (s : State) (i : Instr) : Prop :=
  ∀ k < 15, (encode i)[k]? = some (s.byteAt (s.linAdd (s.linear .cs s.rip) k))

theorem instrBytes_of_beginsAtRip {s : State} {i : Instr} (hi : BeginsAtRip s i) : s.instrBytes = (encode i).take 15 := by
  refine List.ext_getElem? fun k => ?_
  by_cases hk : k < 15
  · rw [List.getElem?_take_of_lt hk, hi k hk, List.getElem?_eq_getElem (by rwa [instrBytes_length]), instrBytes_getElem]
  · rw [List.getElem?_eq_none (by rw [instrBytes_length]; exact Nat.not_lt.1 hk), List.getElem?_eq_none (by simp; omega)]

/-- Of an instruction of more than 15 bytes, 15 are too few for the decoder, and so are fewer. -/
theorem decode_instrBytes_take {s : State} {i : Instr} (hwf : i.fieldsWf s.mode = true) (hlong : 15 < i.length)
    (hi : BeginsAtRip s i) {k : Nat} (hk : k ≤ 15) : decode s.mode (s.instrBytes.take k) = .more := by
  have hwhole : decode s.mode ((encode i).take i.length) = .ok i [] := by
    have hdecode := decode_encode [] hwf
    rwa [List.append_nil, ← List.take_length (l := encode i), encode_length] at hdecode
  rw [instrBytes_of_beginsAtRip hi, List.take_take, Nat.min_eq_left hk]
  exact decode_take_more s.mode (encode i) i k i.length (by omega) (encode_length i).ge hwhole

theorem fetchLength_of_beginsAtRip {s : State} {i : Instr} (hwf : i.fieldsWf s.mode = true) (hlong : 15 < i.length)
    (hi : BeginsAtRip s i) : fetchLength s.mode s.instrBytes = 15 := by
  obtain ⟨-, hle, hdecided⟩ := fetchLength_spec s.mode s.instrBytes
  refine hle.eq_or_lt.resolve_right fun hlt => ?_
  have hd := hdecided hlt
  rw [decode_instrBytes_take hwf hlong hi hle] at hd
  cases hd

/-- Settles O48: the fetch translates 15 bytes, on which the decoder has no answer. -/
theorem longInstructionsFault : Obligations.LongInstructionsFault := by
  intro s i hin hwf hlong hi
  have hlen := fetchLength_of_beginsAtRip hwf hlong hi
  refine ⟨fun code a la ht => step_of_fetched_error hin (by rw [State.fetched, hlen, ht]; rfl), fun hno => ?_⟩
  rcases fetched_cases s with ⟨la, -, hf⟩ | ⟨-, hf⟩ | ⟨c, a, la, ht, -⟩
  · rw [hlen] at hf
    rw [step, if_pos hin, hf]
    simp only [decode_instrBytes_take hwf hlong hi (Nat.le_refl 15)]
    rfl
  · exact step_of_fetched_error hin hf
  · rw [hlen] at ht
    exact absurd ht (hno c a la)

end Sys2Proof.Proofs
end

section
/-! PROOFS. The statements of 30_encoding.md on the operands: the two spellings of a VEX prefix, register numbers, and the
addresses of memory operands. -/
namespace Sys2Proof.Proofs
open Sys2Proof.Machine Sys2Proof.Laws

/-! ### Register sources (R102, R110) -/

/-- The VEX rows with one head and with another, side by side: the same execution of each. -/
theorem exec_vexRows_zip {h h' : VexHead} {reg : BitVec 3} {rm : Rm} {p : (Nat × Instr) × (Nat × Instr)}
    (hp : p ∈ (vex128Rows h reg rm ++ vex256Rows h reg rm).zip (vex128Rows h' reg rm ++ vex256Rows h' reg rm)) :
    ∃ w vl f, exec p.1.2 = execVex w vl f h reg rm ∧ exec p.2.2 = execVex w vl f h' reg rm ∧
      p.1.2.length = h.length + rm.length ∧ p.2.2.length = h'.length + rm.length := by
  simp only [vex128Rows, vex256Rows, List.cons_append, List.nil_append, List.zip_cons_cons, List.zip_nil_left, List.mem_cons,
    List.not_mem_nil, or_false] at hp
  rcases hp with rfl | rfl | rfl | rfl | rfl | rfl | rfl | rfl <;> exact ⟨_, _, _, rfl, rfl, rfl, rfl⟩

/-- With a register source the spellings stop alike, or end in states that differ in RIP only. -/
theorem execVex_spellings (w vl : Nat) (f : Feature) (ps : List Prefix) (r w' : Bool) (v : BitVec 4) (reg rm : BitVec 3)
    (s : State) :
    (∃ e : Stop, execVex w vl f ⟨ps, .two r, v⟩ reg (.reg rm) s = e.outcome ∧
      execVex w vl f ⟨ps, .three r false false w', v⟩ reg (.reg rm) s = e.outcome) ∨
    ∃ t, execVex w vl f ⟨ps, .two r, v⟩ reg (.reg rm) s = .next t ∧
      execVex w vl f ⟨ps, .three r false false w', v⟩ reg (.reg rm) s =
        .next { t with rip := s.nextRip ((⟨ps, .two r, v⟩ : VexHead).length + (Rm.reg rm).length + 1) } := by
  rw [execVex_eq_answer, execVex_eq_answer]
  cases entryStop .vex [f] s with
  | some e => exact .inl ⟨e, rfl, rfl⟩
  | none => exact .inr ⟨_, rfl, rfl⟩

/-- Settles O31: the two spellings name the same registers, and the length enters through RIP only. -/
theorem vexSpellingsAgree : Obligations.VexSpellingsAgree := by
  intro ps r w v reg rm s p hp
  obtain ⟨w', vl, f, htwo, hthree, hlen, hlen'⟩ := exec_vexRows_zip hp
  rw [htwo, hthree, hlen, hlen']
  refine ⟨rfl, ?_⟩
  rcases execVex_spellings w' vl f ps r w v reg rm s with ⟨e, h2, h3⟩ | ⟨t, h2, h3⟩
  · rw [h2]
    cases e <;> exact h3
  · rw [h2]
    exact h3

/-- Settles O32: the number of an `mm` register is the field alone, and either REX prefix is one byte. -/
theorem rexIgnoredOnMmRegisters : Obligations.RexIgnoredOnMmRegisters := by
  intro ps x x' reg rm s p hp
  have hexec (w : Nat) : execMmx w ⟨ps, some x⟩ reg (.reg rm) s = execMmx w ⟨ps, some x'⟩ reg (.reg rm) s := rfl
  simp only [mmxRows, List.zip_cons_cons, List.zip_nil_left, List.mem_cons, List.not_mem_nil, or_false] at hp
  rcases hp with rfl | rfl | rfl
  exacts [hexec 8, hexec 16, hexec 32]

/-! ### Register numbers and the context of an address (R100, R101, R104, R110, R114, R118) -/

theorem num5_toNat (hi ext : Bool) (f : BitVec 3) : (num5 hi ext f).toNat = 16 * hi.toNat + 8 * ext.toNat + f.toNat := by
  revert hi ext f
  decide

theorem ofBool_append_toNat (hi : Bool) (v : BitVec 4) : (BitVec.ofBool hi ++ v).toNat = 16 * hi.toNat + v.toNat := by
  revert hi v
  decide

/-- What the address of an operand of `L` bits takes from the head of an instruction of `len` bytes. -/
def headContext (L len : Nat) : AnyHead → AddrContext
  | .legacy h => ⟨h.prefixes, rexB h, rexX h, 1, len⟩
  | .vex h => ⟨h.prefixes, vexB h, vexX h, 1, len⟩
  | .evex h => ⟨h.prefixes, h.b, h.x, L / 8, len⟩

theorem memOperand_context {i : Instr} {L : Nat} {a : AlignRule} {c : AddrContext} {m : Mem}
    (h : memOperand i = some (L, a, c, m)) : c = headContext L i.length (instrHead i) := by
  cases i with
  | punpckhbwMm _ _ rm | punpckhwdMm _ _ rm | punpckhdqMm _ _ rm
  | punpckhbwXmm _ _ rm | punpckhwdXmm _ _ rm | punpckhdqXmm _ _ rm | punpckhqdqXmm _ _ rm
  | vpunpckhbwVex128 _ _ rm | vpunpckhwdVex128 _ _ rm | vpunpckhdqVex128 _ _ rm | vpunpckhqdqVex128 _ _ rm
  | vpunpckhbwVex256 _ _ rm | vpunpckhwdVex256 _ _ rm | vpunpckhdqVex256 _ _ rm | vpunpckhqdqVex256 _ _ rm
  | vpunpckhbwEvex128 _ _ _ rm | vpunpckhwdEvex128 _ _ _ rm | vpunpckhdqEvex128 _ _ rm | vpunpckhqdqEvex128 _ _ rm
  | vpunpckhbwEvex256 _ _ _ rm | vpunpckhwdEvex256 _ _ _ rm | vpunpckhdqEvex256 _ _ rm | vpunpckhqdqEvex256 _ _ rm
  | vpunpckhbwEvex512 _ _ _ rm | vpunpckhwdEvex512 _ _ _ rm | vpunpckhdqEvex512 _ _ rm | vpunpckhqdqEvex512 _ _ rm =>
    cases rm <;> cases h <;> rfl

/-- The EVEX forms are those with an EVEX head. -/
theorem formClass_eq_evex_iff (i : Instr) : formClass i = .evex ↔ ∃ h, instrHead i = .evex h := by
  cases i <;> simp [formClass, instrHead]

/-- Settles O33: the numbers from their bits, and the context of a memory operand from the head. -/
theorem registerNumbers : Obligations.RegisterNumbers := by
  have number (ext : Bool) (f : BitVec 3) : (num5 false ext f).toNat = 8 * ext.toNat + f.toNat := by
    simp [num5_toNat]
  refine ⟨fun h reg => ⟨number _ reg, number _ reg⟩,
    fun h reg => ⟨number _ reg, ?_, number _ reg⟩,
    fun h reg => ⟨num5_toNat _ _ reg, ofBool_append_toNat _ _, num5_toNat _ _ reg⟩,
    fun ps w r x b => ⟨⟨rfl, rfl⟩, rfl, rfl⟩, fun ps r x b w v => ⟨⟨rfl, rfl⟩, rfl, rfl⟩, fun i L a c m h => ?_⟩
  · exact (ofBool_append_toNat false h.vvvv).trans (Nat.zero_add _)
  · have hc := memOperand_context h
    cases hhead : instrHead i with
    | legacy h =>
      rw [hhead] at hc
      subst hc
      refine ⟨rfl, rfl, fun hrex => ?_, fun rex hrex => ?_⟩ <;> simp [headContext, rexB, rexX, hrex]
    | vex h =>
      rw [hhead] at hc
      subst hc
      refine ⟨rfl, rfl, fun r hsp => ?_, fun r x b w hsp => ?_⟩ <;> simp [headContext, vexB, vexX, hsp]
    | evex h =>
      rw [hhead] at hc
      subst hc
      exact ⟨rfl, rfl, rfl, rfl⟩

/-! ### Address sizes (R108) -/

/-- The number of bits of an address size. -/
def addrBits : AddrSize → Nat
  | .a16 => 16
  | .a32 => 32
  | .a64 => 64

theorem addrBits_le (a : AddrSize) : addrBits a ≤ 64 := by cases a <;> decide

/-- An address size keeps as many bits as it has. -/
theorem sized_toNat (a : AddrSize) (v : Word) : (sized a v).toNat = v.toNat % 2 ^ addrBits a := by
  cases a with
  | a16 | a32 => exact lowBits_toNat v (by decide)
  | a64 => exact (Nat.mod_eq_of_lt v.isLt).symm

theorem addrReg_toNat (s : State) (a : AddrSize) (n : BitVec 4) :
    (s.addrReg a n).toNat = (s.readGpr n).toNat % 2 ^ addrBits a := sized_toNat a _

/-- Settles O34: every form of address keeps at most the bits of its size, which the mode and the byte 67 give. -/
theorem addressSizes : Obligations.AddressSizes := by
  refine ⟨fun s c m ha => ?_, fun ps => ⟨fun h => ?_, fun h => ?_⟩⟩
  · have hsized (v : Word) : (sized .a32 v).toNat < 2 ^ 32 := by
      rw [sized_toNat]
      exact Nat.mod_lt _ (by decide)
    have hlow (v : Word) : (lowBits 16 v).toNat < 2 ^ 32 := by
      rw [lowBits_toNat v (by decide)]
      omega
    cases m with
    | base | sib | sibNoBase | ripRel | abs32 =>
      simp only [State.effectiveAddress, ha]
      exact hsized _
    | base16 rm d => exact hlow _
    | abs16 d =>
      have hd : d.toNat < 2 ^ 16 := d.isLt
      simp only [State.effectiveAddress, BitVec.toNat_setWidth]
      omega
  all_goals simp [addressSize, h]

/-! ### Sums modulo `2^A` (R104 to R107) -/

theorem toNat_add_modEq {n : Nat} (hn : n ≤ 64) {x y : Word} {a b : Nat} (hx : x.toNat ≡ a [MOD 2 ^ n])
    (hy : y.toNat ≡ b [MOD 2 ^ n]) : (x + y).toNat ≡ a + b [MOD 2 ^ n] := by
  rw [BitVec.toNat_add]
  exact ((Nat.mod_modEq _ _).of_dvd (pow_dvd_pow 2 hn)).trans (hx.add hy)

theorem toNat_mul_ofNat_modEq {n : Nat} (hn : n ≤ 64) (x : Word) (k : Nat) :
    (x * BitVec.ofNat 64 k).toNat ≡ x.toNat * k [MOD 2 ^ n] := by
  rw [BitVec.toNat_mul, BitVec.toNat_ofNat]
  have hmod {a b : Nat} (h : a ≡ b [MOD 2 ^ 64]) : a ≡ b [MOD 2 ^ n] := h.of_dvd (pow_dvd_pow 2 hn)
  exact (hmod (Nat.mod_modEq _ _)).trans ((Nat.ModEq.refl _).mul (hmod (Nat.mod_modEq _ _)))

theorem toNat_shiftLeft_modEq {n : Nat} (hn : n ≤ 64) (x : Word) (k : Nat) :
    (x <<< k).toNat ≡ x.toNat * 2 ^ k [MOD 2 ^ n] := by
  rw [BitVec.toNat_shiftLeft, Nat.shiftLeft_eq]
  exact (Nat.mod_modEq _ _).of_dvd (pow_dvd_pow 2 hn)

theorem dispValue_modEq {n : Nat} (hn : n ≤ 64) (scale : Nat) (v : BitVec 8) :
    (dispValue scale (.d8 v)).toNat ≡ (v.signExtend 64).toNat * scale [MOD 2 ^ n] :=
  toNat_mul_ofNat_modEq hn _ scale

theorem num4_eq_four_iff (x : Bool) (f : BitVec 3) : num4 x f = 4#4 ↔ x = false ∧ f = 4#3 := by
  revert x f
  decide

/-- The index part of a SIB byte, as a number modulo `2^n`: nothing where `Xx::index` is 0100 (R105). -/
theorem indexPart_modEq {n : Nat} (hn : n ≤ 64) (s : State) (a : AddrSize) (x : Bool) (scale : BitVec 2) (index : BitVec 3) :
    (s.indexPart a x scale index).toNat ≡
      if x = false ∧ index = 4#3 then 0 else (s.addrReg a (num4 x index)).toNat * 2 ^ scale.toNat [MOD 2 ^ n] := by
  simp only [State.indexPart, num4_eq_four_iff]
  split_ifs
  · rfl
  · exact toNat_shiftLeft_modEq hn _ _

/-- Settles O35: each address is the low bits of a sum of its parts. -/
theorem sibAddresses : Obligations.SibAddresses := by
  intro s c scale index b d v A hA reg idx dsp dsp8
  generalize ha : addressSize s.mode c.prefixes = a at hA
  obtain rfl : A = addrBits a := by rcases hA with ⟨rfl, rfl⟩ | ⟨rfl, rfl⟩ <;> rfl
  have hn := addrBits_le a
  have hbase : (s.addrReg a (num4 c.b b)).toNat ≡ reg (num4 c.b b) [MOD 2 ^ addrBits a] := by
    rw [addrReg_toNat]
  have hidx : (s.indexPart a c.x scale index).toNat ≡ idx [MOD 2 ^ addrBits a] := by
    have h := indexPart_modEq hn s a c.x scale index
    rwa [addrReg_toNat] at h
  have hdsp : (d.signExtend 64).toNat ≡ dsp [MOD 2 ^ addrBits a] := rfl
  have hdsp8 : (dispValue c.scale (.d8 v)).toNat ≡ dsp8 [MOD 2 ^ addrBits a] := dispValue_modEq hn c.scale v
  have hnone : (dispValue c.scale .none).toNat ≡ 0 [MOD 2 ^ addrBits a] := rfl
  have hsum {x : Word} {k : Nat} (hx : x.toNat ≡ k [MOD 2 ^ addrBits a]) : (sized a x).toNat = k % 2 ^ addrBits a := by
    rw [sized_toNat]
    exact hx
  have hboth := toNat_add_modEq hn hbase hidx
  simp only [State.effectiveAddress, ha]
  refine ⟨hsum (toNat_add_modEq hn hbase hdsp), hsum (toNat_add_modEq hn hbase hdsp8),
    (hsum (toNat_add_modEq hn hbase hnone)).trans (Nat.mod_mod _ _),
    hsum (toNat_add_modEq hn hboth hdsp), hsum (toNat_add_modEq hn hboth hdsp8),
    hsum (k := reg (num4 c.b b) + idx + 0) (toNat_add_modEq hn hboth hnone), hsum hdsp, hsum (toNat_add_modEq hn hidx hdsp)⟩

/-- Settles O36: the encoding read back, and the address as the low bits of the sum. -/
theorem ripRelativeAddresses : Obligations.RipRelativeAddresses := by
  refine ⟨fun m d rest => ?_, fun s c d hm => ?_⟩
  · simp [takeMem32, takeD32_bytes]
  · have hsum (a : AddrSize) : (sized a (s.nextRip c.length + d.signExtend 64)).toNat =
        (s.rip.toNat + c.length + (d.signExtend 64).toNat) % 2 ^ addrBits a := by
      have hrip : (s.nextRip c.length).toNat ≡ s.rip.toNat + c.length [MOD 2 ^ addrBits a] := by
        rw [nextRip_toNat, if_pos hm]
        exact (Nat.mod_modEq _ _).of_dvd (pow_dvd_pow 2 (addrBits_le a))
      rw [sized_toNat]
      exact toNat_add_modEq (addrBits_le a) hrip rfl
    refine ⟨fun hp => ?_, fun hp => ?_, rfl⟩ <;> simp only [State.effectiveAddress, hm, addressSize, List.contains_eq_mem, hp]
    · exact hsum .a64
    · exact hsum .a32

/-! ### Sixteen-bit addresses (R107) -/

theorem addrReg_modEq (s : State) (n : BitVec 4) : (s.addrReg .a16 n).toNat ≡ (s.readGpr n).toNat % 2 ^ 16 [MOD 2 ^ 16] := by
  rw [addrReg_toNat]
  rfl

/-- Settles O37: a row is the low 16 bits of its registers and the displacement. -/
theorem sixteenBitAddresses : Obligations.SixteenBitAddresses := by
  refine ⟨addressSize_long64_ne_a16, fun rm d8 d16 rest => ⟨fun hrm => ?_, ?_, ?_, ?_⟩, fun s c d8 d16 => ?_⟩
  · simp [takeMem16, hrm, takeDisp16]
  · simp [takeMem16, takeD16_bytes]
  · simp [takeMem16, takeDisp16, takeD8]
  · simp [takeMem16, takeDisp16, takeD16_bytes]
  · intro reg
    have row {rm : BitVec 3} {k : Nat} {g : Seg} (hk : (s.base16 rm).toNat ≡ k [MOD 2 ^ 16])
        (hg : ∀ d, defaultSeg c.b (.base16 rm d) = g) :
        (s.effectiveAddress c (.base16 rm .none)).toNat = k % 2 ^ 16 ∧
        (s.effectiveAddress c (.base16 rm (.d8 d8))).toNat =
          (k + (d8.signExtend 64 * BitVec.ofNat 64 c.scale).toNat) % 2 ^ 16 ∧
        (s.effectiveAddress c (.base16 rm (.d16 d16))).toNat = (k + d16.toNat) % 2 ^ 16 ∧
        ∀ d, defaultSeg c.b (.base16 rm d) = g := by
      have hsum {y : Word} {l : Nat} (hy : y.toNat ≡ l [MOD 2 ^ 16]) :
          (lowBits 16 (s.base16 rm + y)).toNat = (k + l) % 2 ^ 16 := by
        rw [lowBits_toNat _ (by decide)]
        exact toNat_add_modEq (by decide) hk hy
      refine ⟨hsum (y := 0#64) rfl, hsum rfl, hsum (y := d16.setWidth 64) ?_, hg⟩
      rw [BitVec.toNat_setWidth_of_le (by decide)]
    have one (n : BitVec 4) : (s.addrReg .a16 n).toNat ≡ reg n [MOD 2 ^ 16] := addrReg_modEq s n
    have two (n k : BitVec 4) : (s.addrReg .a16 n + s.addrReg .a16 k).toNat ≡ reg n + reg k [MOD 2 ^ 16] :=
      toNat_add_modEq (by decide) (one n) (one k)
    simp only [List.forall_mem_cons, List.not_mem_nil, false_imp_iff, implies_true, and_true]
    exact ⟨⟨row (two 3#4 6#4) fun _ => rfl, row (two 3#4 7#4) fun _ => rfl, row (two 5#4 6#4) fun _ => rfl,
      row (two 5#4 7#4) fun _ => rfl, row (one 6#4) fun _ => rfl, row (one 7#4) fun _ => rfl, row (one 5#4) fun _ => rfl,
      row (one 3#4) fun _ => rfl⟩, BitVec.toNat_setWidth_of_le (by decide), rfl⟩

/-! ### Segments (R109) -/

theorem segOverride_eq_none {ps : List Prefix} (h : ∀ q ∈ ps, ∀ g, q ≠ .seg g) : segOverride ps = none := by
  induction ps with
  | nil => rfl
  | cons q ps ih =>
    obtain ⟨hq, hps⟩ := List.forall_mem_cons.1 h
    cases q with
    | seg g => exact absurd rfl (hq g)
    | lock | repne | rep | opSize | addrSize => exact ih hps

/-- The last segment override is the one that counts. -/
theorem segOverride_last (ps : List Prefix) {qs : List Prefix} (r : Seg) (h : ∀ q ∈ qs, ∀ g, q ≠ .seg g) :
    segOverride (ps ++ .seg r :: qs) = some r := by
  induction ps with
  | nil => simp [segOverride, segOverride_eq_none h]
  | cons p ps ih => cases p <;> simp [segOverride, ih]

theorem stackBase_iff (n : BitVec 4) : stackBase n = true ↔ n.toNat = 4 ∨ n.toNat = 5 := by
  revert n
  decide

/-- Settles O38: the linear address, the violations, the default segments row by row, and the last override. -/
theorem operandSegments : Obligations.OperandSegments := by
  refine ⟨fun s ea hm r => linear_toNat hm r ea, fun s r ea n acc la => translate_ok_la, fun s ea hm => ⟨?_, ?_, ?_, ?_⟩,
    fun b rm d d16 d32 => ⟨by simp [defaultSeg], rfl, rfl⟩,
    fun c scale index b d d32 r ps qs => ⟨fun h => ?_, fun h => ?_, rfl, rfl, fun m hno => ?_, fun m hps hno => ?_⟩⟩
  · simp [State.linear, hm]
  · rw [State.linear, if_pos hm]
  · rw [State.linear, if_pos hm]
  · intro r n ht
    rcases translate_cases s r ea n .dataRead with ⟨-, h⟩ | ⟨-, _, _, -, h⟩ | ⟨-, -, h⟩ <;> rw [h] at ht
    · by_contra hr
      rw [if_neg hr] at ht
      cases ht
    all_goals cases ht
  · have hs := (stackBase_iff _).2 h
    simp [defaultSeg, hs]
  · have hs : stackBase (num4 c.b b) = false := Bool.eq_false_iff.2 fun hs => not_or.2 h ((stackBase_iff _).1 hs)
    simp [defaultSeg, hs]
  · rw [operandSeg, segOverride_eq_none hno]
    rfl
  · rw [operandSeg, hps, segOverride_last ps r hno]
    rfl

/-! ### Compressed displacements (R118) -/

/-- Settles O39: the factor from the context of the operand, and the address of a scaled displacement as a signed number. -/
theorem compressedDisplacement : Obligations.CompressedDisplacement := by
  refine ⟨fun vl h w reg m p L a c n hop => ?_,
    fun i L a c m hop => ⟨fun hi => ?_, fun hi => ?_⟩, fun s c b v ha => ?_⟩
  · refine ⟨fun hp => ?_, fun hp => ?_, fun hp => ?_⟩
    all_goals
      cases vl <;> rcases List.mem_pair.1 hp with rfl | rfl
      all_goals
        cases hop
        rfl
  · obtain ⟨h, hh⟩ := (formClass_eq_evex_iff i).1 hi
    rw [memOperand_context hop, hh]
    rfl
  · rw [memOperand_context hop]
    cases hh : instrHead i with
    | legacy | vex => rfl
    | evex h => exact absurd ((formClass_eq_evex_iff i).2 ⟨h, hh⟩) hi
  · have haddr : s.effectiveAddress c (.base b (.d8 v)) =
        s.readGpr (num4 c.b b) + v.signExtend 64 * BitVec.ofNat 64 c.scale := by
      rw [State.effectiveAddress, ha]
      rfl
    rw [haddr, BitVec.toInt_add, BitVec.toInt_mul, BitVec.toInt_ofNat', BitVec.toInt_signExtend_of_le (by decide)]
    simp

/-! ### Single words (R119) -/

/-- Settles O44: the decoder run on each word. -/
theorem specWordsDecode : Obligations.SpecWordsDecode := by
  refine ⟨?_, ?_, ?_, ?_, ?_, ?_⟩ <;> decide

/-- Settles O45: the decoder run on each word. -/
theorem invalidWordsRejected : Obligations.InvalidWordsRejected := by
  refine ⟨?_, ?_, ?_, ?_, ?_, ?_, ?_, ?_, ?_, ?_, ?_, ?_⟩ <;> decide

end Sys2Proof.Proofs
end

section
/-! PROOFS. The statements of 40_punpckh_legacy.md on the operation: its result by elements, by lanes, and for zero and equal
sources. -/
namespace Sys2Proof.Proofs
open Sys2Proof.Machine Sys2Proof.Laws

/-! ### The interleave by elements (R140) -/

theorem interleaved_interleaveHigh {w L : Nat} (hw : 0 < w) (x y : BitVec L) : Interleaved w L x y (interleaveHigh w L x y) :=
  fun j hj => ⟨interleaveHigh_even w L j hw x y hj, interleaveHigh_odd w L j hw x y hj⟩

/-- An element of the high half is an element of the whole, for any length. -/
theorem elem_elem_half {w L j : Nat} (hw : w ∣ L / 2) (hj : j < L / w / 2) (x : BitVec L) :
    elem (elem x (L / 2) 1) w j = elem x w (L / w / 2 + j) := by
  rw [Nat.div_right_comm] at hj ⊢
  have hd : w * (L / 2 / w) = L / 2 := Nat.mul_div_cancel' hw
  have hle : w * (j + 1) ≤ L / 2 := hd ▸ Nat.mul_le_mul_left w hj
  rw [elem_elem x (L / 2) w 1 j hle hd, Nat.mul_one]

/-- The interleave does not look at the low halves of its sources: each element it takes is one of the high half. -/
theorem interleaveHigh_eq_of_high_eq {w L : Nat} (hL : 2 ∣ L) (hw : w ∣ L / 2) {x x' y y' : BitVec L}
    (hx : elem x' (L / 2) 1 = elem x (L / 2) 1) (hy : elem y' (L / 2) 1 = elem y (L / 2) 1) :
    interleaveHigh w L x' y' = interleaveHigh w L x y := by
  have heven : 2 ∣ L / w := by
    obtain ⟨n, rfl⟩ := hL
    rw [Nat.mul_div_cancel_left n (by decide)] at hw
    exact ⟨n / w, Nat.mul_div_assoc 2 hw⟩
  refine ofElems_congr L w fun i hi => ?_
  have hj : i / 2 < L / w / 2 := by omega
  rw [← elem_elem_half hw hj x', ← elem_elem_half hw hj y', hx, hy, elem_elem_half hw hj x, elem_elem_half hw hj y]

theorem elem_append_zero {w : Nat} (x y : BitVec w) : elem (y ++ x) w 0 = x := BitVec.extractLsb'_append_eq_right

theorem elem_append_one {w : Nat} (x y : BitVec w) : elem (y ++ x) w 1 = y := by
  rw [elem, Nat.mul_one]
  exact BitVec.extractLsb'_append_eq_left

/-- Of sources with two elements the high ones are put side by side. -/
theorem interleaveHigh_of_two_elems {w : Nat} (hw : 0 < w) (x y : BitVec (w + w)) :
    interleaveHigh w (w + w) x y = elem y w 1 ++ elem x w 1 := by
  have hhalf : (w + w) / w / 2 = 1 := by rw [Nat.add_div_right w hw, Nat.div_self hw]
  obtain ⟨heven, hodd⟩ := interleaved_interleaveHigh hw x y 0 (by omega)
  rw [hhalf] at heven hodd
  refine eq_of_elem_eq hw _ _ fun i hi => ?_
  have hlast : (w + w - 1) / w < 2 := Nat.div_lt_of_lt_mul (by omega)
  obtain rfl | rfl : i = 0 ∨ i = 1 := by omega
  · rw [elem_append_zero, ← heven]
  · rw [elem_append_one, ← hodd]

/-- Settles O1: by elements, by the high halves they are in, and for two elements. -/
theorem interleaveHighByElements : Obligations.InterleaveHighByElements := by
  refine ⟨fun L hL w h0 hw x y => ⟨interleaved_interleaveHigh h0 x y, fun x' y' hx hy => ?_⟩,
    interleaveHigh_of_two_elems (w := 32) (by decide), interleaveHigh_of_two_elems (w := 64) (by decide)⟩
  have heven : 2 ∣ L := by rcases hL with rfl | rfl <;> decide
  exact interleaveHigh_eq_of_high_eq heven hw hx hy

/-! ### Lanes (R141) -/

theorem laneInterleaved_unpackHigh {w vl : Nat} (hw : 0 < w) (x y : BitVec vl) :
    LaneInterleaved w vl x y (unpackHigh w vl x y) := by
  intro l hl
  rw [unpackHigh_lane w vl l x y hl]
  exact interleaved_interleaveHigh hw _ _

/-- Settles O2: each lane is an interleave, and that goes by elements. -/
theorem unpackHighByLanes : Obligations.UnpackHighByLanes :=
  fun vl _ w h0 _ x y => ⟨fun l hl => unpackHigh_lane w vl l x y hl, laneInterleaved_unpackHigh h0 x y⟩

/-! ### Zero and equal sources (R142) -/

theorem elem_zero (L w i : Nat) : elem 0#L w i = 0#w := BitVec.extractLsb'_zero

/-- An element of twice the width is two elements side by side. -/
theorem elem_two_mul {L : Nat} (v : BitVec L) (w j : Nat) :
    elem v (2 * w) j = (elem v w (2 * j)).setWidth (2 * w) ||| (elem v w (2 * j + 1)).setWidth (2 * w) <<< w := by
  apply BitVec.eq_of_getLsbD_eq
  intro b hb
  have hj : 2 * w * j = w * (2 * j) := by rw [Nat.mul_comm 2 w, Nat.mul_assoc]
  rw [BitVec.getLsbD_or, BitVec.getLsbD_shiftLeft, BitVec.getLsbD_setWidth, BitVec.getLsbD_setWidth, elem_getLsbD,
    elem_getLsbD, elem_getLsbD, hj, Nat.mul_succ]
  by_cases hlow : b < w
  · simp [hb, hlow]
  · have hb' : w * (2 * j) + w + (b - w) = w * (2 * j) + b := by omega
    have h1 : b - w < 2 * w := by omega
    have h2 : b - w < w := by omega
    simp [hb, hlow, hb', h1, h2]

/-- A pair of result elements, as one element of twice the width. -/
theorem elem_two_mul_of_interleaved {w L j : Nat} {x y r : BitVec L} (h : Interleaved w L x y r) (hj : j < L / w / 2) :
    elem r (2 * w) j =
      (elem x w (L / w / 2 + j)).setWidth (2 * w) ||| (elem y w (L / w / 2 + j)).setWidth (2 * w) <<< w := by
  obtain ⟨heven, hodd⟩ := h j hj
  rw [elem_two_mul, heven, hodd]

/-- Settles O3: an element of a zero source is 0, so it adds nothing to its pair; of equal sources both elements are the same. -/
theorem zeroAndEqualSources : Obligations.ZeroAndEqualSources := by
  intro L _ w h0 _ v j hj
  refine ⟨?_, ?_, interleaved_interleaveHigh h0 v v j hj⟩
  · rw [elem_two_mul_of_interleaved (interleaved_interleaveHigh h0 v 0#L) hj, elem_zero]
    simp
  · rw [elem_two_mul_of_interleaved (interleaved_interleaveHigh h0 0#L v) hj, elem_zero]
    simp

end Sys2Proof.Proofs
end

section
/-! PROOFS. The statements of 40_punpckh_legacy.md on the legacy forms: they complete, with their result and frame. -/
namespace Sys2Proof.Proofs
open Sys2Proof.Machine Sys2Proof.Laws

/-! ### Operands that can be read (R60, R68) -/

/-- A value with the bytes at an address is the read at that address. -/
theorem memRead_of_bytesAt {s : State} {L : Nat} {la : Word} {y : BitVec L} (h8 : 8 ∣ L) (h0 : 0 < L)
    (h : BytesAt s L la y) : s.memRead L la = y := by
  refine eq_of_elem_eq (w := 8) (by decide) _ _ fun k hk => ?_
  have hk' : k < L / 8 := by omega
  rw [memRead_byte s L k la hk', h k hk']

theorem loadMem_of_readable {s : State} {L : Nat} {a : AlignRule} {c : AddrContext} {m : Mem} {la : Word}
    (h : Readable s L a (operandSeg c m) (s.effectiveAddress c m) la) : s.loadMem L a c m = .ok (s.fetchOperand L a la) := by
  obtain ⟨hx, hgp, hac, hse⟩ := h
  exact loadOperand_of_readable s L a _ _ la hx hgp hac hse

/-- An operand other than a legacy 128-bit one is read whole. -/
theorem fetchOperand_of_ne_legacy128 {a : AlignRule} (ha : a ≠ .legacy128) (s : State) (L : Nat) (la : Word) :
    s.fetchOperand L a la = s.memRead L la := if_neg fun h => ha h.1

/-- An operand of whole bytes that is read whole loads the value the statements say it supplies. -/
theorem loadMem_of_memSupplies {s : State} {L : Nat} {a : AlignRule} {c : AddrContext} {m : Mem} {y : BitVec L}
    (h8 : 8 ∣ L) (h0 : 0 < L) (ha : a ≠ .legacy128) (h : MemSupplies s L a c m y) : s.loadMem L a c m = .ok y := by
  obtain ⟨la, hr, hy⟩ := h
  rw [loadMem_of_readable hr, fetchOperand_of_ne_legacy128 ha, memRead_of_bytesAt h8 h0 hy]

/-! ### MMX forms (R143) -/

theorem mmxRows_class {h : LegacyHead} {reg : BitVec 3} {rm : Rm} {p : Nat × Instr} (hp : p ∈ mmxRows h reg rm) :
    formClass p.2 = .mmx := by
  fin_cases hp <;> rfl

theorem exec_mmxRows {h : LegacyHead} {reg : BitVec 3} {rm : Rm} {p : Nat × Instr} (hp : p ∈ mmxRows h reg rm) :
    exec p.2 = execMmx p.1 h reg rm := by
  fin_cases hp <;> rfl

theorem mmxRows_width {h : LegacyHead} {reg : BitVec 3} {rm : Rm} {p : Nat × Instr} (hp : p ∈ mmxRows h reg rm) : 0 < p.1 := by
  fin_cases hp <;> norm_num

theorem enabled_of_mmxEnabled {i : Instr} {s : State} (hc : formClass i = .mmx) (h : MmxEnabled s) : Enabled i s := by
  obtain ⟨hem, hts, hes, hfeat⟩ := h
  refine ⟨?_, hts, fun _ => hes⟩
  simp [UdByState, hc, hem, hfeat]

theorem mmxSource_of_supplies {s : State} {h : LegacyHead} {rm : Rm} {y : Word} (hy : MmxSupplies s h rm y) :
    s.mmxSource h rm = .ok y := by
  cases rm with
  | reg r => exact congrArg Except.ok hy.symm
  | mem m => exact loadMem_of_memSupplies (by decide) (by decide) nofun hy

/-- An MMX form that passes its entry checks and has its source completes. -/
theorem exec_mmxRows_of_source {h : LegacyHead} {reg : BitVec 3} {rm : Rm} {s : State} {y : Word} {p : Nat × Instr}
    (hp : p ∈ mmxRows h reg rm) (hs : MmxEnabled s) (hy : s.mmxSource h rm = .ok y) :
    exec p.2 s = .next (mmxResult p.1 h reg rm s y) := by
  have hc := mmxRows_class hp
  have hentry := entryStop_of_enabled (enabled_of_mmxEnabled hc hs)
  rw [rowFeatures_of_mmx hc, hc] at hentry
  rw [exec_mmxRows hp, execMmx_eq_answer, hentry, hy]
  rfl

/-- The x87 side effects of an MMX write (R30): bits 79:64 of the register are ones, `TOP` is 0, no tag is empty. -/
theorem setMm_x87 (s : State) (r : BitVec 3) (v : Word) :
    (s.setMm r v).st[r.toNat].extractLsb' 64 16 = 0xFFFF#16 ∧ (s.setMm r v).top = 0#3 ∧
      ∀ q : BitVec 3, (s.setMm r v).tags[q.toNat] = true := by
  refine ⟨?_, ?_, fun q => ?_⟩
  · simp only [setMm_st, Vector.getElem_set_self]
    exact BitVec.extractLsb'_append_eq_left
  · have hmask : (0xC7FF#16).extractLsb' 11 3 = 0#3 := by decide
    rw [State.top, setMm_fsw, BitVec.extractLsb'_and, hmask, BitVec.and_zero]
  · simp only [setMm_tags, Vector.getElem_replicate]

/-- An MMX write changes no bit of the status word but those of `TOP`. -/
theorem setMm_fsw_bit (s : State) (r : BitVec 3) (v : Word) {b : Nat} (hb : b < 11 ∨ 13 < b) :
    bitAt (s.setMm r v).fsw b = bitAt s.fsw b := by
  rw [setMm_fsw, bitAt, bitAt, BitVec.getLsbD_and]
  by_cases h16 : b < 16
  · have hmask : ∀ b < 16, b < 11 ∨ 13 < b → (0xC7FF#16).getLsbD b = true := by decide
    rw [hmask b h16 hb, Bool.and_true]
  · rw [BitVec.getLsbD_of_ge s.fsw b (by omega), Bool.false_and]

theorem onlyMm_mmxResult (w : Nat) (h : LegacyHead) (reg : BitVec 3) (rm : Rm) (s : State) (y : Word) :
    OnlyMm s (mmxResult w h reg rm s y) reg :=
  ⟨rfl, fun r hr => st_setMm_other s reg r _ hr,
    fun _ hb => setMm_fsw_bit s reg (interleaveHigh w 64 (s.readMm reg) y) hb, fun _ => rfl⟩

/-- Settles O5: the form completes, and its end is one MMX write and the advance of RIP. -/
theorem mmxFormsComplete : Obligations.MmxFormsComplete := by
  intro h reg rm s y hs hy p hp
  have hexec := exec_mmxRows_of_source hp hs (mmxSource_of_supplies hy)
  obtain ⟨hones, htop, htags⟩ := setMm_x87 s reg (interleaveHigh p.1 64 (s.readMm reg) y)
  have hmm : (mmxResult p.1 h reg rm s y).readMm reg = interleaveHigh p.1 64 (s.readMm reg) y := readMm_setMm_same s reg _
  refine ⟨_, hexec, ?_, hones, htop, htags, ripAdvancesByLength.1 _ _ _ hexec, onlyMm_mmxResult ..⟩
  rw [hmm]
  exact interleaved_interleaveHigh (mmxRows_width hp) _ _

/-! ### Legacy 128-bit forms (R144) -/

/-- Whatever part of a memory operand is fetched (R69), its high half is that of the value supplied. -/
theorem sseSource_of_supplies {s : State} {h : LegacyHead} {rm : Rm} {y : BitVec 128} (hy : SseSupplies s h rm y) :
    ∃ y', s.sseSource h rm = .ok y' ∧ highHalf y' = highHalf y := by
  cases rm with
  | reg r => exact ⟨y, congrArg Except.ok hy.symm, rfl⟩
  | mem m =>
    obtain ⟨la, hr, hbytes⟩ := hy
    refine ⟨_, loadMem_of_readable hr, ?_⟩
    rw [highHalf_fetchOperand, ← memRead_of_bytesAt (by decide) (by decide) hbytes]
    exact (elem_memRead s 128 la (w := 64) (i := 1) (by decide) (by decide) (by decide) (by decide)).symm

/-- A legacy 128-bit form that passes its entry checks and has its source completes. -/
theorem exec_sseRows_of_source {h : LegacyHead} {reg : BitVec 3} {rm : Rm} {s : State} {y : BitVec 128} {p : Nat × Instr}
    (hp : p ∈ sseRows h reg rm) (hs : SseEnabled s) (hy : s.sseSource h rm = .ok y) :
    exec p.2 s = .next (sseResult p.1 h reg rm s y) := by
  have hc := sseRows_class hp
  have hentry := entryStop_of_enabled (enabled_of_sseEnabled hc hs)
  rw [rowFeatures_of_sse hc, hc] at hentry
  rw [exec_sseRows hp, execSse_eq_answer, hentry, hy]
  rfl

theorem readVec_128_setXmm_same (s : State) (r : BitVec 5) (v : BitVec 128) : (s.setXmm r v).readVec 128 r = v := by
  simp only [State.readVec, setXmm_zmm, Vector.getElem_set_self]
  exact BitVec.setWidth_append_eq_right

theorem onlyVec_sseResult (w : Nat) (h : LegacyHead) (reg : BitVec 3) (rm : Rm) (s : State) (y : BitVec 128) :
    OnlyVec s (sseResult w h reg rm s y) (legacyDest h reg) :=
  ⟨rfl, fun r hr => readVec_setXmm_other s (legacyDest h reg) r _ 512 hr, fun _ => rfl⟩

theorem sseResult_high_bit (w : Nat) (h : LegacyHead) (reg : BitVec 3) (rm : Rm) (s : State) (y : BitVec 128) {b : Nat}
    (hb : 128 ≤ b) : bitAt ((sseResult w h reg rm s y).readVec 512 (legacyDest h reg)) b =
      bitAt (s.readVec 512 (legacyDest h reg)) b :=
  (setXmm_bit s (legacyDest h reg) _ b).trans (if_neg (Nat.not_lt.2 hb))

/-- Settles O6: the form completes from a source with the right high half, which is all the interleave looks at, and its end is
one XMM write and the advance of RIP. -/
theorem sseFormsComplete : Obligations.SseFormsComplete := by
  intro h reg rm s y hs hy p hp
  obtain ⟨y', hsrc, hhigh⟩ := sseSource_of_supplies hy
  have hexec := exec_sseRows_of_source hp hs hsrc
  have hw := sseRows_width hp
  have hxmm : (sseResult p.1 h reg rm s y').readVec 128 (legacyDest h reg) =
      interleaveHigh p.1 128 (s.readVec 128 (legacyDest h reg)) y' := readVec_128_setXmm_same s (legacyDest h reg) _
  refine ⟨_, hexec, ?_, fun b hb => sseResult_high_bit _ h reg rm s y' hb, ripAdvancesByLength.1 _ _ _ hexec,
    onlyVec_sseResult ..⟩
  rw [hxmm, interleaveHigh_congr hw _ hhigh]
  exact interleaved_interleaveHigh (Nat.pos_of_dvd_of_pos hw (by decide)) _ _

end Sys2Proof.Proofs
end

section
/-! PROOFS. The statements of 41_vpunpckh_vex.md: the VEX forms complete, with their result and frame. -/
namespace Sys2Proof.Proofs
open Sys2Proof.Machine Sys2Proof.Laws

/-! ### Vector lengths and the write of a whole vector (R6, R160) -/

theorem eight_dvd_vecBits (vl : VecLen) : 8 ∣ vecBits vl := by cases vl <;> decide

theorem vecBits_pos (vl : VecLen) : 0 < vecBits vl := Nat.lt_of_lt_of_le (by decide) (le_vecBits vl)

theorem vecBits_le (vl : VecLen) : vecBits vl ≤ 512 := by cases vl <;> decide

/-- R6 gives a processor with AVX2 vectors of at least 256 bits. -/
theorem vecBits_maxvl_of_avx2 {c : Config} (hwf : c.wf = true) (h : hasFeature c .avx2 = true) : 256 ≤ vecBits c.maxvl := by
  simp only [Config.wf, Bool.and_eq_true, beq_iff_eq] at hwf
  obtain ⟨⟨⟨⟨⟨⟨havx, -⟩, -⟩, -⟩, -⟩, hmax⟩, -⟩ := hwf
  have havx2 : c.feat.avx2 = true := h
  have havx' : c.feat.avx = true := by simpa [havx2] using havx
  rw [hmax, havx', if_pos rfl]
  cases c.feat.avx512f <;> decide

/-- A vector that the registers have room for is read back from the register it is written to. -/
theorem readVec_setVec_same_of_le {vl : Nat} {s : State} (hvl : vl ≤ vecBits s.cfg.maxvl) (r : BitVec 5) (v : BitVec vl) :
    (s.setVec r v).readVec vl r = v := by
  have h512 : vl ≤ 512 := hvl.trans (vecBits_le _)
  refine BitVec.eq_of_getLsbD_eq fun b hb => ?_
  have hread := readVec_bit (s.setVec r v) vl r b h512
  rwa [setVec_bit, decide_eq_true hb, decide_eq_true (hb.trans_le hvl), decide_eq_true (hb.trans_le h512), Bool.true_and,
    Bool.true_and, Bool.true_and] at hread

/-- The write of a vector leaves nothing of its register above the vector. -/
theorem zeroFrom_setVec {vl : Nat} (s : State) (r : BitVec 5) (v : BitVec vl) :
    ZeroFrom vl ((s.setVec r v).readVec 512 r) := by
  intro b hb
  rw [setVec_bit, bitAt, BitVec.getLsbD_of_ge v b hb, Bool.and_false, Bool.and_false]

/-- Nothing but its register changes in the write of a vector and the advance of RIP. -/
theorem onlyVec_setVec_advance {vl : Nat} (s : State) (r : BitVec 5) (v : BitVec vl) (len : Nat) :
    OnlyVec s ((s.setVec r v).advance len) r :=
  ⟨rfl, fun q hq => readVec_setVec_other s r q v 512 hq, fun _ => rfl⟩

/-! ### VEX forms (R160) -/

/-- `i` is a VEX form of the element width `w`, the vector length `vl` and the feature `f` (R161 to R168). -/
structure VexRow (w : Nat) (vl : VecLen) (f : Feature) (h : VexHead) (reg : BitVec 3) (rm : Rm) (i : Instr) : Prop where
  width_pos : 0 < w
  class_eq : formClass i = .vex
  features_eq : rowFeatures i = [f]
  exec_eq : exec i = execVex w (vecBits vl) f h reg rm

theorem vexRow_of_mem_vex128Rows {h : VexHead} {reg : BitVec 3} {rm : Rm} {p : Nat × Instr} (hp : p ∈ vex128Rows h reg rm) :
    VexRow p.1 .v128 .avx h reg rm p.2 := by
  fin_cases hp <;> exact ⟨Nat.succ_pos _, rfl, rfl, rfl⟩

theorem vexRow_of_mem_vex256Rows {h : VexHead} {reg : BitVec 3} {rm : Rm} {p : Nat × Instr} (hp : p ∈ vex256Rows h reg rm) :
    VexRow p.1 .v256 .avx2 h reg rm p.2 := by
  fin_cases hp <;> exact ⟨Nat.succ_pos _, rfl, rfl, rfl⟩

theorem enabled_of_vexEnabled {i : Instr} {f : Feature} {s : State} (hc : formClass i = .vex) (hf : rowFeatures i = [f])
    (h : VexEnabled f s) : Enabled i s := by
  obtain ⟨hmode, hxsave, havx, hts, hfeat⟩ := h
  refine ⟨?_, hts, fun hmmx => nomatch hc.symm.trans hmmx⟩
  rcases hmode with hm | hm | hm <;> simp [UdByState, hc, hf, hm, hxsave, havx, hfeat]

theorem vexSource_of_supplies {s : State} {vl : VecLen} {h : VexHead} {rm : Rm} {y : BitVec (vecBits vl)}
    (hy : VexSupplies s (vecBits vl) h rm y) : s.vexSource (vecBits vl) h rm = .ok y := by
  cases rm with
  | reg r => exact congrArg Except.ok hy.symm
  | mem m => exact loadMem_of_memSupplies (eight_dvd_vecBits vl) (vecBits_pos vl) nofun hy

section
variable {w : Nat} {vl : VecLen} {f : Feature} {h : VexHead} {reg : BitVec 3} {rm : Rm} {i : Instr} {s : State}
  {y : BitVec (vecBits vl)}

/-- A VEX form that passes its entry checks and has its second source completes. -/
theorem VexRow.exec_of_source (hi : VexRow w vl f h reg rm i) (hs : VexEnabled f s)
    (hy : s.vexSource (vecBits vl) h rm = .ok y) : exec i s = .next (vexResult w (vecBits vl) h reg rm s y) := by
  have hentry := entryStop_of_enabled (enabled_of_vexEnabled hi.class_eq hi.features_eq hs)
  rw [hi.features_eq, hi.class_eq] at hentry
  rw [hi.exec_eq, execVex_eq_answer, hentry, hy]
  rfl

/-- Its end is one write of the interleaved vector and the advance of RIP, where the registers have room for the vector. -/
theorem VexRow.completes (hi : VexRow w vl f h reg rm i) (hvl : vecBits vl ≤ vecBits s.cfg.maxvl) (hs : VexEnabled f s)
    (hy : VexSupplies s (vecBits vl) h rm y) :
    ∃ t, exec i s = .next t ∧
      LaneInterleaved w (vecBits vl) (s.readVec (vecBits vl) (vexFirst h)) y (t.readVec (vecBits vl) (vexDest h reg)) ∧
      ZeroFrom (vecBits vl) (t.readVec 512 (vexDest h reg)) ∧
      RipPast s t i.length ∧ OnlyVec s t (vexDest h reg) := by
  have hexec := hi.exec_of_source hs (vexSource_of_supplies hy)
  have hvec : (vexResult w (vecBits vl) h reg rm s y).readVec (vecBits vl) (vexDest h reg) =
      unpackHigh w (vecBits vl) (s.readVec (vecBits vl) (vexFirst h)) y := readVec_setVec_same_of_le hvl (vexDest h reg) _
  refine ⟨_, hexec, ?_, zeroFrom_setVec s (vexDest h reg) _, ripAdvancesByLength.1 _ _ _ hexec, onlyVec_setVec_advance ..⟩
  rw [hvec]
  exact laneInterleaved_unpackHigh hi.width_pos _ y

end

/-- A vector of one lane is that lane. -/
theorem elem_whole {L : Nat} (v : BitVec L) : elem v L 0 = v := BitVec.extractLsb'_eq_self

theorem interleaved_of_one_lane {w : Nat} {x y r : BitVec 128} (h : LaneInterleaved w 128 x y r) : Interleaved w 128 x y r := by
  have hlane := h 0 (by decide)
  rwa [elem_whole, elem_whole, elem_whole] at hlane

/-- Settles O7: every processor has room for the one lane that a VEX.128 form writes. -/
theorem vex128FormsComplete : Obligations.Vex128FormsComplete := by
  intro h reg rm s y hs hy p hp
  obtain ⟨t, hexec, hlanes, hframe⟩ := (vexRow_of_mem_vex128Rows hp).completes (le_vecBits s.cfg.maxvl) hs hy
  exact ⟨t, hexec, interleaved_of_one_lane hlanes, hframe⟩

/-- Settles O8: a consistent processor with AVX2 has room for the two lanes that a VEX.256 form writes. -/
theorem vex256FormsComplete : Obligations.Vex256FormsComplete := by
  intro h reg rm s y hwf hs hy p hp
  have ⟨_, _, _, _, havx2⟩ := hs
  exact (vexRow_of_mem_vex256Rows hp).completes (vecBits_maxvl_of_avx2 hwf havx2) hs hy

end Sys2Proof.Proofs
end

section
/-! PROOFS. The statements of 42_vpunpckh_evex.md: the EVEX forms complete, with their masked result and frame, and without a
writemask they agree with the VEX forms. -/
namespace Sys2Proof.Proofs
open Sys2Proof.Machine Sys2Proof.Laws

/-! ### The writemask and the broadcast by elements (R181, R182) -/

theorem maskedFrom_masked {w vl : Nat} (hw : 0 < w) (s : State) (mask : Mask) (t d : BitVec vl) :
    MaskedFrom s w vl mask t d (s.masked w vl mask t d) := by
  intro j hj
  cases mask with
  | none => rfl
  | merging k => exact applyMask_elem w vl j hw (s.readMask k) false t d hj
  | zeroing k => exact applyMask_elem w vl j hw (s.readMask k) true t d hj

/-- A vector that is one element over and over is the broadcast of that element, where elements fill the vector. -/
theorem broadcast_eq_of_elems {w vl : Nat} (hvl : 0 < vl) (hw : w ∣ vl) {m : BitVec w} {y : BitVec vl}
    (h : ∀ j < vl / w, elem y w j = m) : broadcast w vl m = y := by
  have hpos : 0 < w := Nat.pos_of_dvd_of_pos hw hvl
  refine eq_of_elem_eq hpos _ _ fun j hj => ?_
  have hlt : j < vl / w := by
    refine hj.trans_lt (Nat.div_lt_of_lt_mul ?_)
    rw [Nat.mul_div_cancel' hw]
    exact Nat.sub_lt hvl Nat.one_pos
  rw [broadcast_elem w vl j hpos m hlt, h j hlt]

/-! ### Second sources (R182) -/

theorem evexSource_of_supplies {s : State} {vl : VecLen} {h : EvexHead} {rm : Rm} {y : BitVec (vecBits vl)}
    (hy : EvexSupplies s (vecBits vl) h rm y) : s.evexSource (vecBits vl) h rm = .ok y := by
  cases rm with
  | reg r => exact congrArg Except.ok hy.symm
  | mem m => exact loadMem_of_memSupplies (eight_dvd_vecBits vl) (vecBits_pos vl) nofun hy

theorem evexBcstSource_of_supplies {s : State} {w : Nat} {vl : VecLen} {h : EvexHead} {rm : RmBcst}
    {y : BitVec (vecBits vl)} (h8 : 8 ∣ w) (hw : w ∣ vecBits vl) (hy : EvexBcstSupplies s w (vecBits vl) h rm y) :
    s.evexBcstSource w (vecBits vl) h rm = .ok y := by
  cases rm with
  | reg r => exact congrArg Except.ok hy.symm
  | mem m => exact loadMem_of_memSupplies (eight_dvd_vecBits vl) (vecBits_pos vl) nofun hy
  | bcst m =>
    obtain ⟨e, he, hall⟩ := hy
    have hload := loadMem_of_memSupplies (a := .element (w / 8)) h8 (Nat.pos_of_dvd_of_pos hw (vecBits_pos vl)) nofun he
    rw [State.evexBcstSource, hload, ← broadcast_eq_of_elems (vecBits_pos vl) hw hall]
    rfl

/-! ### EVEX forms (R180) -/

/-- The element widths of the EVEX rows: whole bytes, and a divisor of a lane. -/
theorem elementWidth_dvd : ∀ w ∈ [8, 16, 32, 64], 8 ∣ w ∧ w ∣ 128 := by decide

theorem lane_dvd_vecBits (vl : VecLen) : 128 ∣ vecBits vl := by cases vl <;> decide

/-- `i` is an EVEX form of the element width `w` and the vector length `vl`, with the second source `src` (R183 to R194). -/
structure EvexRow (w : Nat) (vl : VecLen) (h : EvexHead) (reg : BitVec 3) (src : State → Except Stop (BitVec (vecBits vl)))
    (i : Instr) : Prop where
  width_mem : w ∈ [8, 16, 32, 64]
  class_eq : formClass i = .evex
  exec_eq (s : State) : exec i s = execEvex w (vecBits vl) (rowFeatures i) h reg (src s) i.length s

theorem evexRow_of_mem_evexRowsC {vl : VecLen} {h : EvexHead} {w : Bool} {reg : BitVec 3} {rm : Rm} {p : Nat × Instr}
    (hp : p ∈ evexRowsC vl h w reg rm) : EvexRow p.1 vl h reg (fun s => s.evexSource (vecBits vl) h rm) p.2 := by
  cases vl <;> (rcases List.mem_pair.1 hp with rfl | rfl <;> exact ⟨by simp, rfl, fun _ => rfl⟩)

theorem evexRow_of_mem_evexRowsD {vl : VecLen} {h : EvexHead} {reg : BitVec 3} {rm : RmBcst} {p : Nat × Instr}
    (hp : p ∈ evexRowsD vl h reg rm) : EvexRow p.1 vl h reg (fun s => s.evexBcstSource p.1 (vecBits vl) h rm) p.2 := by
  cases vl <;> (rcases List.mem_pair.1 hp with rfl | rfl <;> exact ⟨by simp, rfl, fun _ => rfl⟩)

theorem enabled_of_evexEnabled {i : Instr} {s : State} (hc : formClass i = .evex) (h : EvexEnabled (rowFeatures i) s) :
    Enabled i s := by
  obtain ⟨hmode, hxsave, havx, havx512, hts, hmax, hfeat⟩ := h
  have hfeat' : ¬ ∃ f ∈ rowFeatures i, hasFeature s.cfg f = false :=
    fun ⟨f, hf, hno⟩ => nomatch (hfeat f hf).symm.trans hno
  refine ⟨?_, hts, fun hmmx => nomatch hc.symm.trans hmmx⟩
  rcases hmode with hm | hm | hm <;> simp [UdByState, hc, hm, hxsave, havx, havx512, hmax, hfeat']

section
variable {w : Nat} {vl : VecLen} {h : EvexHead} {reg : BitVec 3} {src : State → Except Stop (BitVec (vecBits vl))} {i : Instr}
  {s : State} {y : BitVec (vecBits vl)}

/-- The elements of an EVEX form are whole bytes. -/
theorem EvexRow.width_bytes (hi : EvexRow w vl h reg src i) : 8 ∣ w := (elementWidth_dvd w hi.width_mem).1

/-- The elements of an EVEX form fill a lane, and lanes fill the vector. -/
theorem EvexRow.width_dvd (hi : EvexRow w vl h reg src i) : w ∣ vecBits vl :=
  (elementWidth_dvd w hi.width_mem).2.trans (lane_dvd_vecBits vl)

/-- An EVEX form that passes its entry checks and has its second source completes. -/
theorem EvexRow.exec_of_source (hi : EvexRow w vl h reg src i) (hs : EvexEnabled (rowFeatures i) s) (hy : src s = .ok y) :
    exec i s = .next (evexResult w (vecBits vl) h reg i.length s y) := by
  have hentry := entryStop_of_enabled (enabled_of_evexEnabled hi.class_eq hs)
  rw [hi.class_eq] at hentry
  rw [hi.exec_eq, execEvex_eq_answer, hentry, hy]
  rfl

/-- The end of an EVEX form is one write of the masked vector, for which `MAXVL` = 512 leaves room (R180), and the advance
of RIP. -/
theorem EvexRow.completes (hi : EvexRow w vl h reg src i) (hs : EvexEnabled (rowFeatures i) s) (hy : src s = .ok y) :
    ∃ t, exec i s = .next t ∧
      (∃ u, LaneInterleaved w (vecBits vl) (s.readVec (vecBits vl) (evexFirst h)) y u ∧
        MaskedFrom s w (vecBits vl) h.mask u (s.readVec (vecBits vl) (evexDest h reg))
          (t.readVec (vecBits vl) (evexDest h reg))) ∧
      ZeroFrom (vecBits vl) (t.readVec 512 (evexDest h reg)) ∧
      RipPast s t i.length ∧ OnlyVec s t (evexDest h reg) := by
  have hexec := hi.exec_of_source hs hy
  have hw : 0 < w := Nat.pos_of_dvd_of_pos hi.width_dvd (vecBits_pos vl)
  have hroom : vecBits vl ≤ vecBits s.cfg.maxvl := by
    obtain ⟨-, -, -, -, -, hmax, -⟩ := hs
    rw [hmax]
    exact vecBits_le vl
  have hvec : (evexResult w (vecBits vl) h reg i.length s y).readVec (vecBits vl) (evexDest h reg) =
      s.masked w (vecBits vl) h.mask (unpackHigh w (vecBits vl) (s.readVec (vecBits vl) (evexFirst h)) y)
        (s.readVec (vecBits vl) (evexDest h reg)) := readVec_setVec_same_of_le hroom (evexDest h reg) _
  refine ⟨_, hexec, ⟨_, laneInterleaved_unpackHigh hw _ y, ?_⟩, zeroFrom_setVec s (evexDest h reg) _,
    ripAdvancesByLength.1 _ _ _ hexec, onlyVec_setVec_advance ..⟩
  rw [hvec]
  exact maskedFrom_masked hw s h.mask _ _

end

/-- Settles O9: the form completes from its register or memory source. -/
theorem evexByteWordFormsComplete : Obligations.EvexByteWordFormsComplete := by
  intro vl h w reg rm s y p hp hs hy
  exact (evexRow_of_mem_evexRowsC hp).completes hs (evexSource_of_supplies hy)

/-- Settles O10: the form completes from its source, which may be the broadcast of the element read. -/
theorem evexDoubleQuadFormsComplete : Obligations.EvexDoubleQuadFormsComplete := by
  intro vl h reg rm s y p hp hs hy
  have hrow := evexRow_of_mem_evexRowsD hp
  exact hrow.completes hs (evexBcstSource_of_supplies hrow.width_bytes hrow.width_dvd hy)

/-! ### EVEX forms without a writemask (R180) -/

/-- An unmasked EVEX form and a VEX form on the same registers write the same vector, if they complete. -/
theorem zmm_eq_of_unmasked {w vl len : Nat} {fs : List Feature} {f : Feature} {e : EvexHead} {v : VexHead}
    {reg rm : BitVec 3} {s t u : State} (hmask : e.mask = .none) (hdest : evexDest e reg = vexDest v reg)
    (hfirst : evexFirst e = vexFirst v) (hsecond : evexSecond e rm = vexSecond v rm)
    (ht : execEvex w vl fs e reg (.ok (s.readVec vl (evexSecond e rm))) len s = .next t)
    (hu : execVex w vl f v reg (.reg rm) s = .next u) : t.zmm = u.zmm := by
  rw [execEvex_eq_answer] at ht
  rw [execVex_eq_answer] at hu
  obtain ⟨y, hy, rfl⟩ := answer_next ht
  obtain ⟨z, hz, rfl⟩ := answer_next hu
  cases hy
  cases hz
  rw [evexResult, hmask, hdest, hfirst, hsecond]
  rfl

/-- Settles O29: with `R'`, `X` and `V'` clear the two heads name the same registers, row by row. -/
theorem unmaskedEvexEqualsVex : Obligations.UnmaskedEvexEqualsVex := by
  intro ps qs r x b w w' vvvv reg rm s t u e v p hp ht hu
  simp only [List.mem_cons, List.not_mem_nil, or_false] at hp
  rcases hp with rfl | rfl | rfl | rfl | rfl | rfl | rfl | rfl <;>
    exact zmm_eq_of_unmasked (e := e) (v := v) rfl rfl rfl rfl ht hu

end Sys2Proof.Proofs
end

section
/-! PROOFS. The statements of 60_exceptions.md: which form takes which exception or is refused, with what code, what a fault leaves
unchanged, and what a run of any length keeps. -/
namespace Sys2Proof.Proofs
open Sys2Proof.Machine Sys2Proof.Laws

/-! ### How an execution stops (R212 to R222)

An execution stops exactly by a stop of its entry checks, or, where these pass, by a stop of the read of its memory operand.
`EntryAnswer` and `OperandStop` say what these two are in the terms of the statements; the stops of the one are never stops of the
other, so each exception can be traced to its cause. -/

/-- What the entry checks of `i` answer in `s`, with the reason for it (R212 to R216, R222). -/
inductive EntryAnswer (i : Instr) (s : State) : Option Stop → Prop
  | ud (hud : UdByState i s) : EntryAnswer i s (some (.fault (.ud s)))
  | nm (hud : ¬ UdByState i s) (hts : s.ts = true) : EntryAnswer i s (some (.fault (.nm s)))
  | mf (hc : formClass i = .mmx) (hud : ¬ UdByState i s) (hts : s.ts = false) (hes : s.es87 = true) (hne : s.ne = true) :
      EntryAnswer i s (some (.fault (.mf s)))
  | refused (hc : formClass i = .mmx) (hud : ¬ UdByState i s) (hts : s.ts = false) (hes : s.es87 = true) (hne : s.ne = false) :
      EntryAnswer i s (some (.refused .externalX87Error))
  | pass (h : Enabled i s) : EntryAnswer i s none

theorem not_udByState_iff (i : Instr) (s : State) :
    ¬ UdByState i s ↔ (udByMode (formClass i) s || udByControl (formClass i) s ||
      udByFeature (formClass i) (rowFeatures i) s) = false := by
  rw [udByState_iff, Bool.not_eq_true]

theorem entryAnswer_entryStop (i : Instr) (s : State) : EntryAnswer i s (entryStop (formClass i) (rowFeatures i) s) := by
  have hyes := udByState_iff i s
  have hno := not_udByState_iff i s
  rcases entryStop_cases (formClass i) (rowFeatures i) s with
    ⟨hu, he⟩ | ⟨hu, hts, he⟩ | ⟨hu, hts, hc, hes, he⟩ | ⟨hu, hts, hm, he⟩ <;> rw [he]
  · exact .ud (hyes.2 hu)
  · exact .nm (hno.2 hu) hts
  · split_ifs with hne
    · exact .mf hc (hno.2 hu) hts hes hne
    · exact .refused hc (hno.2 hu) hts hes (Bool.eq_false_iff.2 hne)
  · exact .pass ⟨hno.2 hu, hts, fun hc => Bool.eq_false_iff.2 fun hes => hm ⟨hc, hes⟩⟩

/-- The reasons exclude each other, so the answer is the one whose reason holds. -/
theorem entryStop_eq_iff (i : Instr) (s : State) (o : Option Stop) :
    entryStop (formClass i) (rowFeatures i) s = o ↔ EntryAnswer i s o := by
  refine ⟨fun h => h ▸ entryAnswer_entryStop i s, fun h => ?_⟩
  cases h with
  | ud hud => rw [entryStop, if_pos ((udByState_iff i s).1 hud), raise]
  | nm hud hts => simp [entryStop, (not_udByState_iff i s).1 hud, hts, raise]
  | mf hc hud hts hes hne | refused hc hud hts hes hne =>
    rw [not_udByState_iff, hc] at hud
    simp [entryStop, hc, hud, hts, hes, hne, raise]
  | pass h => exact entryStop_of_enabled h

/-- How the read of a memory operand can stop, with what the translation answered where a statement needs it (R67, R68). -/
inductive OperandStop (s : State) (L : Nat) (a : AlignRule) (c : AddrContext) (m : Mem) : Stop → Prop
  | ss : OperandStop s L a c m (.fault (.ss s.zeroCode s))
  | gp : OperandStop s L a c m (.fault (.gp s.zeroCode s))
  | pf (code : BitVec 32) (x la : Word) (ht : operandXlate s L c m = .pf code x la) :
      OperandStop s L a c m (.fault (.pf code { s with cr2 := x }))
  | ac (la : Word) (ht : operandXlate s L c m = .ok la) (hac : acByAlignment a s la = true) :
      OperandStop s L a c m (.fault (.ac (some 0#32) s))
  | refused (la : Word) (ht : operandXlate s L c m = .ok la) (hse : s.sideEffect la (L / 8) = true) :
      OperandStop s L a c m (.refused .sideEffectingRegion)

theorem loadMem_error {s : State} {L : Nat} {a : AlignRule} {c : AddrContext} {m : Mem} {e : Stop}
    (h : s.loadMem L a c m = .error e) : OperandStop s L a c m e := by
  unfold State.loadMem State.loadOperand at h
  cases ht : s.translate (operandSeg c m) (s.effectiveAddress c m) (L / 8) .dataRead <;> simp only [ht] at h
  case ss =>
    cases h
    exact .ss
  case gp =>
    cases h
    exact .gp
  case pf code x la =>
    split_ifs at h <;> cases h
    · exact .gp
    · exact .pf code x la ht
  case ok la =>
    split_ifs at h with hg hac hse <;> cases h
    · exact .gp
    · exact .ac la ht hac
    · exact .refused la ht hse

theorem outcome_injective {e e' : Stop} (h : e.outcome = e'.outcome) : e = e' := by
  cases e <;> cases e' <;> cases h <;> rfl

/-- An execution stops by its entry checks, or passes them and stops by the read of its memory operand. -/
theorem exec_eq_outcome_iff (i : Instr) (s : State) (e : Stop) :
    exec i s = e.outcome ↔ EntryAnswer i s (some e) ∨
      Enabled i s ∧ ∃ L a c m, memOperand i = some (L, a, c, m) ∧ s.loadMem L a c m = .error e := by
  rw [← entryStop_eq_iff]
  constructor
  · intro h
    rcases exec_answers i s with ⟨e', hs, hx⟩ | ⟨hs, L, a, c, m, e', ho, he, hx⟩ | ⟨-, -, t, hx, -⟩
    · cases outcome_injective (hx.symm.trans h)
      exact .inl hs
    · cases outcome_injective (hx.symm.trans h)
      cases (entryStop_eq_iff i s none).1 hs with
      | pass hen => exact .inr ⟨hen, L, a, c, m, ho, he⟩
    · exact absurd (h.symm.trans hx) (outcome_ne_next e t)
  · rintro (hs | ⟨hen, L, a, c, m, ho, he⟩)
    · rcases exec_answers i s with ⟨e', hs', hx⟩ | ⟨hs', -⟩ | ⟨hs', -⟩ <;> cases hs.symm.trans hs'
      exact hx
    · exact exec_of_loadMem_error hen ho he

theorem exec_stop_cases {i : Instr} {s : State} {e : Stop} (h : exec i s = e.outcome) :
    EntryAnswer i s (some e) ∨ ∃ L a c m, memOperand i = some (L, a, c, m) ∧ OperandStop s L a c m e := by
  rcases (exec_eq_outcome_iff i s e).1 h with hs | ⟨-, L, a, c, m, ho, he⟩
  · exact .inl hs
  · exact .inr ⟨L, a, c, m, ho, loadMem_error he⟩

/-- A stop that no operand read has comes from the entry checks. -/
theorem exec_eq_outcome_iff_entry {i : Instr} {s : State} {e : Stop} (hop : ∀ L a c m, ¬ OperandStop s L a c m e) :
    exec i s = e.outcome ↔ EntryAnswer i s (some e) := by
  refine ⟨fun h => ?_, fun h => (exec_eq_outcome_iff i s e).2 (.inl h)⟩
  rcases exec_stop_cases h with hs | ⟨L, a, c, m, -, hstop⟩
  · exact hs
  · exact absurd hstop (hop L a c m)

/-! ### The exceptions of the entry checks (R212 to R216) -/

/-- Settles O14: #UD is a stop of the entry checks alone, and there has the one reason. -/
theorem udExactlyByState : Obligations.UdExactlyByState := fun i s =>
  (exec_eq_outcome_iff_entry (i := i) (e := .fault (.ud s)) nofun).trans ⟨fun | .ud hud => hud, .ud⟩

/-- Settles O15: #NM is a stop of the entry checks alone, and of the exceptions only it has vector 7. -/
theorem nmExactlyByTaskSwitched : Obligations.NmExactlyByTaskSwitched := by
  refine ⟨fun i s => ?_, fun i s f h hv => ?_⟩
  · exact (exec_eq_outcome_iff_entry (i := i) (e := .fault (.nm s)) nofun).trans
      ⟨fun | .nm hud hts => ⟨hud, hts⟩, fun ⟨hud, hts⟩ => .nm hud hts⟩
  · obtain ⟨x, rfl⟩ := exec_fault_raise h
    cases x with
    | nm => exact ⟨rfl, rfl⟩
    | _ => cases hv

/-- Settles O16: #MF and the refusal for the external x87 error are stops of the entry checks alone. -/
theorem mfExactlyByPendingX87Error : Obligations.MfExactlyByPendingX87Error := by
  refine fun i s => ⟨?_, ?_⟩
  · exact (exec_eq_outcome_iff_entry (i := i) (e := .fault (.mf s)) nofun).trans
      ⟨fun | .mf hc hud hts hes hne => ⟨hc, hud, hts, hes, hne⟩, fun ⟨hc, hud, hts, hes, hne⟩ => .mf hc hud hts hes hne⟩
  · exact (exec_eq_outcome_iff_entry (i := i) (s := s) (e := .refused .externalX87Error) nofun).trans
      ⟨fun | .refused hc hud hts hes hne => ⟨hc, hud, hts, hes, hne⟩,
        fun ⟨hc, hud, hts, hes, hne⟩ => .refused hc hud hts hes hne⟩

/-! ### Vectors, error codes and refusals (R210, R219) -/

theorem zeroCode_of_real {s : State} (hm : s.mode = .real) : s.zeroCode = none := if_pos hm

theorem zeroCode_of_v86 {s : State} (hm : s.mode = .v86) : s.zeroCode = some 0#32 := by simp [State.zeroCode, hm]

theorem pe_eq_false_of_real {s : State} (hm : s.mode = .real) : s.pe = false := by
  unfold State.mode at hm
  split_ifs at hm with hpe
  exact hpe

theorem pagingOn_of_real {s : State} (hm : s.mode = .real) : s.pagingOn = false := by
  rw [State.pagingOn, pe_eq_false_of_real hm, Bool.and_false]

theorem acOn_of_real {s : State} (hm : s.mode = .real) : s.acOn = false := by
  rw [State.acOn, currentCpl_of_real hm]
  exact Bool.and_false _

/-- Without paging no access is a page fault. -/
theorem translate_ne_pf_of_pagingOff {s : State} (hp : s.pagingOn = false) {r : Seg} {ea : Word} {n : Nat} {acc : Access}
    {code : BitVec 32} {x la : Word} : s.translate r ea n acc ≠ .pf code x la := by
  intro h
  obtain ⟨-, k, -, hk⟩ := (translate_eq_pf_iff s r ea n acc).1 ⟨code, x, la, h⟩
  exact hk ((pageFault_eq_none_iff s acc _).2 (.inl hp))

theorem not_acByAlignment_of_acOff {s : State} (hac : s.acOn = false) (a : AlignRule) (la : Word) :
    acByAlignment a s la = false := by
  cases a <;> simp [acByAlignment, hac]

/-- Settles O23: the code 0 is none in `Real` mode, where neither paging nor alignment checking is on. -/
theorem realModeReportsNoCode : Obligations.RealModeReportsNoCode := by
  intro i s f h
  refine ⟨fun hm => ?_, fun hm hv => ?_⟩
  all_goals rcases exec_stop_cases (e := .fault f) h with hentry | ⟨L, a, c, m, -, hop⟩
  · cases hentry <;> exact ⟨rfl, nofun, nofun⟩
  · cases hop with
    | ss | gp => exact ⟨zeroCode_of_real hm, nofun, nofun⟩
    | pf code x la ht => exact absurd ht (translate_ne_pf_of_pagingOff (pagingOn_of_real hm))
    | ac la ht hac => exact nomatch hac.symm.trans (not_acByAlignment_of_acOff (acOn_of_real hm) a la)
  · cases hentry <;> simp [Fault.vector] at hv
  · cases hop with
    | ss | gp => exact zeroCode_of_v86 hm
    | pf => simp [Fault.vector] at hv
    | ac => rfl

/-- Settles O25: each exception of the entry checks and of the operand read, with its vector and code. -/
theorem faultVectorsAndCodes : Obligations.FaultVectorsAndCodes := by
  intro i s f h
  rcases exec_stop_cases (e := .fault f) h with hentry | ⟨L, a, c, m, ho, hop⟩
  · cases hentry with
    | ud | nm => simp [Fault.vector, Fault.code]
    | mf hc => simp [Fault.vector, Fault.code, hc]
  · cases hop with
    | ss | gp => simp [Fault.vector, Fault.code, State.zeroCode, ho]
    | pf | ac => simp [Fault.vector, Fault.code, ho]

/-- Settles O28: each of the two kinds of stop has one refusal. -/
theorem refusalsAreTheTwoOfTheSpec : Obligations.RefusalsAreTheTwoOfTheSpec := by
  intro i s r h
  rcases exec_stop_cases (e := .refused r) h with hentry | ⟨L, a, c, m, ho, hop⟩
  · cases hentry with
    | refused hc _ _ hes hne => exact .inl ⟨rfl, hc, hes, hne⟩
  · cases hop with
    | refused la ht hse => exact .inr ⟨rfl, L, a, c, m, la, ho, ht, hse⟩

/-! ### Faults of a step (R225) -/

theorem fetched_error_raise {s : State} {f : Fault} (h : s.fetched = .error f) : ∃ x, f = raise x s := by
  rcases fetched_cases s with ⟨la, -, hf⟩ | ⟨-, hf⟩ | ⟨c, a, la, -, hf⟩ <;> cases hf.symm.trans h
  · exact ⟨_, rfl⟩
  · exact ⟨_, rfl⟩

/-- A step that faults has taken an exception in the state it started in, whether the fetch, the decoder or the execution raised
it. -/
theorem step_fault_raise {s : State} {f : Fault} (h : step s = .fault f) : ∃ x, f = raise x s := by
  unfold step at h
  split at h
  · split at h
    · next hf =>
      cases h
      exact fetched_error_raise hf
    · split at h
      · exact exec_fault_raise h
      · cases h
        exact ⟨.gp, rfl⟩
      · cases h
        exact ⟨.ud, rfl⟩
      · cases h
  · cases h

/-- Settles O24: by the state that taking an exception ends in. -/
theorem faultsArePrecise : Obligations.FaultsArePrecise := by
  intro s f h
  obtain ⟨x, rfl⟩ := step_fault_raise h
  exact ⟨raise_final_of_vector x s, raise_final x s⟩

/-! ### Runs (R229, R265) -/

theorem unchanged_refl (s : State) : Unchanged s s := rfl

theorem unchanged_trans {s t u : State} (hst : Unchanged s t) (htu : Unchanged t u) : Unchanged s u := by
  rw [Unchanged, hst] at htu
  exact htu

theorem step_next_unchanged {s t : State} (h : step s = .next t) : Unchanged s t := by
  obtain ⟨i, hi⟩ := step_next_exec h
  obtain ⟨-, hu, -⟩ := exec_next_frame hi
  exact hu

/-- A run that answers a next state has made a first step that does, and gone on from there. -/
theorem run_succ_next {M : Host.Core} {n : Nat} {s t : M.State} (h : M.run (n + 1) s = .next t) :
    ∃ u, M.step s = .next u ∧ M.run n u = .next t := by
  unfold Host.Core.run at h
  split at h
  · next u hu => exact ⟨u, hu, h⟩
  · cases h
  · cases h

theorem run_next_unchanged {n : Nat} {s t : State} (h : Host.Core.run Sys2Proof.core n s = .next t) : Unchanged s t := by
  induction n generalizing s with
  | zero =>
    cases h
    exact unchanged_refl _
  | succ n ih =>
    obtain ⟨u, hstep, hrun⟩ := run_succ_next h
    exact unchanged_trans (step_next_unchanged hstep) (ih hrun)

theorem unchanged_seg {s t : State} (h : Unchanged s t) (r : Seg) : t.seg r = s.seg r := by
  rw [h]
  cases r <;> rfl

/-- Settles O53: everything named is among what no step changes. -/
theorem runsKeepModeAndMemory : Obligations.RunsKeepModeAndMemory := by
  intro n s t h
  have hu := run_next_unchanged h
  have hseg := unchanged_seg hu
  rw [hu] at hseg ⊢
  exact ⟨rfl, rfl, rfl, rfl, rfl, rfl, rfl, rfl, rfl, rfl, rfl, rfl, rfl, hseg, rfl, rfl⟩

/-! ### States outside the model (R223, R233) -/

theorem insideModel_eq_false_iff (s : State) :
    s.insideModel = false ↔ bitAt s.rflags 8 = true ∨ s.dr7.extractLsb' 0 8 ≠ 0#8 := by
  rw [State.insideModel, State.tf, State.armed, Bool.and_eq_false_iff, Bool.not_eq_false', Bool.not_eq_false', bne_iff_ne]

/-- Settles O50: the first thing a step does is to look at `TF` and the enable bits of DR7. -/
theorem outsideModelIsRefused : Obligations.OutsideModelIsRefused := by
  intro s h
  rw [step, (insideModel_eq_false_iff s).2 h]
  rfl

end Sys2Proof.Proofs
end

section
/-! PROOFS. The statements of 70_reset_and_hazards.md: what a step does with the bytes it fetches, and the machine after RESET and
INIT. -/
namespace Sys2Proof.Proofs
open Sys2Proof.Machine Sys2Proof.Laws

/-! ### A step is what the decoder answers (R264) -/

/-- What a step in `s` does with an answer of the decoder (R96, R211, R226). -/
def decodedOutcome (s : State) : DecodeResult → Host.Outcome State Fault Refusal
  | .ok i _ => exec i s
  | .more => .fault (raise .gp s)
  | .ud _ => .fault (raise .ud s)
  | .refuse c => .refused (refusalOf c)

theorem step_of_fetched_ok {s : State} {bs : List Byte} (hin : s.insideModel = true) (hf : s.fetched = .ok bs) :
    step s = decodedOutcome s (decode s.mode bs) := by
  simp only [step, if_pos hin, hf]
  cases decode s.mode bs <;> rfl

/-- Settles O46: one equation for the step, read off at each answer of the decoder. -/
theorem stepRunsDecoded : Obligations.StepRunsDecoded := by
  intro s bs hin hf
  rw [step_of_fetched_ok hin hf]
  have hout {d : DecodeResult} : decode s.mode bs = d → decodedOutcome s (decode s.mode bs) = decodedOutcome s d :=
    congrArg (decodedOutcome s)
  exact ⟨fun _ _ => hout, fun _ => hout, hout, hout, hout, hout, hout⟩

/-- Where an instruction stands at RIP and its own range translates, the fetch gives its bytes and no more. -/
theorem fetched_of_standsAtRip {s : State} {i : Instr} {la : Word} (hwf : i.wf s.mode = true) (hi : StandsAtRip s i)
    (ht : s.translate .cs s.rip i.length .fetch = .ok la) : s.fetched = .ok (encode i) := by
  obtain ⟨-, hfits⟩ := Bool.and_eq_true_iff.1 hwf
  have hbytes := instrBytes_take (of_decide_eq_true hfits) hi
  rw [State.fetched, fetchLength_of_standsAtRip hwf hi, ht, hbytes]

/-- Settles O47: the fetch gives the encoding, and the decoder gives the instruction back. -/
theorem stepRunsEncodedBytes : Obligations.StepRunsEncodedBytes := by
  intro s i la hin hwf hi ht
  have hdecode := decodeOfEncode s.mode i [] hwf
  rw [List.append_nil] at hdecode
  obtain ⟨hexec, -⟩ := stepRunsDecoded s (encode i) hin (fetched_of_standsAtRip hwf hi ht)
  exact hexec i [] hdecode

/-! ### The state after RESET (R260) -/

/-- Every general register but RDX is 0. -/
theorem reset_readGpr : ∀ r : BitVec 4, r ≠ 2#4 → State.reset.readGpr r = 0#64 := by decide

@[simp] theorem reset_zmm : State.reset.zmm = Vector.replicate 32 0#512 := rfl
@[simp] theorem reset_k : State.reset.k = Vector.replicate 8 0#64 := rfl
@[simp] theorem reset_st : State.reset.st = Vector.replicate 8 0#80 := rfl
@[simp] theorem reset_tags : State.reset.tags = Vector.replicate 8 true := rfl

@[simp] theorem reset_readVec (vl : Nat) (r : BitVec 5) : State.reset.readVec vl r = 0#vl := by
  rw [State.readVec]
  simp only [reset_zmm, Vector.getElem_replicate, BitVec.setWidth_zero]

theorem reset_k_getElem (r : BitVec 3) : State.reset.k[r.toNat] = 0#64 := by
  simp only [reset_k, Vector.getElem_replicate]

theorem reset_x87_getElem (r : BitVec 3) : State.reset.st[r.toNat] = 0#80 ∧ State.reset.tags[r.toNat] = true := by
  simp only [reset_st, reset_tags, Vector.getElem_replicate, and_self]

theorem reset_seg_data {r : Seg} (hr : r ≠ .cs) : State.reset.seg r = SegReg.resetData := by
  cases r with
  | cs => exact absurd rfl hr
  | es | ss | ds | fs | gs => rfl

/-- CR0.PE is 0, so the mode is `Real` and CPL 0 (R261). -/
theorem reset_real : State.reset.mode = .real ∧ State.reset.currentCpl = 0#2 := (modeTable State.reset).1 rfl

/-- Settles O55: the registers by their index, the other fields as they are written. -/
theorem resetValues : Obligations.ResetValues := by
  refine ⟨reset_readGpr, rfl, rfl, reset_readVec 512, reset_k_getElem, reset_x87_getElem, rfl, rfl, rfl, rfl, rfl, rfl, rfl, rfl,
    rfl, rfl, rfl, rfl, ⟨rfl, rfl, rfl, rfl, rfl⟩, fun r hr => ?_, rfl, rfl, rfl, rfl, rfl, rfl, rfl, rfl⟩
  have hcs : r ≠ .cs := by
    rintro rfl
    simp at hr
  rw [reset_seg_data hcs]
  exact ⟨rfl, rfl, rfl, rfl, rfl, rfl⟩

/-- Settles O52: memory is empty, the registers with absent bits are 0, and RIP is `FFF0H`. -/
theorem resetMeetsInv : Obligations.ResetMeetsInv := by
  refine ⟨rfl, fun r b _ => ?_, fun r b _ => ?_, fun _ => by decide⟩
  · rw [reset_readVec]
    exact BitVec.getLsbD_zero
  · rw [reset_k_getElem]
    exact BitVec.getLsbD_zero

/-! ### The first fetch (R261) -/

/-- Without paging, an access that passes its segment checks translates. -/
theorem translate_of_pagingOff {s : State} (hp : s.pagingOn = false) {r : Seg} {ea : Word} {n : Nat} {acc : Access}
    (hs : s.segmentOk r ea n acc = true) : s.translate r ea n acc = .ok (s.linear r ea) := by
  rcases translate_cases s r ea n acc with ⟨hno, -⟩ | ⟨-, c, a, -, ht⟩ | ⟨-, -, ht⟩
  · exact nomatch hs.symm.trans hno
  · exact absurd ht (translate_ne_pf_of_pagingOff hp)
  · exact ht

/-- A fetch in `Real` mode that ends within the first 64 KiB of CS translates. -/
theorem translate_fetch_of_real {s : State} (hm : s.mode = .real) {ea : Word} {n : Nat} (hfit : ea.toNat + n ≤ 0x10000) :
    s.translate .cs ea n .fetch = .ok (s.linear .cs ea) := by
  refine translate_of_pagingOff (pagingOn_of_real hm) ?_
  have hlast : s.lastOffset .cs = 0xFFFF := lastOffset_of_realOrV86 (.inl hm) .cs
  rw [State.segmentOk, if_neg (by rw [hm]; decide), hlast]
  exact decide_eq_true hfit

theorem reset_addressSize : addressSize State.reset.mode [] = .a16 := by
  rw [reset_real.1]
  rfl

/-- Settles O58: from offset `FFF0H`, 16 bytes end at the limit `FFFFH`, and the base of CS is `FFFF0000H`. -/
theorem resetVector : Obligations.ResetVector := by
  obtain ⟨hmode, hcpl⟩ := reset_real
  refine ⟨fun n hn => ?_, hmode, hcpl, pagingOn_of_real hmode, reset_addressSize, rfl⟩
  have hlinear : State.reset.linear .cs State.reset.rip = 0xFFFFFFF0#64 := by decide
  have hrip : State.reset.rip.toNat = 0xFFF0 := rfl
  rw [← hlinear]
  exact translate_fetch_of_real hmode (by omega)

/-! ### What runs after RESET (R262) -/

theorem reset_mmxEnabled : MmxEnabled State.reset := ⟨rfl, rfl, rfl, rfl⟩

/-- `CR4.OSFXSR` is 0 for the legacy 128-bit forms, and `Real` mode has no VEX and EVEX forms (R212, R213). -/
theorem reset_udByState {i : Instr} (hc : formClass i ≠ .mmx) : UdByState i State.reset := by
  unfold UdByState
  cases h : formClass i with
  | mmx => exact absurd h hc
  | sse => exact .inr (.inl rfl)
  | vex | evex => exact .inl reset_real.1

/-- Settles O57: the MMX forms pass their entry checks and have their source; the others are #UD by state. -/
theorem resetStateRunsOnlyMmx : Obligations.ResetStateRunsOnlyMmx :=
  ⟨fun _ _ _ _ hp => ⟨_, exec_mmxRows_of_source hp reset_mmxEnabled rfl⟩, reset_addressSize,
    fun i hc => (udExactlyByState i State.reset).2 (reset_udByState hc)⟩

/-! ### INIT (R260) -/

/-- The bits CD and NW of CR0 (log entry 6). -/
theorem cacheBits_bit (b : Nat) : bitAt 0x60000000#64 b = (decide (b = 30) || decide (b = 29)) := by
  have hpow : 0x60000000#64 = BitVec.twoPow 64 30 ||| BitVec.twoPow 64 29 := by decide
  rw [hpow, bitAt, BitVec.getLsbD_or, BitVec.getLsbD_twoPow, BitVec.getLsbD_twoPow]
  simp [eq_comm]

/-- After INIT, CD and NW of CR0 are kept, and of the other bits only bit 4 is 1. -/
theorem initSignal_cr0_bit (s : State) (b : Nat) :
    bitAt s.initSignal.cr0 b = if b = 30 ∨ b = 29 then bitAt s.cr0 b else decide (b = 4) := by
  have hcr0 : s.initSignal.cr0 = BitVec.twoPow 64 4 ||| (s.cr0 &&& 0x60000000#64) := rfl
  have hcache := cacheBits_bit b
  rw [bitAt] at hcache
  rw [hcr0, bitAt, BitVec.getLsbD_or, BitVec.getLsbD_and, BitVec.getLsbD_twoPow, hcache, bitAt]
  split_ifs with hb
  · rcases hb with rfl | rfl <;> simp
  · simp [not_or.1 hb, eq_comm (a := 4)]

theorem initSignal_pe (s : State) : s.initSignal.pe = false := initSignal_cr0_bit s 0

theorem initSignal_seg (s : State) (r : Seg) : s.initSignal.seg r = State.reset.seg r := by
  cases r <;> rfl

/-- Settles O56: CR0 bit by bit, the mode from its bit PE, and the other registers as INIT writes or keeps them. -/
theorem initKeepsVectorState : Obligations.InitKeepsVectorState := by
  intro s
  obtain ⟨hmode, hcpl⟩ := (modeTable s.initSignal).1 (initSignal_pe s)
  refine ⟨rfl, rfl, rfl, rfl, rfl, rfl, rfl, rfl, rfl, rfl, reset_readGpr, rfl, rfl, rfl, rfl, rfl, rfl, rfl, initSignal_seg s,
    rfl, rfl, rfl, rfl, rfl, rfl, rfl, hmode, hcpl, initSignal_cr0_bit s 30, initSignal_cr0_bit s 29, fun b h30 h29 => ?_⟩
  rw [initSignal_cr0_bit, if_neg (not_or.2 ⟨h30, h29⟩)]

end Sys2Proof.Proofs
end
